-- ==== Sys2Proof/Word.lean ====
section
/-! DEFINITION. The word types of the interface (spec 00_scope.md R7). Every value is unsigned (R15). -/

namespace Sys2Proof

/-- A raw byte, or one encoded-symbol lane holding an 8-bit character code (R7: BYTE, SYMW). -/
abbrev Byte := BitVec 8

/-- A 6-bit alphabet index (R7: VALW). -/
abbrev Sextet := BitVec 6

/-- An encoder command word, ENC_CMD (R7, 30_encoding.md R61). -/
abbrev EncWord := BitVec 32

/-- A decoder command word, DEC_CMD (R7, 30_encoding.md R63). -/
abbrev DecWord := BitVec 40

/-- A response word, ENC_RSP or DEC_RSP (R7, 30_encoding.md R65, R67). -/
abbrev RspWord := BitVec 40

end Sys2Proof
end

