-- ==== Sys2Proof/Config.lean ====
section
/-! DEFINITION. What an implementation or the host fixes before a run, and the values the spec leaves open
(00_scope.md R8 to R13, 10_state.md R20, R31, 92_eei_decisions.md D22). -/

namespace Sys2Proof

/-- The agents that make moves (10_state.md R20). -/
inductive Agent where
  | host
  | enc
  | dec
deriving DecidableEq, Repr, Inhabited

/-- The legal values of TAIL_POLICY (00_scope.md R9, 10_state.md R31). The reserved input 2'b11 has no value
here: a configuration with it is refused where the straps are sampled. -/
inductive TailPolicy where
  | exactTail
  | strictTail
  | referenceTail
deriving DecidableEq, Repr

/-- ENC_DEPTH less 1. ENC_DEPTH is OPEN, a whole number ≥ 1 (00_scope.md R10): no body, so nothing can depend on it.
DESIGN CHOICE (log 5), safe. -/
opaque Config.encDepthLess1 : Nat

/-- DEC_DEPTH less 1, OPEN (00_scope.md R10). DESIGN CHOICE (log 5), safe. -/
opaque Config.decDepthLess1 : Nat

/-- ENC_LATENCY less 1, OPEN; "no functional rule of this spec depends on" it (00_scope.md R10), and nothing reads it.
DESIGN CHOICE (log 6), safe. -/
opaque Config.encLatencyLess1 : Nat

/-- DEC_LATENCY less 1, OPEN; nothing reads it (00_scope.md R10). DESIGN CHOICE (log 6), safe. -/
opaque Config.decLatencyLess1 : Nat

/-- ENC_DEPTH: the capacity in words of each encoder channel, at least 1 (R10). -/
def Config.encDepth : Nat := Config.encDepthLess1 + 1

/-- DEC_DEPTH: the capacity in words of each decoder channel, at least 1 (R10). -/
def Config.decDepth : Nat := Config.decDepthLess1 + 1

/-- ENC_LATENCY in clock cycles, at least 1 (R10). The model keeps no time (70_reset_and_hazards.md R240). -/
def Config.encLatency : Nat := Config.encLatencyLess1 + 1

/-- DEC_LATENCY in clock cycles, at least 1 (R10). The model keeps no time (R240). -/
def Config.decLatency : Nat := Config.decLatencyLess1 + 1

/-- THE FREE CHOICE of the agent that moves, for the n-th move, where several agents can move and no settled turn
stands in the state. "The order between ENC steps and DEC steps is free" (10_state.md R20). DESIGN CHOICE (log 2), safe. -/
opaque Config.freeAgent : Nat → Agent

/-- The constants of one run: the two configuration straps and the two channel depths (10_state.md R31, R33). -/
structure RunConfig where
  /-- COMPAT_INVALID (00_scope.md R8). -/
  compatInvalid : Bool
  /-- TAIL_POLICY (00_scope.md R9). -/
  tailPolicy : TailPolicy
  /-- ENC_DEPTH (00_scope.md R10). -/
  encDepth : Nat
  /-- DEC_DEPTH (00_scope.md R10). -/
  decDepth : Nat
deriving DecidableEq, Repr

/-- The spec's defaults, COMPAT_INVALID = 0 and TAIL_POLICY = EXACT (00_scope.md R13), at the OPEN depths. -/
def RunConfig.default : RunConfig :=
  { compatInvalid := false
    tailPolicy := .exactTail
    encDepth := Config.encDepth
    decDepth := Config.decDepth }

end Sys2Proof
end

