-- ==== Sys2Proof/Syntax.lean ====
section
/-! DEFINITION. The command words as syntax: the fields of ENC_CMD and DEC_CMD (30_encoding.md R61, R63) and the nine
commands of opcode_table.json, with the operands the notation of R75 can spell. -/

namespace Sys2Proof

/-- The fields of an encoder command word (30_encoding.md R61). -/
structure EncCmd where
  rsvd : BitVec 4
  last : Bool
  pd : Bool
  cnt : BitVec 2
  b0 : Byte
  b1 : Byte
  b2 : Byte
deriving DecidableEq, Repr

/-- The fields of a decoder command word (30_encoding.md R63). -/
structure DecCmd where
  rsvd : BitVec 4
  last : Bool
  cnt : BitVec 3
  s1 : Byte
  s2 : Byte
  s3 : Byte
  s4 : Byte
deriving DecidableEq, Repr

/-- A command word, on the channel of the unit it is meant for (INDEX.md: "commands are words on two channels"). -/
inductive CmdWord where
  | enc (w : EncWord)
  | dec (w : DecWord)
deriving DecidableEq, Repr

/-- Why a word is malformed (30_encoding.md R72): the three disjuncts of its predicates. -/
inductive Reject where
  /-- RSVD ≠ 0. -/
  | reservedBits
  /-- A decoder CNT of 5, 6 or 7. -/
  | reservedCount
  /-- CNT = 0 with LAST = 0. -/
  | emptyNotLast
deriving DecidableEq, Repr

/-- The nine commands (30_encoding.md R70, R71), one constructor per row of opcode_table.json. `last` is LAST and `pd`
is PD. Don't-care bits (R73) are no operand; ENC3 keeps its PD because R75 spells `ENC3.NP` (log 10). -/
inductive Instr where
  /-- ENC.END (41_encode.md R122). -/
  | encEnd
  /-- ENC1 (41_encode.md R125). -/
  | enc1 (last pd : Bool) (b0 : Byte)
  /-- ENC2 (41_encode.md R124). -/
  | enc2 (last pd : Bool) (b0 b1 : Byte)
  /-- ENC3 (41_encode.md R123). -/
  | enc3 (last pd : Bool) (b0 b1 b2 : Byte)
  /-- DEC.END (42_decode.md R155). -/
  | decEnd
  /-- DEC1 (42_decode.md R159). -/
  | dec1 (last : Bool) (s1 : Byte)
  /-- DEC2 (42_decode.md R158). -/
  | dec2 (last : Bool) (s1 s2 : Byte)
  /-- DEC3 (42_decode.md R157). -/
  | dec3 (last : Bool) (s1 s2 s3 : Byte)
  /-- DEC4 (42_decode.md R156). -/
  | dec4 (last : Bool) (s1 s2 s3 s4 : Byte)
deriving DecidableEq, Repr

/-- The unit whose channel a command is sent on. -/
def Instr.agent : Instr → Agent
  | .encEnd => .enc
  | .enc1 _ _ _ => .enc
  | .enc2 _ _ _ _ => .enc
  | .enc3 _ _ _ _ _ => .enc
  | .decEnd => .dec
  | .dec1 _ _ => .dec
  | .dec2 _ _ _ => .dec
  | .dec3 _ _ _ _ => .dec
  | .dec4 _ _ _ _ _ => .dec

/-- LAST of a command; the END commands "always have LAST = 1" (30_encoding.md R75). -/
def Instr.last : Instr → Bool
  | .encEnd => true
  | .enc1 last _ _ => last
  | .enc2 last _ _ _ => last
  | .enc3 last _ _ _ _ => last
  | .decEnd => true
  | .dec1 last _ => last
  | .dec2 last _ _ => last
  | .dec3 last _ _ _ => last
  | .dec4 last _ _ _ _ => last

/-- CNT of a command: "the mnemonic alone fixes CNT" (30_encoding.md R75). -/
def Instr.count : Instr → Nat
  | .encEnd => 0
  | .enc1 _ _ _ => 1
  | .enc2 _ _ _ _ => 2
  | .enc3 _ _ _ _ _ => 3
  | .decEnd => 0
  | .dec1 _ _ => 1
  | .dec2 _ _ _ => 2
  | .dec3 _ _ _ _ => 3
  | .dec4 _ _ _ _ _ => 4

/-- The data lanes of a command in buffer order: the raw bytes of an encoder command, the symbols of a decoder
command (00_scope.md R17). -/
def Instr.lanes : Instr → List Byte
  | .encEnd => []
  | .enc1 _ _ b0 => [b0]
  | .enc2 _ _ b0 b1 => [b0, b1]
  | .enc3 _ _ b0 b1 b2 => [b0, b1, b2]
  | .decEnd => []
  | .dec1 _ s1 => [s1]
  | .dec2 _ s1 s2 => [s1, s2]
  | .dec3 _ s1 s2 s3 => [s1, s2, s3]
  | .dec4 _ s1 s2 s3 s4 => [s1, s2, s3, s4]

end Sys2Proof
end

