-- ==== Sys2Proof/WellFormed.lean ====
section
/-! DEFINITION. Well-formedness: the negation of 30_encoding.md R72 on the fields of a command word, and the same
conditions on a command. -/

namespace Sys2Proof

/-- An encoder command's fields are legal: RSVD = 0, and CNT = 0 only with LAST = 1 (30_encoding.md R72). -/
def EncCmd.wellFormed (c : EncCmd) : Bool :=
  c.rsvd == 0 && (c.cnt != 0 || c.last)

/-- A decoder command's fields are legal: RSVD = 0, CNT at most 4, and CNT = 0 only with LAST = 1 (30_encoding.md R72). -/
def DecCmd.wellFormed (c : DecCmd) : Bool :=
  c.rsvd == 0 && decide (c.cnt.toNat ≤ 4) && (c.cnt != 0 || c.last)

/-- The largest CNT of a unit's commands (30_encoding.md R61, R63). -/
def Agent.maxCount : Agent → Nat
  | .host => 0
  | .enc => 3
  | .dec => 4

/-- A command is well formed: its CNT is one its unit has, CNT = 0 only with LAST = 1, and it carries CNT lanes. Every
operand has exactly its field's width and RSVD is no operand, so no term of Instr fails this: the check that can fail is
the one on a word's fields above. -/
def Instr.wellFormed (i : Instr) : Bool :=
  decide (i.count ≤ i.agent.maxCount) && (i.count != 0 || i.last) && i.lanes.length == i.count

end Sys2Proof
end

