-- ==== Sys2Proof/Decode.lean ====
section
/-! DEFINITION. The decoder of command words, total and rejecting by name, and after it the encoder, both written from
the field layouts of 30_encoding.md R61 and R63 and the command maps R70 and R71. The slice the spec writes w[hi:lo]
(00_scope.md R14) is `w.extractLsb' lo (hi - lo + 1)` here. -/

namespace Sys2Proof

/-- The fields of an ENC_CMD word (30_encoding.md R61). -/
def encFields (w : EncWord) : EncCmd :=
  { rsvd := w.extractLsb' 28 4
    last := w[27]
    pd := w[26]
    cnt := w.extractLsb' 24 2
    b0 := w.extractLsb' 16 8
    b1 := w.extractLsb' 8 8
    b2 := w.extractLsb' 0 8 }

/-- The fields of a DEC_CMD word (30_encoding.md R63). -/
def decFields (w : DecWord) : DecCmd :=
  { rsvd := w.extractLsb' 36 4
    last := w[35]
    cnt := w.extractLsb' 32 3
    s1 := w.extractLsb' 24 8
    s2 := w.extractLsb' 16 8
    s3 := w.extractLsb' 8 8
    s4 := w.extractLsb' 0 8 }

/-- The encoder's command map (30_encoding.md R70), with the malformed words of R72 rejected by name. -/
def decodeEnc (w : EncWord) : Except Reject Instr :=
  let c := encFields w
  if c.rsvd ≠ 0 then .error .reservedBits
  else if c.cnt = 0 then
    if c.last then .ok .encEnd else .error .emptyNotLast
  else if c.cnt = 1 then .ok (.enc1 c.last c.pd c.b0)
  else if c.cnt = 2 then .ok (.enc2 c.last c.pd c.b0 c.b1)
  else .ok (.enc3 c.last c.pd c.b0 c.b1 c.b2)

/-- The decoder's command map (30_encoding.md R71), with the malformed words of R72 rejected by name. -/
def decodeDec (w : DecWord) : Except Reject Instr :=
  let c := decFields w
  if c.rsvd ≠ 0 then .error .reservedBits
  else if c.cnt = 0 then
    if c.last then .ok .decEnd else .error .emptyNotLast
  else if c.cnt = 1 then .ok (.dec1 c.last c.s1)
  else if c.cnt = 2 then .ok (.dec2 c.last c.s1 c.s2)
  else if c.cnt = 3 then .ok (.dec3 c.last c.s1 c.s2 c.s3)
  else if c.cnt = 4 then .ok (.dec4 c.last c.s1 c.s2 c.s3 c.s4)
  else .error .reservedCount

/-- The decoder over both channels. -/
def decodeCmd : CmdWord → Except Reject Instr
  | .enc w => decodeEnc w
  | .dec w => decodeDec w

/-- A word as the opcode table numbers its bits, put on the channel its length belongs to: up to 32 bits an ENC_CMD, up
to 40 bits a DEC_CMD, every bit above nbits zero (log 11). -/
def tableWord (nbits w : Nat) : Option CmdWord :=
  if nbits ≤ 32 then some (.enc (BitVec.ofNat 32 (w % 2 ^ nbits)))
  else if nbits ≤ 40 then some (.dec (BitVec.ofNat 40 (w % 2 ^ nbits)))
  else none

/-- What the decoder reads from an opcode-table word; none where it rejects the word or no channel has that length. -/
def decodeTableWord (nbits w : Nat) : Option Instr :=
  match tableWord nbits w with
  | some c =>
    match decodeCmd c with
    | .ok i => some i
    | .error _ => none
  | none => none

/-- The ENC_CMD word with the given fields (30_encoding.md R61). -/
def encWordOf (c : EncCmd) : EncWord :=
  c.rsvd ++ BitVec.ofBool c.last ++ BitVec.ofBool c.pd ++ c.cnt ++ c.b0 ++ c.b1 ++ c.b2

/-- The DEC_CMD word with the given fields (30_encoding.md R63). -/
def decWordOf (c : DecCmd) : DecWord :=
  c.rsvd ++ BitVec.ofBool c.last ++ c.cnt ++ c.s1 ++ c.s2 ++ c.s3 ++ c.s4

/-- The encoder of commands: "the mnemonic alone fixes CNT", "omitted lanes and RSVD encode as 0" (30_encoding.md R75). -/
def encode : Instr → CmdWord
  | .encEnd => .enc (encWordOf { rsvd := 0, last := true, pd := false, cnt := 0, b0 := 0, b1 := 0, b2 := 0 })
  | .enc1 last pd b0 => .enc (encWordOf { rsvd := 0, last, pd, cnt := 1, b0, b1 := 0, b2 := 0 })
  | .enc2 last pd b0 b1 => .enc (encWordOf { rsvd := 0, last, pd, cnt := 2, b0, b1, b2 := 0 })
  | .enc3 last pd b0 b1 b2 => .enc (encWordOf { rsvd := 0, last, pd, cnt := 3, b0, b1, b2 })
  | .decEnd => .dec (decWordOf { rsvd := 0, last := true, cnt := 0, s1 := 0, s2 := 0, s3 := 0, s4 := 0 })
  | .dec1 last s1 => .dec (decWordOf { rsvd := 0, last, cnt := 1, s1, s2 := 0, s3 := 0, s4 := 0 })
  | .dec2 last s1 s2 => .dec (decWordOf { rsvd := 0, last, cnt := 2, s1, s2, s3 := 0, s4 := 0 })
  | .dec3 last s1 s2 s3 => .dec (decWordOf { rsvd := 0, last, cnt := 3, s1, s2, s3, s4 := 0 })
  | .dec4 last s1 s2 s3 s4 => .dec (decWordOf { rsvd := 0, last, cnt := 4, s1, s2, s3, s4 })

end Sys2Proof
end

