-- ==== Sys2Proof/Machine/State.lean ====
section
/-! DEFINITION. The state of the block (10_state.md R33), the host's side of the channels, the reasons a step can stop,
and the state after reset (R35). -/

namespace Sys2Proof.Machine

/-- A move of the host, or the external reset event (10_state.md R20, 70_reset_and_hazards.md R238). A withdrawn
command is no move: R237 and R238 give it no counterpart in a model. -/
inductive HostMove where
  /-- Append a word, legal or not, to the encoder's command channel. -/
  | sendEnc (w : EncWord)
  /-- Append a word, legal or not, to the decoder's command channel. -/
  | sendDec (w : DecWord)
  /-- Take the oldest word of the encoder's response channel. -/
  | takeEnc
  /-- Take the oldest word of the decoder's response channel. -/
  | takeDec
  /-- Assert rst, with the two configuration straps at these values (R230, R234). -/
  | reset (compat : Bool) (tail : BitVec 2)
  /-- Drive the two configuration straps with rst = 0 (R233). -/
  | driveConfig (compat : Bool) (tail : BitVec 2)
deriving DecidableEq, Repr

/-- Faults: none. "The block has no trap mechanism" (60_exceptions.md R200), every abnormal condition is a field of a
response (R201), and a full channel "is not a fault" (10_state.md R33). Nobody raises one; safe (log 8). -/
inductive Fault : Type
deriving DecidableEq, Repr

/-- Why a step has no meaning. -/
inductive Refusal where
  /-- Raised by an arm of exec whose command has no meaning yet; no arm does. Safe. -/
  | notModelled (mnemonic : String)
  /-- Raised by a host move that drives TAIL_POLICY = 2'b11: "the model refuses a configuration with that value, so no
  run exists for it" (10_state.md R31). Safe. -/
  | reservedTailPolicy
  /-- Raised by a host move that changes the configuration outside reset: "the model has no run for it, and refuses the
  configuration change" (70_reset_and_hazards.md R233). Safe. -/
  | configChangedOutsideReset
deriving DecidableEq, Repr

/-- The state: the tuple of 10_state.md R33, the constants of the run, and the model's own fields for the host
(log 3) and for the free order of the agents (log 2). -/
structure State where
  /-- enc_halt (R24). -/
  encHalt : Bool
  /-- dec_halt (R25). -/
  decHalt : Bool
  /-- enc_cmd_q: ENC_CMD words accepted and not yet processed, oldest first (R33). -/
  encCmdQ : List EncWord
  /-- enc_rsp_q: ENC_RSP words sent and not yet taken by the host, oldest first (R33). -/
  encRspQ : List RspWord
  /-- dec_cmd_q: DEC_CMD words accepted and not yet processed, oldest first (R33). -/
  decCmdQ : List DecWord
  /-- dec_rsp_q: DEC_RSP words sent and not yet taken by the host, oldest first (R33). -/
  decRspQ : List RspWord
  /-- The constants of the run (R31, R33); only a reset samples them again (70_reset_and_hazards.md R233; log 4). -/
  cfg : RunConfig
  /-- MODEL's own: the moves the host makes next, oldest first (log 3). -/
  hostMoves : List HostMove
  /-- MODEL's own: the ENC_RSP words the host has taken, oldest first (log 3). -/
  encTaken : List RspWord
  /-- MODEL's own: the DEC_RSP words the host has taken, oldest first (log 3). -/
  decTaken : List RspWord
  /-- MODEL's own: agents whose turns are settled, first turn first (log 2). -/
  turns : List Agent
  /-- MODEL's own: how many moves have been made, the counter of the free choice (log 2). -/
  moves : Nat
deriving DecidableEq, Repr

/-- The machine right after reset (10_state.md R35): both halt bits 0 and all four channels empty, in the spec's default
configuration (00_scope.md R13) at the OPEN depths. The model's own fields start empty: DESIGN CHOICE (log 2, log 3). -/
def State.reset : State :=
  { encHalt := false
    decHalt := false
    encCmdQ := []
    encRspQ := []
    decCmdQ := []
    decRspQ := []
    cfg := RunConfig.default
    hostMoves := []
    encTaken := []
    decTaken := []
    turns := []
    moves := 0 }

end Sys2Proof.Machine
end

