-- ==== Sys2Proof/Machine/Operands.lean ====
section
/-! DEFINITION. The operand functions: the alphabet ROM and its two lookups (10_state.md R21 to R23, 40_symbol_lut.md),
the encoder's 6-bit indices (30_encoding.md R69), the decoder's scan and pack (42_decode.md R152, R153), and the reading
of the configuration straps (10_state.md R31). -/

namespace Sys2Proof.Machine

/-- Entries 0 to 25 of ALPHA: the codes of `A` to `Z` (10_state.md R21). -/
def alphaUpper : List Byte :=
  [0x41, 0x42, 0x43, 0x44, 0x45, 0x46, 0x47, 0x48, 0x49, 0x4A, 0x4B, 0x4C, 0x4D,
   0x4E, 0x4F, 0x50, 0x51, 0x52, 0x53, 0x54, 0x55, 0x56, 0x57, 0x58, 0x59, 0x5A]

/-- Entries 26 to 51 of ALPHA: the codes of `a` to `z` (10_state.md R21). -/
def alphaLower : List Byte :=
  [0x61, 0x62, 0x63, 0x64, 0x65, 0x66, 0x67, 0x68, 0x69, 0x6A, 0x6B, 0x6C, 0x6D,
   0x6E, 0x6F, 0x70, 0x71, 0x72, 0x73, 0x74, 0x75, 0x76, 0x77, 0x78, 0x79, 0x7A]

/-- Entries 52 to 63 of ALPHA: the codes of `0` to `9`, `+` and `/` (10_state.md R21). -/
def alphaDigits : List Byte :=
  [0x30, 0x31, 0x32, 0x33, 0x34, 0x35, 0x36, 0x37, 0x38, 0x39, 0x2B, 0x2F]

/-- The alphabet ROM ALPHA, 64 entries: "a constant of the model" (10_state.md R21, R23). -/
def alpha : List Byte := alphaUpper ++ alphaLower ++ alphaDigits

/-- PADC, the code of the padding sentinel `=` (10_state.md R22). -/
def padc : Byte := 0x3D

/-- symbolOf(v) = ALPHA[v] (40_symbol_lut.md R100). -/
def symbolOf (v : Sextet) : Byte := alpha.getD v.toNat 0

/-- The three outcomes of lookup (40_symbol_lut.md R101). -/
inductive SymClass where
  | valid (v : Sextet)
  | pad
  | invalid
deriving DecidableEq, Repr

/-- The index of the first entry equal to c, if there is one. -/
def indexOfCode (c : Byte) : List Byte → Option Nat
  | [] => none
  | a :: rest => if a = c then some 0 else (indexOfCode c rest).map (· + 1)

/-- lookup(c): the alphabet first, then PADC, else INVALID (40_symbol_lut.md R101). -/
def lookup (c : Byte) : SymClass :=
  match indexOfCode c alpha with
  | some k => .valid (BitVec.ofNat 6 k)
  | none => if c = padc then .pad else .invalid

/-- The 24-bit group value G = {b0, b1, b2} (20_memory.md R41, R42). -/
def group (b0 b1 b2 : Byte) : BitVec 24 := b0 ++ b1 ++ b2

/-- pack(v1, v2, v3, v4): four 6-bit values into three bytes (42_decode.md R152). -/
def pack (v1 v2 v3 v4 : Sextet) : Byte × Byte × Byte :=
  ((v1 ++ v2.extractLsb' 4 2 : BitVec 8),
   (v2.extractLsb' 0 4 ++ v3.extractLsb' 2 4 : BitVec 8),
   (v3.extractLsb' 0 2 ++ v4 : BitVec 8))

/-- The effective class of the symbol at position j (1 = symbol 1): under COMPAT_INVALID = 1 an INVALID symbol at
position 3 or 4 counts as padding (42_decode.md R153). -/
def effectiveClass (compat : Bool) (j : Nat) (c : Byte) : SymClass :=
  match lookup c with
  | .valid v => .valid v
  | .pad => .pad
  | .invalid => if compat && decide (3 ≤ j) then .pad else .invalid

/-- What a scan found (42_decode.md R153): every symbol VALID, with the values; or the stopping position, whether the
effective class there is PAD or INVALID, and the values of the symbols before it. -/
inductive Scan where
  | allValid (vs : List Sextet)
  | padAt (p : Nat) (vs : List Sextet)
  | invalidAt (p : Nat) (vs : List Sextet)
deriving DecidableEq, Repr

/-- Put one more value in front of those a scan has collected. -/
def Scan.cons (v : Sextet) : Scan → Scan
  | .allValid vs => .allValid (v :: vs)
  | .padAt p vs => .padAt p (v :: vs)
  | .invalidAt p vs => .invalidAt p (v :: vs)

/-- The scan from position j on: symbols in position order, stopping at the first whose effective class is not VALID
(42_decode.md R153). -/
def scanFrom (compat : Bool) (j : Nat) : List Byte → Scan
  | [] => .allValid []
  | c :: rest =>
    match effectiveClass compat j c with
    | .valid v => (scanFrom compat (j + 1) rest).cons v
    | .pad => .padAt j []
    | .invalid => .invalidAt j []

/-- scan(S, CNT), over the list of the CNT symbols present (42_decode.md R153). -/
def scan (compat : Bool) (syms : List Byte) : Scan := scanFrom compat 1 syms

/-- The value of symbol k + 1 among those scanned, 0 where the symbol is missing (42_decode.md R154, R162). -/
def valueAt (vs : List Sextet) (k : Nat) : Sextet := vs.getD k 0

/-- The encoding of the TAIL_POLICY strap; 2'b11 is reserved (10_state.md R31). -/
def tailPolicyOfBits (b : BitVec 2) : Option TailPolicy :=
  if b = 0 then some .exactTail
  else if b = 1 then some .strictTail
  else if b = 2 then some .referenceTail
  else none

end Sys2Proof.Machine
end

