-- ==== Sys2Proof/Machine/Flags.lean ====
section
/-! DEFINITION. The response words and every status field in them (30_encoding.md R65, R67; 60_exceptions.md R201), the
decode of a group with its status (42_decode.md R154, R160 to R162), and the halt bit's rule (41_encode.md R127,
42_decode.md R163). -/

namespace Sys2Proof.Machine

/-- The fields of an ENC_RSP word (30_encoding.md R65); a field `respond` does not name is zero (00_scope.md R16). -/
structure EncRsp where
  errCmd : Bool := false
  disc : Bool := false
  last : Bool := false
  n : BitVec 3 := 0
  o1 : Byte := 0
  o2 : Byte := 0
  o3 : Byte := 0
  o4 : Byte := 0
deriving DecidableEq, Repr

/-- The ENC_RSP word with the given fields (30_encoding.md R65). -/
def encRspWord (r : EncRsp) : RspWord :=
  (0 : BitVec 2) ++ BitVec.ofBool r.errCmd ++ BitVec.ofBool r.disc ++ BitVec.ofBool r.last ++ r.n
    ++ r.o1 ++ r.o2 ++ r.o3 ++ r.o4

/-- The fields of a DEC_RSP word (30_encoding.md R67); a field `respond` does not name is zero (00_scope.md R16). -/
structure DecRsp where
  errCmd : Bool := false
  epos : BitVec 2 := 0
  errLen : Bool := false
  errPad : Bool := false
  errInv : Bool := false
  disc : Bool := false
  term : Bool := false
  last : Bool := false
  n : BitVec 2 := 0
  d0 : Byte := 0
  d1 : Byte := 0
  d2 : Byte := 0
deriving DecidableEq, Repr

/-- The DEC_RSP word with the given fields (30_encoding.md R67). -/
def decRspWord (r : DecRsp) : RspWord :=
  (0 : BitVec 5) ++ BitVec.ofBool r.errCmd ++ r.epos ++ BitVec.ofBool r.errLen ++ BitVec.ofBool r.errPad
    ++ BitVec.ofBool r.errInv ++ BitVec.ofBool r.disc ++ BitVec.ofBool r.term ++ BitVec.ofBool r.last ++ r.n
    ++ r.d0 ++ r.d1 ++ r.d2

/-- The result of decoding one group (42_decode.md R154): response fields, every one not named 0, and whether the
stream's data ends at this group. -/
structure GroupResult where
  n : BitVec 2 := 0
  d0 : Byte := 0
  d1 : Byte := 0
  d2 : Byte := 0
  term : Bool := false
  errInv : Bool := false
  errPad : Bool := false
  errLen : Bool := false
  epos : BitVec 2 := 0
  ends : Bool
deriving DecidableEq, Repr

/-- Rejected for its length: ERR_LEN = 1, EPOS = CNT, N = 0 (42_decode.md R160, R161; 30_encoding.md R67). -/
def lengthError (cnt : Nat) : GroupResult :=
  { errLen := true, epos := BitVec.ofNat 2 cnt, ends := true }

/-- TAIL_POLICY = EXACT: the ⌊6·CNT/8⌋ bytes the symbols determine; a lone symbol is rejected (42_decode.md R160). -/
def tailExact (cnt : Nat) (vs : List Sextet) : GroupResult :=
  let b := pack (valueAt vs 0) (valueAt vs 1) (valueAt vs 2) 0
  if cnt = 1 then lengthError 1
  else if cnt = 2 then { n := 1, d0 := b.1, ends := true }
  else { n := 2, d0 := b.1, d1 := b.2.1, ends := true }

/-- TAIL_POLICY = REFERENCE: missing values are 0 and CNT bytes are emitted (42_decode.md R162). -/
def tailReference (cnt : Nat) (vs : List Sextet) : GroupResult :=
  let b := pack (valueAt vs 0) (valueAt vs 1) (valueAt vs 2) 0
  { n := BitVec.ofNat 2 cnt
    d0 := b.1
    d1 := if 2 ≤ cnt then b.2.1 else 0
    d2 := if cnt = 3 then b.2.2 else 0
    ends := true }

/-- A group of 1 to 3 VALID symbols with no padding, under the tail policy (42_decode.md R160 to R162). -/
def tailGroup (policy : TailPolicy) (cnt : Nat) (vs : List Sextet) : GroupResult :=
  match policy with
  | .exactTail => tailExact cnt vs
  | .strictTail => lengthError cnt
  | .referenceTail => tailReference cnt vs

/-- The (p, PAD) arms of decode_group: ERR_PAD at position 1 or 2, else the bytes before the padding (42_decode.md R154). -/
def padStop (p : Nat) (vs : List Sextet) : GroupResult :=
  let b := pack (valueAt vs 0) (valueAt vs 1) (valueAt vs 2) 0
  if p ≤ 2 then { errPad := true, epos := BitVec.ofNat 2 (p - 1), ends := true }
  else if p = 3 then { n := 1, d0 := b.1, term := true, ends := true }
  else { n := 2, d0 := b.1, d1 := b.2.1, term := true, ends := true }

/-- decode_group(S, CNT) over the CNT symbols present, in the given configuration (42_decode.md R154). -/
def decodeGroup (cfg : RunConfig) (syms : List Byte) : GroupResult :=
  match scan cfg.compatInvalid syms with
  | .allValid vs =>
    if syms.length = 4 then
      let b := pack (valueAt vs 0) (valueAt vs 1) (valueAt vs 2) (valueAt vs 3)
      { n := 3, d0 := b.1, d1 := b.2.1, d2 := b.2.2, ends := false }
    else tailGroup cfg.tailPolicy syms.length vs
  | .invalidAt p _ => { errInv := true, epos := BitVec.ofNat 2 (p - 1), ends := true }
  | .padAt p vs => padStop p vs

/-- The response fields of a decoded group (the `respond` of 42_decode.md R151). -/
def groupRsp (last : Bool) (r : GroupResult) : DecRsp :=
  { n := r.n, d0 := r.d0, d1 := r.d1, d2 := r.d2, term := r.term, errInv := r.errInv, errPad := r.errPad,
    errLen := r.errLen, epos := r.epos, last := last }

/-- The halt bit after a processed command: 1 exactly when the stream's data ended and LAST = 0 (41_encode.md R127,
42_decode.md R163). -/
def haltAfter (last ends : Bool) : Bool := !last && ends

end Sys2Proof.Machine
end

