-- ==== Sys2Proof/Machine/Ops.lean ====
section
/-! DEFINITION. The named operations over the channels and the halt bits, and the host's moves. The block has no memory
and no registers (20_memory.md R40, 10_state.md R28). It has no trap either (60_exceptions.md R200): what stands where
another machine takes an exception is the entry into halt and the exit from it (R205, R206), here `answerEnc`,
`discardEnc`, `answerDec`, `discardDec`. -/

namespace Sys2Proof.Machine

/-- A channel of the given depth can take one more word: it holds fewer words than that (10_state.md R33). Written by
recursion on the words, so that an empty channel of an OPEN depth is seen to have room. -/
def roomIn {α : Type} : List α → Nat → Bool
  | _, 0 => false
  | [], _ + 1 => true
  | _ :: q, d + 1 => roomIn q d

/-- `send` on the encoder's response channel (00_scope.md R16). -/
def sendEncRsp (w : RspWord) (s : State) : State := { s with encRspQ := s.encRspQ ++ [w] }

/-- `send` on the decoder's response channel (00_scope.md R16). -/
def sendDecRsp (w : RspWord) (s : State) : State := { s with decRspQ := s.decRspQ ++ [w] }

/-- Write enc_halt. -/
def setEncHalt (h : Bool) (s : State) : State := { s with encHalt := h }

/-- Write dec_halt. -/
def setDecHalt (h : Bool) (s : State) : State := { s with decHalt := h }

/-- Answer a processed encoder command: its response, then the halt bit of R127 (41_encode.md R121). -/
def answerEnc (r : EncRsp) (halt : Bool) (s : State) : State := setEncHalt halt (sendEncRsp (encRspWord r) s)

/-- Discard a legal command while the encoder is halted: DISC, LAST echoed, and LAST = 1 closes the stream
(41_encode.md R121). -/
def discardEnc (last : Bool) (s : State) : State :=
  answerEnc { disc := true, last := last } (if last then false else s.encHalt) s

/-- Answer a malformed encoder command: ERR_CMD alone, the halt bit unchanged (41_encode.md R121, 30_encoding.md R72). -/
def rejectEnc (s : State) : State := sendEncRsp (encRspWord { errCmd := true }) s

/-- A legal encoder command with response r when it is processed; `ends` says it is a partial group. The halted unit
discards it instead (41_encode.md R121, R127). -/
def processEnc (last ends : Bool) (r : EncRsp) (s : State) : State :=
  if s.encHalt then discardEnc last s else answerEnc r (haltAfter last ends) s

/-- Answer a processed decoder command: its response, then the halt bit of R163 (42_decode.md R151). -/
def answerDec (r : DecRsp) (halt : Bool) (s : State) : State := setDecHalt halt (sendDecRsp (decRspWord r) s)

/-- Discard a legal command while the decoder is halted: DISC, LAST echoed, and LAST = 1 closes the stream
(42_decode.md R151). -/
def discardDec (last : Bool) (s : State) : State :=
  answerDec { disc := true, last := last } (if last then false else s.decHalt) s

/-- Answer a malformed decoder command: ERR_CMD alone, the halt bit unchanged (42_decode.md R151, 30_encoding.md R72). -/
def rejectDec (s : State) : State := sendDecRsp (decRspWord { errCmd := true }) s

/-- A legal decoder group: decode_group and the response and halt bit it gives; the halted unit discards it instead and
looks nothing up (42_decode.md R151, R163). -/
def processGroup (last : Bool) (syms : List Byte) (s : State) : State :=
  if s.decHalt then discardDec last s
  else
    let r := decodeGroup s.cfg syms
    answerDec (groupRsp last r) (haltAfter last r.ends) s

/-- enc_cmd_ready: the channel is below ENC_DEPTH (10_state.md R33, 30_encoding.md R60). -/
def encCmdReady (s : State) : Bool := roomIn s.encCmdQ s.cfg.encDepth

/-- dec_cmd_ready (10_state.md R33, 30_encoding.md R60). -/
def decCmdReady (s : State) : Bool := roomIn s.decCmdQ s.cfg.decDepth

/-- enc_rsp_valid: a response waits for the host (30_encoding.md R60). -/
def encRspValid (s : State) : Bool := !s.encRspQ.isEmpty

/-- dec_rsp_valid (30_encoding.md R60). -/
def decRspValid (s : State) : Bool := !s.decRspQ.isEmpty

/-- The encoder step is enabled: a command waits and the response channel is below ENC_DEPTH (41_encode.md R121). -/
def encReady (s : State) : Bool := !s.encCmdQ.isEmpty && roomIn s.encRspQ s.cfg.encDepth

/-- The decoder step is enabled: a command waits and the response channel is below DEC_DEPTH (42_decode.md R151). -/
def decReady (s : State) : Bool := !s.decCmdQ.isEmpty && roomIn s.decRspQ s.cfg.decDepth

/-- A move of the host can be made now; a send waits for room and a take waits for a response (10_state.md R33,
70_reset_and_hazards.md R238). -/
def moveReady (m : HostMove) (s : State) : Bool :=
  match m with
  | .sendEnc _ => encCmdReady s
  | .sendDec _ => decCmdReady s
  | .takeEnc => encRspValid s
  | .takeDec => decRspValid s
  | .reset _ _ => true
  | .driveConfig _ _ => true

/-- The host has a move it can make now. -/
def hostReady (s : State) : Bool :=
  match s.hostMoves with
  | [] => false
  | m :: _ => moveReady m s

/-- The reset event: both halt bits 0, all four channels emptied, the configuration sampled (70_reset_and_hazards.md
R230, R234). The constants of the build and the host's side stay (log 13). -/
def resetEvent (compat : Bool) (tail : TailPolicy) (s : State) : State :=
  { s with
    encHalt := false
    decHalt := false
    encCmdQ := []
    encRspQ := []
    decCmdQ := []
    decRspQ := []
    cfg := { s.cfg with compatInvalid := compat, tailPolicy := tail } }

/-- The straps as given are those of the run: nothing changes (70_reset_and_hazards.md R233). -/
def sameConfig (compat : Bool) (tail : TailPolicy) (s : State) : Bool :=
  s.cfg.compatInvalid == compat && s.cfg.tailPolicy == tail

/-- The effect of a host move that can be made (70_reset_and_hazards.md R230, R233, R238; 10_state.md R31, R33). A send
appends one whole word; a take removes the oldest. -/
def hostMoveEffect (m : HostMove) (s : State) : Host.Outcome State Fault Refusal :=
  match m with
  | .sendEnc w => .next { s with encCmdQ := s.encCmdQ ++ [w] }
  | .sendDec w => .next { s with decCmdQ := s.decCmdQ ++ [w] }
  | .takeEnc =>
    match s.encRspQ with
    | [] => .next s
    | r :: rest => .next { s with encRspQ := rest, encTaken := s.encTaken ++ [r] }
  | .takeDec =>
    match s.decRspQ with
    | [] => .next s
    | r :: rest => .next { s with decRspQ := rest, decTaken := s.decTaken ++ [r] }
  | .reset compat tail =>
    match tailPolicyOfBits tail with
    | none => .refused .reservedTailPolicy
    | some t => .next (resetEvent compat t s)
  | .driveConfig compat tail =>
    match tailPolicyOfBits tail with
    | none => .refused .reservedTailPolicy
    | some t => if sameConfig compat t s then .next s else .refused .configChangedOutsideReset

/-- The agent has a step it can take now. -/
def agentReady (a : Agent) (s : State) : Bool :=
  match a with
  | .host => hostReady s
  | .enc => encReady s
  | .dec => decReady s

/-- The agents that can move now. -/
def readyAgents (s : State) : List Agent := [Agent.host, Agent.enc, Agent.dec].filter (fun a => agentReady a s)

/-- Whose turn it would be: the first settled turn, else the free choice (log 2). -/
def turnOf (s : State) : Agent :=
  match s.turns with
  | a :: _ => a
  | [] => Config.freeAgent s.moves

/-- The agent that moves: none if none can, the only one that can, else the one whose turn it is, or the first that can
if that one cannot. The order between the agents is free (10_state.md R20, log 2). -/
def nextAgent (s : State) : Option Agent :=
  match readyAgents s with
  | [] => none
  | [a] => some a
  | a :: _ :: _ => some (if agentReady (turnOf s) s then turnOf s else a)

/-- A move is made: the first settled turn is used up and the free choice's counter goes on (log 2). -/
def passTurn (s : State) : State := { s with turns := s.turns.tail, moves := s.moves + 1 }

end Sys2Proof.Machine
end

