-- ==== Sys2Proof/Machine/Decoder.lean ====
section
/-! DEFINITION. The meanings of the decoder commands (42_decode.md R155 to R159): each on the state the command has
already left the channel of, and each discarded by a halted unit (R151). -/

namespace Sys2Proof.Machine

/-- The response of DEC.END: no byte, LAST = 1 (42_decode.md R155). -/
def rspDecEnd : DecRsp := { last := true }

/-- DEC.END: close the decoder stream; dec_halt stays 0 (42_decode.md R155). A halted unit discards it. -/
def execDecEnd (s : State) : Host.Outcome State Fault Refusal :=
  .next (if s.decHalt then discardDec true s else sendDecRsp (decRspWord rspDecEnd) s)

/-- DEC1: a lone symbol (42_decode.md R159). -/
def execDec1 (last : Bool) (s1 : Byte) (s : State) : Host.Outcome State Fault Refusal :=
  .next (processGroup last [s1] s)

/-- DEC2: a group of 2 symbols (42_decode.md R158). -/
def execDec2 (last : Bool) (s1 s2 : Byte) (s : State) : Host.Outcome State Fault Refusal :=
  .next (processGroup last [s1, s2] s)

/-- DEC3: a group of 3 symbols (42_decode.md R157). -/
def execDec3 (last : Bool) (s1 s2 s3 : Byte) (s : State) : Host.Outcome State Fault Refusal :=
  .next (processGroup last [s1, s2, s3] s)

/-- DEC4: a group of 4 symbols (42_decode.md R156). -/
def execDec4 (last : Bool) (s1 s2 s3 s4 : Byte) (s : State) : Host.Outcome State Fault Refusal :=
  .next (processGroup last [s1, s2, s3, s4] s)

end Sys2Proof.Machine
end

