-- ==== Sys2Proof/Machine/Encoder.lean ====
section
/-! DEFINITION. The meanings of the encoder commands (41_encode.md R122 to R125): each on the state the command has
already left the channel of, and each discarded by a halted unit (R121). -/

namespace Sys2Proof.Machine

/-- The response of ENC.END: no symbol, LAST = 1 (41_encode.md R122). -/
def rspEncEnd : EncRsp := { last := true }

/-- The response of ENC3: the four slices of G (41_encode.md R123). -/
def rspEnc3 (last : Bool) (b0 b1 b2 : Byte) : EncRsp :=
  let g := group b0 b1 b2
  { last := last
    n := 4
    o1 := symbolOf (g.extractLsb' 18 6)
    o2 := symbolOf (g.extractLsb' 12 6)
    o3 := symbolOf (g.extractLsb' 6 6)
    o4 := symbolOf (g.extractLsb' 0 6) }

/-- The response of ENC2: three symbols, the two low-order index bits of the third zero-filled, and one `=` unless PD = 1
(41_encode.md R124). -/
def rspEnc2 (last pd : Bool) (b0 b1 : Byte) : EncRsp :=
  { last := last
    n := if pd then 3 else 4
    o1 := symbolOf (b0.extractLsb' 2 6)
    o2 := symbolOf (b0.extractLsb' 0 2 ++ b1.extractLsb' 4 4)
    o3 := symbolOf (b1.extractLsb' 0 4 ++ (0 : BitVec 2))
    o4 := if pd then 0 else padc }

/-- The response of ENC1: two symbols, the four low-order index bits of the second zero-filled, and two `=` unless PD = 1
(41_encode.md R125). -/
def rspEnc1 (last pd : Bool) (b0 : Byte) : EncRsp :=
  { last := last
    n := if pd then 2 else 4
    o1 := symbolOf (b0.extractLsb' 2 6)
    o2 := symbolOf (b0.extractLsb' 0 2 ++ (0 : BitVec 4))
    o3 := if pd then 0 else padc
    o4 := if pd then 0 else padc }

/-- ENC.END: close the encoder stream (41_encode.md R122). -/
def execEncEnd (s : State) : Host.Outcome State Fault Refusal :=
  .next (processEnc true false rspEncEnd s)

/-- ENC1: a final partial group of 1 byte (41_encode.md R125); it ends the stream's data (R127). -/
def execEnc1 (last pd : Bool) (b0 : Byte) (s : State) : Host.Outcome State Fault Refusal :=
  .next (processEnc last true (rspEnc1 last pd b0) s)

/-- ENC2: a final partial group of 2 bytes (41_encode.md R124); it ends the stream's data (R127). -/
def execEnc2 (last pd : Bool) (b0 b1 : Byte) (s : State) : Host.Outcome State Fault Refusal :=
  .next (processEnc last true (rspEnc2 last pd b0 b1) s)

/-- ENC3: a full group of 3 bytes (41_encode.md R123). PD is ignored. -/
def execEnc3 (last _pd : Bool) (b0 b1 b2 : Byte) (s : State) : Host.Outcome State Fault Refusal :=
  .next (processEnc last false (rspEnc3 last b0 b1 b2) s)

end Sys2Proof.Machine
end

