-- ==== Sys2Proof/Machine/Dispatch.lean ====
section
/-! DEFINITION. One arm per command of opcode_table.json, each a direct call of its meaning. -/

namespace Sys2Proof.Machine

/-- A legal command processed or discarded by its unit, on the state the command has already left the channel of. -/
def exec (i : Instr) (s : State) : Host.Outcome State Fault Refusal :=
  match i with
  | .encEnd => Sys2Proof.Machine.execEncEnd s
  | .enc1 last pd b0 => Sys2Proof.Machine.execEnc1 last pd b0 s
  | .enc2 last pd b0 b1 => Sys2Proof.Machine.execEnc2 last pd b0 b1 s
  | .enc3 last pd b0 b1 b2 => Sys2Proof.Machine.execEnc3 last pd b0 b1 b2 s
  | .decEnd => Sys2Proof.Machine.execDecEnd s
  | .dec1 last s1 => Sys2Proof.Machine.execDec1 last s1 s
  | .dec2 last s1 s2 => Sys2Proof.Machine.execDec2 last s1 s2 s
  | .dec3 last s1 s2 s3 => Sys2Proof.Machine.execDec3 last s1 s2 s3 s
  | .dec4 last s1 s2 s3 s4 => Sys2Proof.Machine.execDec4 last s1 s2 s3 s4 s

end Sys2Proof.Machine
end

