-- ==== Sys2Proof/Machine/Units.lean ====
section
/-! DEFINITION. The step of each agent: the encoder's (41_encode.md R121), the decoder's (42_decode.md R151) and the
host's (70_reset_and_hazards.md R238); and where a command word is put so that it is the next one run. -/

namespace Sys2Proof.Machine

/-- step_enc(): take the oldest command; answer ERR_CMD if it is malformed, else run it (41_encode.md R121). With no
command there is nothing to do. -/
def stepEnc (s : State) : Host.Outcome State Fault Refusal :=
  match s.encCmdQ with
  | [] => .next s
  | w :: rest =>
    match decodeEnc w with
    | .ok i => exec i { s with encCmdQ := rest }
    | .error _ => .next (rejectEnc { s with encCmdQ := rest })

/-- step_dec(): take the oldest command; answer ERR_CMD if it is malformed, else run it (42_decode.md R151). With no
command there is nothing to do. -/
def stepDec (s : State) : Host.Outcome State Fault Refusal :=
  match s.decCmdQ with
  | [] => .next s
  | w :: rest =>
    match decodeDec w with
    | .ok i => exec i { s with decCmdQ := rest }
    | .error _ => .next (rejectDec { s with decCmdQ := rest })

/-- The host makes its next move (70_reset_and_hazards.md R238). -/
def stepHost (s : State) : Host.Outcome State Fault Refusal :=
  match s.hostMoves with
  | [] => .next s
  | m :: rest => hostMoveEffect m { s with hostMoves := rest }

/-- The step of the agent whose turn it is. -/
def stepAgent (a : Agent) (s : State) : Host.Outcome State Fault Refusal :=
  match a with
  | .host => stepHost s
  | .enc => stepEnc s
  | .dec => stepDec s

/-- Put an encoder word where the encoder takes its next command, with room for its response and the next turn the
encoder's (log 9). -/
def placeEnc (w : EncWord) (s : State) : State :=
  { s with
    encCmdQ := w :: s.encCmdQ.tail
    encRspQ := if roomIn s.encRspQ s.cfg.encDepth then s.encRspQ else []
    turns := .enc :: s.turns }

/-- Put a decoder word where the decoder takes its next command, with room for its response and the next turn the
decoder's (log 9). -/
def placeDec (w : DecWord) (s : State) : State :=
  { s with
    decCmdQ := w :: s.decCmdQ.tail
    decRspQ := if roomIn s.decRspQ s.cfg.decDepth then s.decRspQ else []
    turns := .dec :: s.turns }

/-- Put a word on its channel. -/
def placeWord (c : CmdWord) (s : State) : State :=
  match c with
  | .enc w => placeEnc w s
  | .dec w => placeDec w s

end Sys2Proof.Machine
end

