-- ==== Sys2Proof/Machine/Step.lean ====
section
/-! DEFINITION. One step of the block and its host: the agent whose turn it is makes one move. -/

namespace Sys2Proof.Machine

/-- One move of one agent (10_state.md R20). Where none can move the state holds (60_exceptions.md R213, 10_state.md R33;
log 12). -/
def step (s : State) : Host.Outcome State Fault Refusal :=
  match nextAgent s with
  | none => .next s
  | some a => stepAgent a (passTurn s)

/-- The state with an opcode-table word where the next step takes its command; unchanged where no channel has words of
that length (log 9, log 11). -/
def State.withFetchWord (s : State) (nbits w : Nat) : State :=
  match tableWord nbits w with
  | some c => placeWord c s
  | none => s

end Sys2Proof.Machine
end

