-- ==== Sys2Proof/Machine/Streams.lean ====
section
/-! DEFINITION. What the host does with whole buffers: the pseudo-instructions ENCODE and DECODE (30_encoding.md R76)
and the reading of a stream's responses (R66, R68). -/

namespace Sys2Proof.Machine

/-- ENCODE buf [, NP]: full groups, then one final command for the last 1 to 3 bytes with LAST, and with PD when NP is
given; the empty buffer is ENC.END (30_encoding.md R76). -/
def expandEncode (np : Bool) : List Byte → List Instr
  | [] => [.encEnd]
  | [b0] => [.enc1 true np b0]
  | [b0, b1] => [.enc2 true np b0 b1]
  | [b0, b1, b2] => [.enc3 true np b0 b1 b2]
  | b0 :: b1 :: b2 :: b3 :: rest => .enc3 false false b0 b1 b2 :: expandEncode np (b3 :: rest)

/-- DECODE txt: full groups, then one final command for the last 1 to 4 symbols with LAST; the empty text is DEC.END
(30_encoding.md R76). -/
def expandDecode : List Byte → List Instr
  | [] => [.decEnd]
  | [s1] => [.dec1 true s1]
  | [s1, s2] => [.dec2 true s1 s2]
  | [s1, s2, s3] => [.dec3 true s1 s2 s3]
  | [s1, s2, s3, s4] => [.dec4 true s1 s2 s3 s4]
  | s1 :: s2 :: s3 :: s4 :: s5 :: rest => .dec4 false s1 s2 s3 s4 :: expandDecode (s5 :: rest)

/-- The ENC_CMD words of the encoder commands in a list. -/
def encWords (is : List Instr) : List EncWord :=
  is.filterMap (fun i => match encode i with | .enc w => some w | .dec _ => none)

/-- The DEC_CMD words of the decoder commands in a list. -/
def decWords (is : List Instr) : List DecWord :=
  is.filterMap (fun i => match encode i with | .dec w => some w | .enc _ => none)

/-- The four symbol lanes of an ENC_RSP word (30_encoding.md R65). -/
def encRspLanes (w : RspWord) : List Byte :=
  [w.extractLsb' 24 8, w.extractLsb' 16 8, w.extractLsb' 8 8, w.extractLsb' 0 8]

/-- N of an ENC_RSP word (30_encoding.md R65). -/
def encRspCount (w : RspWord) : Nat := (w.extractLsb' 32 3).toNat

/-- The three byte lanes of a DEC_RSP word (30_encoding.md R67). -/
def decRspLanes (w : RspWord) : List Byte :=
  [w.extractLsb' 16 8, w.extractLsb' 8 8, w.extractLsb' 0 8]

/-- N of a DEC_RSP word (30_encoding.md R67). -/
def decRspCount (w : RspWord) : Nat := (w.extractLsb' 24 2).toNat

/-- The encoded text of a stream: the first N lanes of each response, concatenated in order (30_encoding.md R66). -/
def encText (rs : List RspWord) : List Byte := rs.flatMap (fun w => (encRspLanes w).take (encRspCount w))

/-- The decoded bytes of a stream: the first N lanes of each response, concatenated in order (30_encoding.md R68). -/
def decBytes (rs : List RspWord) : List Byte := rs.flatMap (fun w => (decRspLanes w).take (decRspCount w))

/-- resultSize: the sum of N over a stream's responses (30_encoding.md R68). -/
def resultSize (rs : List RspWord) : Nat := (rs.map decRspCount).sum

end Sys2Proof.Machine
end

