-- ==== Sys2Proof/Machine/Transducer.lean ====
section
/-! DEFINITION. Each unit read as a function of its command words alone: the pseudocode of 41_encode.md R121 and
42_decode.md R151 written over the bits of the word, with no decoder, no state and no channel between. Statements compare
the machine with it. -/

namespace Sys2Proof.Machine

/-- malformed_enc(cmd), as 30_encoding.md R72 writes it. -/
def malformedEnc (w : EncWord) : Bool :=
  w.extractLsb' 28 4 != 0 || (w.extractLsb' 24 2 == 0 && w[27] == false)

/-- malformed_dec(cmd), as 30_encoding.md R72 writes it. -/
def malformedDec (w : DecWord) : Bool :=
  w.extractLsb' 36 4 != 0 || decide (5 ≤ (w.extractLsb' 32 3).toNat)
    || (w.extractLsb' 32 3 == 0 && w[35] == false)

/-- The response and the halt bit after one encoder command, from the halt bit before it (41_encode.md R121 to R127). -/
def encAnswer (halt : Bool) (w : EncWord) : RspWord × Bool :=
  let last := w[27]
  let pd := w[26]
  let cnt := w.extractLsb' 24 2
  if malformedEnc w then (encRspWord { errCmd := true }, halt)
  else if halt then (encRspWord { disc := true, last := last }, !last)
  else
    let o1 := symbolOf (w.extractLsb' 18 6)
    let o2 := symbolOf (w.extractLsb' 12 6)
    let rsp :=
      if cnt = 0 then { last := true : EncRsp }
      else if cnt = 1 then
        let o2' := symbolOf (w.extractLsb' 16 2 ++ (0 : BitVec 4))
        if pd then { last, n := 2, o1, o2 := o2' } else { last, n := 4, o1, o2 := o2', o3 := padc, o4 := padc }
      else if cnt = 2 then
        let o3' := symbolOf (w.extractLsb' 8 4 ++ (0 : BitVec 2))
        if pd then { last, n := 3, o1, o2, o3 := o3' } else { last, n := 4, o1, o2, o3 := o3', o4 := padc }
      else { last, n := 4, o1, o2, o3 := symbolOf (w.extractLsb' 6 6), o4 := symbolOf (w.extractLsb' 0 6) }
    (encRspWord rsp, !last && (cnt == 1 || cnt == 2))

/-- The response and the halt bit after one decoder command, from the halt bit before it, in the given configuration
(42_decode.md R151 to R163). -/
def decAnswer (cfg : RunConfig) (halt : Bool) (w : DecWord) : RspWord × Bool :=
  let last := w[35]
  let cnt := (w.extractLsb' 32 3).toNat
  let syms := [w.extractLsb' 24 8, w.extractLsb' 16 8, w.extractLsb' 8 8, w.extractLsb' 0 8]
  if malformedDec w then (decRspWord { errCmd := true }, halt)
  else if halt then (decRspWord { disc := true, last := last }, !last)
  else if cnt = 0 then (decRspWord { last := true }, false)
  else
    let r := decodeGroup cfg (syms.take cnt)
    (decRspWord { n := r.n, d0 := r.d0, d1 := r.d1, d2 := r.d2, term := r.term, errInv := r.errInv,
                  errPad := r.errPad, errLen := r.errLen, epos := r.epos, last := last }, !last && r.ends)

/-- The responses an encoder gives to a sequence of command words (20_memory.md R49). -/
def encAnswers : Bool → List EncWord → List RspWord
  | _, [] => []
  | halt, w :: ws => (encAnswer halt w).1 :: encAnswers (encAnswer halt w).2 ws

/-- The responses a decoder gives to a sequence of command words (20_memory.md R49). -/
def decAnswers (cfg : RunConfig) : Bool → List DecWord → List RspWord
  | _, [] => []
  | halt, w :: ws => (decAnswer cfg halt w).1 :: decAnswers cfg (decAnswer cfg halt w).2 ws

/-- The encoder words the host has still to send, in its order. -/
def encSends (ms : List HostMove) : List EncWord :=
  ms.filterMap (fun m => match m with | .sendEnc w => some w | _ => none)

/-- The decoder words the host has still to send, in its order. -/
def decSends (ms : List HostMove) : List DecWord :=
  ms.filterMap (fun m => match m with | .sendDec w => some w | _ => none)

/-- Every encoder response of a run without reset: those the host has, those that wait, and those still to come. -/
def encHistory (s : State) : List RspWord :=
  s.encTaken ++ s.encRspQ ++ encAnswers s.encHalt (s.encCmdQ ++ encSends s.hostMoves)

/-- Every decoder response of a run without reset: those the host has, those that wait, and those still to come. -/
def decHistory (s : State) : List RspWord :=
  s.decTaken ++ s.decRspQ ++ decAnswers s.cfg s.decHalt (s.decCmdQ ++ decSends s.hostMoves)

end Sys2Proof.Machine
end

