-- ==== Sys2Proof/Safety.lean ====
section
/-! DEFINITION. What holds in a safe state: the channels are within their depths (10_state.md R33) and every response word
is one the spec's word formats allow (30_encoding.md R65, R67; 60_exceptions.md R204). -/

namespace Sys2Proof.Safety

open Sys2Proof.Machine

/-- Every symbol lane at position N or below is an ALPHA code or PADC, every later lane is 0x00 (30_encoding.md R65). -/
def encLanesOk (n : Nat) (lanes : List Byte) : Bool :=
  (lanes.take n).all (fun c => decide (c ∈ alpha) || c == padc) && (lanes.drop n).all (fun c => c == 0)

/-- An ENC_RSP word as 30_encoding.md R65 allows it. -/
def encRspOk (w : RspWord) : Bool :=
  w.extractLsb' 38 2 == 0
    && (!w[37] || w == 0x2000000000)
    && (!w[36] || encRspCount w == 0)
    && decide (encRspCount w ≤ 4)
    && encLanesOk (encRspCount w) (encRspLanes w)

/-- How many of ERR_CMD, ERR_LEN, ERR_PAD and ERR_INV a DEC_RSP word has set (30_encoding.md R67). -/
def decErrCount (w : RspWord) : Nat :=
  w[34].toNat + w[31].toNat + w[30].toNat + w[29].toNat

/-- A DEC_RSP word as 30_encoding.md R67 and 60_exceptions.md R204 allow it. -/
def decRspOk (w : RspWord) : Bool :=
  w.extractLsb' 35 5 == 0
    && (!w[34] || w == 0x0400000000)
    && decide (decErrCount w ≤ 1)
    && (!(decide (decErrCount w = 1) || w[28]) || decRspCount w == 0)
    && (!w[28] || (decErrCount w == 0 && !w[27]))
    && (!w[27] || (decErrCount w == 0 && (decRspCount w == 1 || decRspCount w == 2)))
    && (w[31] || w[30] || w[29] || w.extractLsb' 32 2 == 0)
    && ((decRspLanes w).drop (decRspCount w)).all (fun c => c == 0)

/-- The channels are within their depths, which are at least 1 (10_state.md R33, 00_scope.md R10). -/
structure ChannelsBounded (s : State) : Prop where
  encDepthPos : 1 ≤ s.cfg.encDepth
  decDepthPos : 1 ≤ s.cfg.decDepth
  encCmd : s.encCmdQ.length ≤ s.cfg.encDepth
  encRsp : s.encRspQ.length ≤ s.cfg.encDepth
  decCmd : s.decCmdQ.length ≤ s.cfg.decDepth
  decRsp : s.decRspQ.length ≤ s.cfg.decDepth

/-- Every response sent, waiting or taken, is a word the spec's formats allow. -/
structure ResponsesLegal (s : State) : Prop where
  encWaiting : ∀ w ∈ s.encRspQ, encRspOk w = true
  encTaken : ∀ w ∈ s.encTaken, encRspOk w = true
  decWaiting : ∀ w ∈ s.decRspQ, decRspOk w = true
  decTaken : ∀ w ∈ s.decTaken, decRspOk w = true

/-- The invariant of the block: bounded channels and legal responses. -/
structure Inv (s : State) : Prop where
  bounded : ChannelsBounded s
  legal : ResponsesLegal s

/-- The host asserts no reset among the moves it has still to make. -/
def NoReset (s : State) : Prop := ∀ compat tail, HostMove.reset compat tail ∉ s.hostMoves

end Sys2Proof.Safety
end

