-- ==== Sys2Proof/Certificates/Slice0/Obligations.lean ====
section
/-! DEFINITION. The statements for the provers. Each docstring names the rules of spec/ it formalises. -/

namespace Sys2Proof.Claims

open Sys2Proof Sys2Proof.Machine Sys2Proof.Safety

/-- The state after one encoder answer: the response appended and enc_halt written, every other field as it was. -/
def encNext (s : State) (w : RspWord) (halt : Bool) : State :=
  { s with encRspQ := s.encRspQ ++ [w], encHalt := halt }

/-- The state after one decoder answer: the response appended and dec_halt written, every other field as it was. -/
def decNext (s : State) (w : RspWord) (halt : Bool) : State :=
  { s with decRspQ := s.decRspQ ++ [w], decHalt := halt }

/-- ALPHA at a natural-number index below 64. -/
def symbolAt (n : Nat) : Byte := symbolOf (BitVec.ofNat 6 n)

/-- G = 65536·b0 + 256·b1 + b2 (20_memory.md R41). -/
def groupNat (b0 b1 b2 : Byte) : Nat := 65536 * b0.toNat + 256 * b1.toNat + b2.toNat

/-- The 6-bit value of lane k (0 = symbol 1), and 0 where the lane is missing or its symbol is not VALID. -/
def laneValue (lanes : List Byte) (k : Nat) : Nat :=
  match (lanes[k]?).map lookup with
  | some (.valid v) => v.toNat
  | _ => 0

/-- The bits of an encoder word that are not ignored, by its CNT: RSVD, LAST, CNT, PD for CNT 1 and 2, and the lanes below
CNT (30_encoding.md R73). -/
def encCareMask (w : EncWord) : EncWord :=
  if w.extractLsb' 24 2 = 0 then 0xFB000000
  else if w.extractLsb' 24 2 = 1 then 0xFFFF0000
  else if w.extractLsb' 24 2 = 2 then 0xFFFFFF00
  else 0xFBFFFFFF

/-- The bits of a decoder word that are not ignored, by its CNT: RSVD, LAST, CNT and the lanes up to CNT
(30_encoding.md R73). -/
def decCareMask (w : DecWord) : DecWord :=
  if w.extractLsb' 32 3 = 0 then 0xFF00000000
  else if w.extractLsb' 32 3 = 1 then 0xFFFF000000
  else if w.extractLsb' 32 3 = 2 then 0xFFFFFF0000
  else if w.extractLsb' 32 3 = 3 then 0xFFFFFFFF00
  else 0xFFFFFFFFFF

/-- The lane is VALID. -/
def isValid (c : Byte) : Bool :=
  match lookup c with
  | .valid _ => true
  | _ => false

/-- Byte 0 of a packed group: (value1 << 2) | (value2 >> 4), modulo 256 (42_decode.md R152). -/
def packed0 (v1 v2 : Nat) : Byte := BitVec.ofNat 8 (v1 * 4 + v2 / 16)

/-- Byte 1 of a packed group: (value2 << 4) | (value3 >> 2), modulo 256 (42_decode.md R152). -/
def packed1 (v2 v3 : Nat) : Byte := BitVec.ofNat 8 (v2 * 16 + v3 / 4)

/-- Byte 2 of a packed group: (value3 << 6) | value4, modulo 256 (42_decode.md R152). -/
def packed2 (v3 v4 : Nat) : Byte := BitVec.ofNat 8 (v3 * 64 + v4)

/-- The first n lanes are all VALID. -/
def ValidBelow (lanes : List Byte) (n : Nat) : Prop :=
  ∀ j < n, ∃ c v, lanes[j]? = some c ∧ lookup c = .valid v

/-- Lane k is the first whose effective class is not VALID, and that class is PAD (42_decode.md R153). -/
def PadStopsAt (compat : Bool) (lanes : List Byte) (k : Nat) : Prop :=
  ValidBelow lanes k ∧
    ∃ c, lanes[k]? = some c ∧ (lookup c = .pad ∨ (lookup c = .invalid ∧ compat = true ∧ 2 ≤ k))

/-- Lane k is the first whose effective class is not VALID, and that class is INVALID (42_decode.md R153). -/
def InvalidStopsAt (compat : Bool) (lanes : List Byte) (k : Nat) : Prop :=
  ValidBelow lanes k ∧
    ∃ c, lanes[k]? = some c ∧ lookup c = .invalid ∧ (compat = false ∨ k < 2)

/-- A run that processes a whole encoder stream: the unit is not halted, its channel holds the words of ENCODE buf, no
response waits, no other agent has anything to do, and the response channel can hold every response. -/
structure EncodeBench (np : Bool) (buf : List Byte) (s : State) : Prop where
  notHalted : s.encHalt = false
  hostIdle : s.hostMoves = []
  decIdle : s.decCmdQ = []
  noResponse : s.encRspQ = []
  commands : s.encCmdQ = encWords (expandEncode np buf)
  room : s.encCmdQ.length ≤ s.cfg.encDepth

/-- A run that processes a whole decoder stream: the words of DECODE txt wait on a decoder that is not halted. -/
structure DecodeBench (txt : List Byte) (s : State) : Prop where
  notHalted : s.decHalt = false
  hostIdle : s.hostMoves = []
  encIdle : s.encCmdQ = []
  noResponse : s.decRspQ = []
  commands : s.decCmdQ = decWords (expandDecode txt)
  room : s.decCmdQ.length ≤ s.cfg.decDepth

/-- The text t is the ENCODE of buf: what a run of the encoder over the commands of ENCODE buf leaves as its text. -/
def EncodesTo (np : Bool) (buf txt : List Byte) : Prop :=
  ∃ s t : State, EncodeBench np buf s ∧ core.run s.encCmdQ.length s = .next t ∧ encText t.encRspQ = txt

/-- A run of n moves without reset, from a state just after reset, in any order of the agents, with any depths and any
spacing of the host's moves. -/
structure FreshRun (n : Nat) (s t : State) : Prop where
  noReset : NoReset s
  ran : core.run n s = .next t
  encNotHalted : s.encHalt = false
  decNotHalted : s.decHalt = false
  encCmdEmpty : s.encCmdQ = []
  encRspEmpty : s.encRspQ = []
  decCmdEmpty : s.decCmdQ = []
  decRspEmpty : s.decRspQ = []
  encNoneTaken : s.encTaken = []
  decNoneTaken : s.decTaken = []

/-- Such a run, whose host sends the encoder the commands of ENCODE buf and no others, after the encoder has answered every
one of them with the responses rs, some taken by the host and some perhaps still waiting. -/
structure EncodedAtAnyPace (np : Bool) (buf : List Byte) (n : Nat) (s t : State) (rs : List RspWord) : Prop where
  fresh : FreshRun n s t
  sends : encSends s.hostMoves = encWords (expandEncode np buf)
  answered : rs.length = (expandEncode np buf).length
  responses : rs = t.encTaken ++ t.encRspQ

/-- Such a run, whose host sends the decoder the commands of DECODE txt and no others, after the decoder has answered every
one of them with the responses rs, some taken by the host and some perhaps still waiting. -/
structure DecodedAtAnyPace (txt : List Byte) (n : Nat) (s t : State) (rs : List RspWord) : Prop where
  fresh : FreshRun n s t
  sends : decSends s.hostMoves = decWords (expandDecode txt)
  answered : rs.length = (expandDecode txt).length
  responses : rs = t.decTaken ++ t.decRspQ

end Sys2Proof.Claims

open Sys2Proof Sys2Proof.Machine Sys2Proof.Safety Sys2Proof.Claims

/-! ## Encoding -/

/-- 30_encoding.md R77: the ten sample commands, their words, and what the decoder reads from those words. -/
def Obligations.SampleWordsEncodeAndDecode : Prop :=
  (encode (.enc3 true false 0x4D 0x61 0x6E) = .enc 0x0B4D616E ∧
    decodeEnc 0x0B4D616E = .ok (.enc3 true false 0x4D 0x61 0x6E)) ∧
  (encode (.enc3 false false 0x4D 0x61 0x6E) = .enc 0x034D616E ∧
    decodeEnc 0x034D616E = .ok (.enc3 false false 0x4D 0x61 0x6E)) ∧
  (encode (.enc2 true false 0x4D 0x61) = .enc 0x0A4D6100 ∧ decodeEnc 0x0A4D6100 = .ok (.enc2 true false 0x4D 0x61)) ∧
  (encode (.enc1 true false 0x4D) = .enc 0x094D0000 ∧ decodeEnc 0x094D0000 = .ok (.enc1 true false 0x4D)) ∧
  (encode (.enc1 true true 0x4D) = .enc 0x0D4D0000 ∧ decodeEnc 0x0D4D0000 = .ok (.enc1 true true 0x4D)) ∧
  (encode .encEnd = .enc 0x08000000 ∧ decodeEnc 0x08000000 = .ok .encEnd) ∧
  (encode (.dec4 true 0x54 0x57 0x46 0x75) = .dec 0x0C54574675 ∧
    decodeDec 0x0C54574675 = .ok (.dec4 true 0x54 0x57 0x46 0x75)) ∧
  (encode (.dec4 true 0x54 0x51 0x3D 0x3D) = .dec 0x0C54513D3D ∧
    decodeDec 0x0C54513D3D = .ok (.dec4 true 0x54 0x51 0x3D 0x3D)) ∧
  (encode (.dec2 true 0x54 0x51) = .dec 0x0A54510000 ∧ decodeDec 0x0A54510000 = .ok (.dec2 true 0x54 0x51)) ∧
  (encode .decEnd = .dec 0x0800000000 ∧ decodeDec 0x0800000000 = .ok .decEnd)

/-- Decode and encode agree on every well-formed command of both units, every operand at every value. -/
def Obligations.DecodeOfEncodeIsIdentity : Prop :=
  ∀ i : Instr, i.wellFormed = true → decodeCmd (encode i) = .ok i

/-- 30_encoding.md R73 and opcode_table.json: re-encoding what a legal word decodes to gives the word with its ignored
bits cleared, and nothing else changed. The masks are the rows' fixed and operand bits (ENC3 keeps its PD, log 10). -/
def Obligations.ReencodingClearsOnlyIgnoredBits : Prop :=
  (∀ w i, decodeEnc w = .ok i → encode i =
    .enc (w &&& (match i.count with | 0 => 0xFB000000 | 1 => 0xFFFF0000 | 2 => 0xFFFFFF00 | _ => 0xFFFFFFFF))) ∧
  (∀ w i, decodeDec w = .ok i → encode i =
    .dec (w &&& (match i.count with
      | 0 => 0xFF00000000 | 1 => 0xFFFF000000 | 2 => 0xFFFFFF0000 | 3 => 0xFFFFFFFF00 | _ => 0xFFFFFFFFFF)))

/-- 30_encoding.md R72, the malformed words, and what a unit does with one: the decoder rejects exactly those words, and the
step of the unit that takes one answers ERR_CMD alone and changes nothing else, halted or not. -/
def Obligations.MalformedCommandsAnswerErrCmdOnly : Prop :=
  (∀ w : EncWord, (∃ e, decodeEnc w = .error e) ↔
    (w.toNat / 2 ^ 28 ≠ 0 ∨ (w.toNat / 2 ^ 24 % 4 = 0 ∧ w.toNat / 2 ^ 27 % 2 = 0))) ∧
  (∀ w : DecWord, (∃ e, decodeDec w = .error e) ↔
    (w.toNat / 2 ^ 36 ≠ 0 ∨ 5 ≤ w.toNat / 2 ^ 32 % 8 ∨ (w.toNat / 2 ^ 32 % 8 = 0 ∧ w.toNat / 2 ^ 35 % 2 = 0))) ∧
  (∀ (s : State) (w : EncWord) rest e, s.encCmdQ = w :: rest → decodeEnc w = .error e →
    stepEnc s = .next { s with encCmdQ := rest, encRspQ := s.encRspQ ++ [0x2000000000] }) ∧
  (∀ (s : State) (w : DecWord) rest e, s.decCmdQ = w :: rest → decodeDec w = .error e →
    stepDec s = .next { s with decCmdQ := rest, decRspQ := s.decRspQ ++ [0x0400000000] })

/-- 30_encoding.md R73: two words that differ only in the ignored fields (lanes at CNT and above, PD for CNT 0 and 3)
have the same effect, on every state in which the unit takes them. -/
def Obligations.IgnoredFieldsHaveNoEffect : Prop :=
  (∀ (s : State) (w w' : EncWord) rest, nextAgent { s with encCmdQ := w :: rest } = some .enc →
    w &&& encCareMask w = w' &&& encCareMask w →
    step { s with encCmdQ := w :: rest } = step { s with encCmdQ := w' :: rest }) ∧
  (∀ (s : State) (w w' : DecWord) rest, nextAgent { s with decCmdQ := w :: rest } = some .dec →
    w &&& decCareMask w = w' &&& decCareMask w →
    step { s with decCmdQ := w :: rest } = step { s with decCmdQ := w' :: rest })

/-! ## The alphabet -/

/-- 10_state.md R21 and R22: the closed form of ALPHA, its 64 entries, and PADC, which is none of them. -/
def Obligations.AlphabetHasItsClosedForm : Prop :=
  alpha.length = 64 ∧ padc = 0x3D ∧ padc ∉ alpha ∧
  ∀ v : Sextet, (symbolOf v).toNat =
    if v.toNat ≤ 25 then 0x41 + v.toNat
    else if v.toNat ≤ 51 then 0x47 + v.toNat
    else if v.toNat ≤ 61 then v.toNat - 4
    else if v.toNat = 62 then 0x2B else 0x2F

/-- 40_symbol_lut.md R103: symbolOf and lookup are mutual inverses on the alphabet. -/
def Obligations.LookupInvertsSymbolOf : Prop :=
  (∀ v : Sextet, lookup (symbolOf v) = .valid v) ∧ (∀ (c : Byte) (v : Sextet), lookup c = .valid v → symbolOf v = c)

/-- 40_symbol_lut.md R102: the class and value of each of the 256 codes, and how many codes each class holds. -/
def Obligations.LookupClassifiesEveryCode : Prop :=
  (∀ c : Byte, lookup c =
    if 0x41 ≤ c.toNat ∧ c.toNat ≤ 0x5A then .valid (BitVec.ofNat 6 (c.toNat - 0x41))
    else if 0x61 ≤ c.toNat ∧ c.toNat ≤ 0x7A then .valid (BitVec.ofNat 6 (c.toNat - 0x47))
    else if 0x30 ≤ c.toNat ∧ c.toNat ≤ 0x39 then .valid (BitVec.ofNat 6 (c.toNat + 4))
    else if c.toNat = 0x2B then .valid 62
    else if c.toNat = 0x2F then .valid 63
    else if c.toNat = 0x3D then .pad
    else .invalid) ∧
  ((List.range 256).filter (fun n => isValid (BitVec.ofNat 8 n))).length = 64 ∧
  ((List.range 256).filter (fun n => lookup (BitVec.ofNat 8 n) == .pad)).length = 1 ∧
  ((List.range 256).filter (fun n => lookup (BitVec.ofNat 8 n) == .invalid)).length = 191

/-! ## Encoder commands -/

/-- 41_encode.md R122: ENC.END. Every word with RSVD = 0, CNT = 0 and LAST = 1 is one; it answers N = 0 and LAST = 1 with
empty lanes and leaves the unit not halted; a halted unit discards it with DISC = 1 and its halt bit clears. Nothing else
changes. -/
def Obligations.EncEndClosesTheStream : Prop :=
  (∀ w : EncWord, w.extractLsb' 28 4 = 0 → w.extractLsb' 24 2 = 0 → w[27] = true → decodeEnc w = .ok .encEnd) ∧
  (∀ s : State, s.encHalt = false → exec .encEnd s = .next (encNext s 0x0800000000 false)) ∧
  (∀ s : State, s.encHalt = true → exec .encEnd s = .next (encNext s 0x1800000000 false))

/-- 41_encode.md R123: ENC3. The four indices are bits 23..18, 17..12, 11..6 and 5..0 of G; PD is ignored, LAST is echoed,
the unit is not halted after it, every lane is an alphabet code, and nothing else changes. The corner cases and the
example of the rule stand last. -/
def Obligations.Enc3EncodesThreeBytes : Prop :=
  (∀ w : EncWord, w.extractLsb' 28 4 = 0 → w.extractLsb' 24 2 = 3 → decodeEnc w =
    .ok (.enc3 w[27] w[26] (w.extractLsb' 16 8) (w.extractLsb' 8 8) (w.extractLsb' 0 8))) ∧
  (∀ (s : State) (last pd : Bool) (b0 b1 b2 : Byte), s.encHalt = false →
    let g := groupNat b0 b1 b2
    exec (.enc3 last pd b0 b1 b2) s = .next (encNext s (encRspWord {
      last := last, n := 4,
      o1 := symbolAt (g / 2 ^ 18), o2 := symbolAt (g / 2 ^ 12), o3 := symbolAt (g / 2 ^ 6), o4 := symbolAt g }) false)) ∧
  (∀ n, symbolAt n ∈ alpha ∧ symbolAt n ≠ padc) ∧
  (∀ s : State, s.encHalt = false →
    exec (.enc3 true false 0x00 0x00 0x00) s = .next (encNext s 0x0C41414141 false) ∧
    exec (.enc3 true false 0xFF 0xFF 0xFF) s = .next (encNext s 0x0C2F2F2F2F false) ∧
    exec (.enc3 true false 0x4D 0x61 0x6E) s = .next (encNext s 0x0C54574675 false))

/-- 41_encode.md R124: ENC2. Symbol 3 is byte 1's low 4 bits with two zeros below them; `=` follows unless PD = 1; the unit
is halted after it exactly when LAST = 0; nothing else changes. The corner cases and the example stand last. -/
def Obligations.Enc2EncodesTwoBytes : Prop :=
  (∀ w : EncWord, w.extractLsb' 28 4 = 0 → w.extractLsb' 24 2 = 2 → decodeEnc w =
    .ok (.enc2 w[27] w[26] (w.extractLsb' 16 8) (w.extractLsb' 8 8))) ∧
  (∀ (s : State) (last : Bool) (b0 b1 : Byte), s.encHalt = false →
    let o1 := symbolAt (b0.toNat / 4)
    let o2 := symbolAt (b0.toNat % 4 * 16 + b1.toNat / 16)
    let o3 := symbolAt (b1.toNat % 16 * 4)
    exec (.enc2 last false b0 b1) s =
      .next (encNext s (encRspWord { last := last, n := 4, o1 := o1, o2 := o2, o3 := o3, o4 := 0x3D }) (!last)) ∧
    exec (.enc2 last true b0 b1) s =
      .next (encNext s (encRspWord { last := last, n := 3, o1 := o1, o2 := o2, o3 := o3 }) (!last))) ∧
  (∀ s : State, s.encHalt = false →
    exec (.enc2 true false 0xFF 0xFF) s = .next (encNext s 0x0C2F2F383D false) ∧
    exec (.enc2 true true 0xFF 0xFF) s = .next (encNext s 0x0B2F2F3800 false) ∧
    exec (.enc2 true false 0x00 0x00) s = .next (encNext s 0x0C4141413D false) ∧
    exec (.enc2 true false 0x4D 0x61) s = .next (encNext s 0x0C5457453D false) ∧
    exec (.enc2 true true 0x4D 0x61) s = .next (encNext s 0x0B54574500 false))

/-- 41_encode.md R125: ENC1. Symbol 2 is byte 0's low 2 bits with four zeros below them; two `=` follow unless PD = 1; the
unit is halted after it exactly when LAST = 0; nothing else changes. The corner cases and the example stand last. -/
def Obligations.Enc1EncodesOneByte : Prop :=
  (∀ w : EncWord, w.extractLsb' 28 4 = 0 → w.extractLsb' 24 2 = 1 → decodeEnc w =
    .ok (.enc1 w[27] w[26] (w.extractLsb' 16 8))) ∧
  (∀ (s : State) (last : Bool) (b0 : Byte), s.encHalt = false →
    let o1 := symbolAt (b0.toNat / 4)
    let o2 := symbolAt (b0.toNat % 4 * 16)
    exec (.enc1 last false b0) s =
      .next (encNext s (encRspWord { last := last, n := 4, o1 := o1, o2 := o2, o3 := 0x3D, o4 := 0x3D }) (!last)) ∧
    exec (.enc1 last true b0) s = .next (encNext s (encRspWord { last := last, n := 2, o1 := o1, o2 := o2 }) (!last)) ∧
    o2 ∈ ([0x41, 0x51, 0x67, 0x77] : List Byte)) ∧
  (∀ s : State, s.encHalt = false →
    exec (.enc1 true false 0xFF) s = .next (encNext s 0x0C2F773D3D false) ∧
    exec (.enc1 true false 0x00) s = .next (encNext s 0x0C41413D3D false) ∧
    exec (.enc1 true false 0x03) s = .next (encNext s 0x0C41773D3D false) ∧
    exec (.enc1 true false 0x4D) s = .next (encNext s 0x0C54513D3D false) ∧
    exec (.enc1 true true 0x4D) s = .next (encNext s 0x0A54510000 false))

/-- 41_encode.md R126 and R129: the number of symbols of each command's response, and where `=` stands among them: only as
the last 2 symbols after ENC1 and the last 1 after ENC2, and only with PD = 0. -/
def Obligations.PaddingStandsOnlyAtTheEndOfPartialGroups : Prop :=
  ∀ (i : Instr) (s : State), i.agent = .enc → s.encHalt = false →
    let pd := match i with | .enc1 _ pd _ => pd | .enc2 _ pd _ _ => pd | _ => false
    let pads := if pd then 0 else if i.count = 1 then 2 else if i.count = 2 then 1 else 0
    ∃ t w body, exec i s = .next t ∧ t.encRspQ = s.encRspQ ++ [w] ∧
      encText [w] = body ++ List.replicate pads padc ∧ (∀ c ∈ body, c ∈ alpha ∧ c ≠ padc) ∧
      encRspCount w = (if i.count = 0 then 0 else i.count + 1 + pads) ∧ (encText [w]).length = encRspCount w

/-- 41_encode.md R127: after a processed command enc_halt is 1 exactly when LAST = 0 and CNT is 1 or 2; a halted unit
discards every legal command, up to and including the one with LAST = 1, which clears the bit. Nothing else changes. -/
def Obligations.PartialGroupHaltsTheEncoder : Prop :=
  ∀ (i : Instr) (s : State), i.agent = .enc →
    (s.encHalt = false → ∃ w, exec i s =
      .next (encNext s w (decide (i.last = false ∧ (i.count = 1 ∨ i.count = 2))))) ∧
    (s.encHalt = true → exec i s =
      .next (encNext s (if i.last then 0x1800000000 else 0x1000000000) (!i.last)))

/-- 41_encode.md R121: the encoder unit's step is the rule's pseudocode, read from the bits of the word: the same response
and halt bit, one command taken, one response sent, nothing else changed; and it is enabled exactly as the rule says. -/
def Obligations.EncoderStepIsItsPseudocode : Prop :=
  (∀ s : State, encReady s = true ↔ (s.encCmdQ ≠ [] ∧ s.encRspQ.length < s.cfg.encDepth)) ∧
  (∀ (s : State) (w : EncWord) rest, s.encCmdQ = w :: rest →
    stepEnc s = .next { s with
      encCmdQ := rest
      encRspQ := s.encRspQ ++ [(encAnswer s.encHalt w).1]
      encHalt := (encAnswer s.encHalt w).2 })

/-- 30_encoding.md R65: the layout of ENC_RSP, on every response the encoder sends: the top bits are 0, ERR_CMD says the
command was malformed and then every other field is 0, DISC says it was discarded, LAST is the command's, N is at most 4,
the lanes up to N hold alphabet codes or PADC and the later lanes 0x00. -/
def Obligations.EncoderResponsesHaveTheirFormat : Prop :=
  ∀ (s : State) (w : EncWord) rest, s.encCmdQ = w :: rest → ∃ t r, stepEnc s = .next t ∧ t.encRspQ = s.encRspQ ++ [r] ∧
    r.extractLsb' 38 2 = 0 ∧
    (r[37] = true ↔ malformedEnc w = true) ∧ (r[37] = true → r = 0x2000000000) ∧
    (r[36] = true ↔ (malformedEnc w = false ∧ s.encHalt = true)) ∧
    (malformedEnc w = false → r[35] = w[27]) ∧
    encRspCount r ≤ 4 ∧
    (∀ k c, (encRspLanes r)[k]? = some c →
      (k < encRspCount r → c ∈ alpha ∨ c = 0x3D) ∧ (encRspCount r ≤ k → c = 0))

/-! ## Decoder commands -/

/-- 42_decode.md R155: DEC.END. Every word with RSVD = 0, CNT = 0 and LAST = 1 is one; it answers N = 0 and LAST = 1 with
dec_halt still 0; a halted unit discards it with DISC = 1 and its halt bit clears. Nothing else changes. -/
def Obligations.DecEndClosesTheStream : Prop :=
  (∀ w : DecWord, w.extractLsb' 36 4 = 0 → w.extractLsb' 32 3 = 0 → w[35] = true → decodeDec w = .ok .decEnd) ∧
  (∀ s : State, s.decHalt = false → exec .decEnd s = .next (decNext s 0x0004000000 false)) ∧
  (∀ s : State, s.decHalt = true → exec .decEnd s = .next (decNext s 0x0014000000 false))

/-- 42_decode.md R152: pack is the source's three formulas, and the inverse of the encoder's slicing of G. -/
def Obligations.PackIsTheSourceFormulas : Prop :=
  (∀ v1 v2 v3 v4 : Sextet, pack v1 v2 v3 v4 =
    (packed0 v1.toNat v2.toNat, packed1 v2.toNat v3.toNat, packed2 v3.toNat v4.toNat)) ∧
  (∀ g : BitVec 24, pack (g.extractLsb' 18 6) (g.extractLsb' 12 6) (g.extractLsb' 6 6) (g.extractLsb' 0 6) =
    (g.extractLsb' 16 8, g.extractLsb' 8 8, g.extractLsb' 0 8))

/-- 42_decode.md R153: the scan stops at the first symbol whose effective class is not VALID, under COMPAT_INVALID = 1
with INVALID at position 3 or 4 counted as PAD, and reports its position and class; otherwise every symbol is VALID. The
values reported are those of the symbols before the stop. -/
def Obligations.ScanStopsAtTheFirstNonValidSymbol : Prop :=
  ∀ (compat : Bool) (syms : List Byte),
    ((∃ vs, scan compat syms = .allValid vs) ↔ ValidBelow syms syms.length) ∧
    (∀ k, (∃ vs, scan compat syms = .padAt (k + 1) vs) ↔ PadStopsAt compat syms k) ∧
    (∀ k, (∃ vs, scan compat syms = .invalidAt (k + 1) vs) ↔ InvalidStopsAt compat syms k) ∧
    (∀ vs, scan compat syms = .allValid vs → syms.map lookup = vs.map .valid) ∧
    (∀ k vs, scan compat syms = .padAt (k + 1) vs → (syms.take k).map lookup = vs.map .valid) ∧
    (∀ k vs, scan compat syms = .invalidAt (k + 1) vs → (syms.take k).map lookup = vs.map .valid)

/-- 42_decode.md R154: the six arms of decode_group, on DEC1 to DEC4 run by a unit that is not halted: the response and
the halt bit of each, and nothing else changed. Lane k is symbol k + 1. -/
def Obligations.DecoderGroupArms : Prop :=
  ∀ (i : Instr) (s : State), i.agent = .dec → i.count ≠ 0 → s.decHalt = false →
    let v := laneValue i.lanes
    (i.count = 4 → ValidBelow i.lanes 4 → exec i s = .next (decNext s (decRspWord {
      last := i.last, n := 3, d0 := packed0 (v 0) (v 1), d1 := packed1 (v 1) (v 2), d2 := packed2 (v 2) (v 3) }) false)) ∧
    (i.count < 4 → ValidBelow i.lanes i.count → exec i s = .next (decNext s (decRspWord
      (groupRsp i.last (tailGroup s.cfg.tailPolicy i.count (i.lanes.map (fun c =>
        match lookup c with | .valid x => x | _ => 0))))) (!i.last))) ∧
    (∀ k, InvalidStopsAt s.cfg.compatInvalid i.lanes k → exec i s = .next (decNext s (decRspWord {
      last := i.last, errInv := true, epos := BitVec.ofNat 2 k }) (!i.last))) ∧
    (∀ k, k < 2 → PadStopsAt s.cfg.compatInvalid i.lanes k → exec i s = .next (decNext s (decRspWord {
      last := i.last, errPad := true, epos := BitVec.ofNat 2 k }) (!i.last))) ∧
    (PadStopsAt s.cfg.compatInvalid i.lanes 2 → exec i s = .next (decNext s (decRspWord {
      last := i.last, n := 1, d0 := packed0 (v 0) (v 1), term := true }) (!i.last))) ∧
    (PadStopsAt s.cfg.compatInvalid i.lanes 3 → exec i s = .next (decNext s (decRspWord {
      last := i.last, n := 2, d0 := packed0 (v 0) (v 1), d1 := packed1 (v 1) (v 2), term := true }) (!i.last)))

/-- 42_decode.md R160: a tail of 1 to 3 VALID symbols under TAIL_POLICY = EXACT, on DEC1, DEC2 and DEC3. -/
def Obligations.ExactTailEmitsDeterminedBytes : Prop :=
  ∀ (s : State) (last : Bool) (s1 s2 s3 : Byte) (v1 v2 v3 : Sextet), s.decHalt = false → s.cfg.tailPolicy = .exactTail →
    lookup s1 = .valid v1 → lookup s2 = .valid v2 → lookup s3 = .valid v3 →
    exec (.dec1 last s1) s = .next (decNext s (decRspWord { last := last, errLen := true, epos := 1 }) (!last)) ∧
    exec (.dec2 last s1 s2) s = .next (decNext s (decRspWord {
      last := last, n := 1, d0 := packed0 v1.toNat v2.toNat }) (!last)) ∧
    exec (.dec3 last s1 s2 s3) s = .next (decNext s (decRspWord {
      last := last, n := 2, d0 := packed0 v1.toNat v2.toNat, d1 := packed1 v2.toNat v3.toNat }) (!last))

/-- 42_decode.md R161: a tail of 1 to 3 VALID symbols under TAIL_POLICY = STRICT is ERR_LEN with EPOS = CNT. -/
def Obligations.StrictTailIsALengthError : Prop :=
  ∀ (i : Instr) (s : State), i.agent = .dec → 1 ≤ i.count → i.count ≤ 3 → s.decHalt = false →
    s.cfg.tailPolicy = .strictTail → ValidBelow i.lanes i.count →
    exec i s = .next (decNext s (decRspWord {
      last := i.last, errLen := true, epos := BitVec.ofNat 2 i.count, n := 0 }) (!i.last))

/-- 42_decode.md R162: a tail of 1 to 3 VALID symbols under TAIL_POLICY = REFERENCE: missing values are 0 and CNT bytes are
emitted. -/
def Obligations.ReferenceTailZeroExtends : Prop :=
  ∀ (i : Instr) (s : State), i.agent = .dec → 1 ≤ i.count → i.count ≤ 3 → s.decHalt = false →
    s.cfg.tailPolicy = .referenceTail → ValidBelow i.lanes i.count →
    let v := laneValue i.lanes
    exec i s = .next (decNext s (decRspWord {
      last := i.last
      n := BitVec.ofNat 2 i.count
      d0 := packed0 (v 0) (v 1)
      d1 := if 2 ≤ i.count then packed1 (v 1) (v 2) else 0
      d2 := if i.count = 3 then packed2 (v 2) 0 else 0 }) (!i.last))

/-- 42_decode.md R163: after a processed group dec_halt is 1 exactly when LAST = 0 and the group ended the data: CNT < 4 or
some symbol not VALID (padding or an error). A halted unit discards every legal command, up to and including the one with
LAST = 1, which clears the bit. Nothing else changes. -/
def Obligations.EndedDataHaltsTheDecoder : Prop :=
  ∀ (i : Instr) (s : State), i.agent = .dec →
    (s.decHalt = false → i.count ≠ 0 → ∃ w h, exec i s = .next (decNext s w h) ∧
      (h = true ↔ (i.last = false ∧ (i.count < 4 ∨ ¬ ValidBelow i.lanes i.count)))) ∧
    (s.decHalt = true → exec i s = .next (decNext s (if i.last then 0x0014000000 else 0x0010000000) (!i.last)))

/-- 42_decode.md R166: bits of a value that padding or an EXACT tail drops are not checked: symbols whose values agree in
the bits kept give the same result. `TR==` decodes to 0x4D. -/
def Obligations.DroppedBitsAreNotChecked : Prop :=
  (∀ (s : State) (last : Bool) (a b b' p d : Byte) (v v' : Sextet), lookup b = .valid v → lookup b' = .valid v' →
    v.extractLsb' 4 2 = v'.extractLsb' 4 2 → lookup p = .pad →
    exec (.dec4 last a b p d) s = exec (.dec4 last a b' p d) s ∧ exec (.dec3 last a b p) s = exec (.dec3 last a b' p) s ∧
    (s.cfg.tailPolicy = .exactTail → exec (.dec2 last a b) s = exec (.dec2 last a b') s)) ∧
  (∀ (s : State) (last : Bool) (a b c c' p : Byte) (v v' : Sextet), lookup c = .valid v → lookup c' = .valid v' →
    v.extractLsb' 2 4 = v'.extractLsb' 2 4 → lookup p = .pad →
    exec (.dec4 last a b c p) s = exec (.dec4 last a b c' p) s ∧
    (s.cfg.tailPolicy = .exactTail → exec (.dec3 last a b c) s = exec (.dec3 last a b c') s)) ∧
  (∀ s : State, s.decHalt = false →
    exec (.dec4 true 0x54 0x52 0x3D 0x3D) s = .next (decNext s 0x000D4D0000 false))

/-- 42_decode.md R167: symbols after the stopping position affect nothing: two groups of the same length and LAST that
agree up to the stop have the same effect. With padding as symbol 3, symbol 4 may hold any code: 1 byte and TERM = 1. -/
def Obligations.SymbolsAfterTheStopAreIgnored : Prop :=
  (∀ (i j : Instr) (s : State) (k : Nat), i.agent = .dec → j.agent = .dec → i.count = j.count → i.last = j.last →
    (PadStopsAt s.cfg.compatInvalid i.lanes k ∨ InvalidStopsAt s.cfg.compatInvalid i.lanes k) →
    i.lanes.take (k + 1) = j.lanes.take (k + 1) → exec i s = exec j s) ∧
  (∀ (s : State) (last : Bool) (s1 s2 s3 s4 : Byte) (v1 v2 : Sextet), s.decHalt = false →
    lookup s1 = .valid v1 → lookup s2 = .valid v2 → lookup s3 = .pad →
    exec (.dec4 last s1 s2 s3 s4) s = .next (decNext s (decRspWord {
      last := last, n := 1, d0 := packed0 v1.toNat v2.toNat, term := true }) (!last)))

/-- 42_decode.md R151: the decoder unit's step is the rule's pseudocode, read from the bits of the word: the same response
and halt bit, one command taken, one response sent, nothing else changed; and it is enabled exactly as the rule says. -/
def Obligations.DecoderStepIsItsPseudocode : Prop :=
  (∀ s : State, decReady s = true ↔ (s.decCmdQ ≠ [] ∧ s.decRspQ.length < s.cfg.decDepth)) ∧
  (∀ (s : State) (w : DecWord) rest, s.decCmdQ = w :: rest →
    stepDec s = .next { s with
      decCmdQ := rest
      decRspQ := s.decRspQ ++ [(decAnswer s.cfg s.decHalt w).1]
      decHalt := (decAnswer s.cfg s.decHalt w).2 })

/-- 30_encoding.md section 3 and 60_exceptions.md section 2, on every response the decoder sends: the top bits are 0,
ERR_CMD says the command was malformed and then every other field is 0, at most one ERR bit is set, N = 0 with any ERR bit
or DISC, TERM never with an ERR bit, LAST is the command's, EPOS is 0 but for the three data errors, and every byte lane at
N or above is 0x00. -/
def Obligations.DecoderResponsesHaveTheirFormat : Prop :=
  ∀ (s : State) (w : DecWord) rest, s.decCmdQ = w :: rest → ∃ t r, stepDec s = .next t ∧ t.decRspQ = s.decRspQ ++ [r] ∧
    r.extractLsb' 35 5 = 0 ∧
    (r[34] = true ↔ malformedDec w = true) ∧ (r[34] = true → r = 0x0400000000) ∧
    (r[28] = true ↔ (malformedDec w = false ∧ s.decHalt = true)) ∧
    (malformedDec w = false → r[26] = w[35]) ∧
    decErrCount r ≤ 1 ∧ (decErrCount r = 1 ∨ r[28] = true → decRspCount r = 0) ∧
    (r[27] = true → decErrCount r = 0) ∧
    (r[31] = false → r[30] = false → r[29] = false → r.extractLsb' 32 2 = 0) ∧
    (∀ k c, (decRspLanes r)[k]? = some c → decRspCount r ≤ k → c = 0)

/-! ## Steps, order and reset -/

/-- 10_state.md R35: after reset both halt bits are 0 and the four channels are empty, every word held at reset being
discarded: of State.reset, and of the reset event from any state. ALPHA is constant and the straps are sampled, not reset. -/
def Obligations.ResetLeavesTheStatedValues : Prop :=
  (State.reset.encHalt = false ∧ State.reset.decHalt = false ∧
    State.reset.encCmdQ = [] ∧ State.reset.encRspQ = [] ∧ State.reset.decCmdQ = [] ∧ State.reset.decRspQ = []) ∧
  (∀ (s : State) (compat : Bool) (tail : BitVec 2) policy, tailPolicyOfBits tail = some policy →
    ∃ t, hostMoveEffect (.reset compat tail) s = .next t ∧ t.encHalt = false ∧ t.decHalt = false ∧
      t.encCmdQ = [] ∧ t.encRspQ = [] ∧ t.decCmdQ = [] ∧ t.decRspQ = [] ∧
      t.cfg.compatInvalid = compat ∧ t.cfg.tailPolicy = policy)

/-- 70_reset_and_hazards.md section 1: the reset event clears both halt bits, empties the four channels whatever they hold
and samples the configuration; the channel depths and everything the host holds stay; a strap of 2'b11 is refused. The
host's move list is the model's own (log 3). -/
def Obligations.ResetMoveClearsTheBlock : Prop :=
  ∀ (s : State) (compat : Bool) (tail : BitVec 2) rest, nextAgent s = some .host →
    s.hostMoves = .reset compat tail :: rest →
    (tail = 3 → step s = .refused .reservedTailPolicy) ∧
    (∀ policy, (tail = 0 ∧ policy = .exactTail) ∨ (tail = 1 ∧ policy = .strictTail) ∨ (tail = 2 ∧ policy = .referenceTail) →
      step s = .next {
        encHalt := false, decHalt := false, encCmdQ := [], encRspQ := [], decCmdQ := [], decRspQ := []
        cfg := ⟨compat, policy, s.cfg.encDepth, s.cfg.decDepth⟩
        hostMoves := rest, encTaken := s.encTaken, decTaken := s.decTaken
        turns := s.turns.tail, moves := s.moves + 1 })

/-- The step runs the decoded command: where it is the encoder's turn and the oldest word decodes to i, the step is exec of
i on the state the word has left, with the turn passed on. -/
def Obligations.StepRunsTheDecodedEncoderCommand : Prop :=
  ∀ (s : State) (w : EncWord) rest i, nextAgent s = some .enc → s.encCmdQ = w :: rest → decodeEnc w = .ok i →
    step s = exec i { s with encCmdQ := rest, turns := s.turns.tail, moves := s.moves + 1 }

/-- The step runs the decoded command: where it is the decoder's turn and the oldest word decodes to i, the step is exec of
i on the state the word has left, with the turn passed on. -/
def Obligations.StepRunsTheDecodedDecoderCommand : Prop :=
  ∀ (s : State) (w : DecWord) rest i, nextAgent s = some .dec → s.decCmdQ = w :: rest → decodeDec w = .ok i →
    step s = exec i { s with decCmdQ := rest, turns := s.turns.tail, moves := s.moves + 1 }

/-- The word withFetchWord places is the next one run, on every state whose channels hold at least one word each, and
neither the halt bits nor the configuration it runs under are touched. The placing is the model's own (log 9). -/
def Obligations.PlacedWordIsTheNextOneRun : Prop :=
  ∀ (s : State) (n w : Nat) (i : Instr), 1 ≤ s.cfg.encDepth → 1 ≤ s.cfg.decDepth → decodeTableWord n w = some i →
    ∃ u, step (s.withFetchWord n w) = exec i u ∧ u.encHalt = s.encHalt ∧ u.decHalt = s.decHalt ∧ u.cfg = s.cfg

/-- 10_state.md section 1: the order between the agents is free. Whichever agent can move, a turn settled for it makes it
the one that moves; and the agent that moves is always one that can. The settled turns are the model's own (log 2). -/
def Obligations.AnyReadyAgentMayMoveNext : Prop :=
  (∀ (s : State) (a : Agent) rest, agentReady a s = true →
    step { s with turns := a :: rest } = stepAgent a { s with turns := rest, moves := s.moves + 1 }) ∧
  (∀ (s : State) (a : Agent), nextAgent s = some a → agentReady a s = true) ∧
  (∀ s : State, nextAgent s = none ↔ ∀ a, agentReady a s = false)

/-- 60_exceptions.md section 3 (power states) and 10_state.md section 5: where no agent can move, the state holds. -/
def Obligations.IdleBlockHoldsItsState : Prop :=
  ∀ s : State, s.hostMoves = [] → s.encCmdQ = [] → s.decCmdQ = [] → step s = .next s

/-- 10_state.md section 5: a unit whose response channel is full does not move, and a send to a full command channel is not
made: the channel gets no word, and loses one only where its unit moves. Neither is a fault. That the moves behind such a
send wait with it is the model's own: the host makes its moves strictly in their order (log 3). -/
def Obligations.FullChannelStallsAndIsNoFault : Prop :=
  (∀ s : State, s.cfg.encDepth ≤ s.encRspQ.length → nextAgent s ≠ some .enc) ∧
  (∀ s : State, s.cfg.decDepth ≤ s.decRspQ.length → nextAgent s ≠ some .dec) ∧
  (∀ (s : State) (w : EncWord) rest, s.hostMoves = .sendEnc w :: rest → s.cfg.encDepth ≤ s.encCmdQ.length →
    nextAgent s ≠ some .host ∧ ∃ t, step s = .next t ∧ t.hostMoves = s.hostMoves ∧ t.cfg = s.cfg ∧
      t.encCmdQ = (if nextAgent s = some .enc then s.encCmdQ.tail else s.encCmdQ)) ∧
  (∀ (s : State) (w : DecWord) rest, s.hostMoves = .sendDec w :: rest → s.cfg.decDepth ≤ s.decCmdQ.length →
    nextAgent s ≠ some .host ∧ ∃ t, step s = .next t ∧ t.hostMoves = s.hostMoves ∧ t.cfg = s.cfg ∧
      t.decCmdQ = (if nextAgent s = some .dec then s.decCmdQ.tail else s.decCmdQ))

/-- 70_reset_and_hazards.md section 3: what the host may do in its turn: a send appends one whole word, legal or not, at the
end of its channel while the channel is below depth, and a take removes the oldest response; nothing else changes. That
the model keeps what the host took is its own (log 3). -/
def Obligations.HostSendsAndTakesWholeWordsInOrder : Prop :=
  ∀ (s : State) rest, nextAgent s = some .host →
    (∀ w, s.hostMoves = .sendEnc w :: rest → step s = .next { s with
      encCmdQ := s.encCmdQ ++ [w], hostMoves := rest, turns := s.turns.tail, moves := s.moves + 1 }) ∧
    (∀ w, s.hostMoves = .sendDec w :: rest → step s = .next { s with
      decCmdQ := s.decCmdQ ++ [w], hostMoves := rest, turns := s.turns.tail, moves := s.moves + 1 }) ∧
    (∀ r q, s.hostMoves = .takeEnc :: rest → s.encRspQ = r :: q → step s = .next { s with
      encRspQ := q, encTaken := s.encTaken ++ [r], hostMoves := rest, turns := s.turns.tail, moves := s.moves + 1 }) ∧
    (∀ r q, s.hostMoves = .takeDec :: rest → s.decRspQ = r :: q → step s = .next { s with
      decRspQ := q, decTaken := s.decTaken ++ [r], hostMoves := rest, turns := s.turns.tail, moves := s.moves + 1 })

/-- 00_scope.md R12 with 70_reset_and_hazards.md section 1: the configuration is fixed for the whole run: no step without
a reset changes it; driving other values outside reset is refused, the reserved TAIL_POLICY 2'b11 by its own name; and
driving the present values changes nothing of the block, which is the model's own reading (log 13), as are the host's list
of moves and the turns (log 3, log 2). -/
def Obligations.ConfigurationIsFixedOutsideReset : Prop :=
  (∀ (n : Nat) (s : State) (t : State), NoReset s → core.run n s = .next t → t.cfg = s.cfg) ∧
  (∀ (s : State) (compat : Bool) (tail : BitVec 2) rest, nextAgent s = some .host →
    s.hostMoves = .driveConfig compat tail :: rest →
    (∀ policy, tailPolicyOfBits tail = some policy → (compat ≠ s.cfg.compatInvalid ∨ policy ≠ s.cfg.tailPolicy) →
      step s = .refused .configChangedOutsideReset) ∧
    (tail = 3 → step s = .refused .reservedTailPolicy) ∧
    (compat = s.cfg.compatInvalid → tailPolicyOfBits tail = some s.cfg.tailPolicy →
      step s = .next { s with hostMoves := rest, turns := s.turns.tail, moves := s.moves + 1 }))

/-- 60_exceptions.md section 1 and 10_state.md section 4: every step answers a next state, but for a step of the host that
drives TAIL_POLICY = 2'b11 or, outside reset, a configuration other than the present one; so no command of either unit is
ever refused. That no step ends in a fault is built into the model, whose Fault is empty (log 8). -/
def Obligations.OnlyConfigurationMovesAreRefused : Prop :=
  ∀ s : State, (∃ t, step s = .next t) ∨ (nextAgent s = some .host ∧ ∃ r compat tail rest, step s = .refused r ∧
    ((s.hostMoves = .reset compat tail :: rest ∧ tail = 3 ∧ r = .reservedTailPolicy) ∨
     (s.hostMoves = .driveConfig compat tail :: rest ∧ tail = 3 ∧ r = .reservedTailPolicy) ∨
     (s.hostMoves = .driveConfig compat tail :: rest ∧ r = .configChangedOutsideReset ∧
       ∃ policy, tailPolicyOfBits tail = some policy ∧ (compat ≠ s.cfg.compatInvalid ∨ policy ≠ s.cfg.tailPolicy))))

/-- 60_exceptions.md section 2: a unit leaves halt in two ways only: it takes a legal command with LAST = 1, which is
discarded with DISC = 1, or the host makes a reset in this very step. -/
def Obligations.HaltIsLeftOnlyByLastOrReset : Prop :=
  ∀ s t : State, step s = .next t →
    (s.encHalt = true → t.encHalt = false →
      (nextAgent s = some .host ∧ ∃ compat tail rest, s.hostMoves = .reset compat tail :: rest) ∨
      (nextAgent s = some .enc ∧ ∃ w rest i, s.encCmdQ = w :: rest ∧ decodeEnc w = .ok i ∧ i.last = true ∧
        t.encRspQ = s.encRspQ ++ [0x1800000000])) ∧
    (s.decHalt = true → t.decHalt = false →
      (nextAgent s = some .host ∧ ∃ compat tail rest, s.hostMoves = .reset compat tail :: rest) ∨
      (nextAgent s = some .dec ∧ ∃ w rest i, s.decCmdQ = w :: rest ∧ decodeDec w = .ok i ∧ i.last = true ∧
        t.decRspQ = s.decRspQ ++ [0x0014000000]))

/-- 10_state.md section 3: each halt bit is written only by its own unit's step and by a reset made in this very step; so a
unit enters halt only in a step of its own, on a command with LAST = 0. -/
def Obligations.HaltBitsAreWrittenOnlyByTheirUnit : Prop :=
  ∀ s t : State, step s = .next t →
    (t.encHalt ≠ s.encHalt → nextAgent s = some .enc ∨
      (nextAgent s = some .host ∧ ∃ compat tail rest, s.hostMoves = .reset compat tail :: rest)) ∧
    (t.decHalt ≠ s.decHalt → nextAgent s = some .dec ∨
      (nextAgent s = some .host ∧ ∃ compat tail rest, s.hostMoves = .reset compat tail :: rest)) ∧
    (s.encHalt = false → t.encHalt = true →
      nextAgent s = some .enc ∧ ∃ w rest i, s.encCmdQ = w :: rest ∧ decodeEnc w = .ok i ∧ i.last = false) ∧
    (s.decHalt = false → t.decHalt = true →
      nextAgent s = some .dec ∧ ∃ w rest i, s.decCmdQ = w :: rest ∧ decodeDec w = .ok i ∧ i.last = false)

/-- 70_reset_and_hazards.md section 3 (end of a stream): after any legal command with LAST = 1, processed or discarded, its
unit is not halted, and the other unit's bit is as it was. -/
def Obligations.LastCommandLeavesItsUnitNotHalted : Prop :=
  ∀ (i : Instr) (s : State), i.last = true → ∃ t, exec i s = .next t ∧
    (i.agent = .enc → t.encHalt = false ∧ t.decHalt = s.decHalt) ∧
    (i.agent = .dec → t.decHalt = false ∧ t.encHalt = s.encHalt)

/-- 20_memory.md section 4: the units are independent: an encoder step and a decoder step, in either order, lead to the
same state. -/
def Obligations.UnitStepsCommute : Prop :=
  ∀ (s : State) rest, encReady s = true → decReady s = true →
    ∃ t : State, core.run 2 ({ s with turns := .enc :: .dec :: rest } : State) = .next t ∧
      core.run 2 ({ s with turns := .dec :: .enc :: rest } : State) = .next t

/-- 20_memory.md R49: each unit answers its commands one for one and in order, and its n-th response is a function of its
first n commands since the last reset and of nothing else: in every run without reset, from a state just after reset and
whatever the order of the agents, the responses sent so far are a prefix of the answers to the commands the host sends.
What the host sends and has taken is read from the model's own lists (log 3). -/
def Obligations.ResponsesDependOnTheUnitsCommandsOnly : Prop :=
  (∀ (n : Nat) (s t : State), NoReset s → core.run n s = .next t →
    s.encHalt = false → s.decHalt = false → s.encCmdQ = [] → s.decCmdQ = [] → s.encRspQ = [] → s.decRspQ = [] →
    s.encTaken = [] → s.decTaken = [] →
    t.encTaken ++ t.encRspQ <+: encAnswers false (encSends s.hostMoves) ∧
    t.decTaken ++ t.decRspQ <+: decAnswers s.cfg false (decSends s.hostMoves)) ∧
  (∀ halt (ws : List EncWord) n, (encAnswers halt ws).take n = encAnswers halt (ws.take n)) ∧
  (∀ cfg halt (ws : List DecWord) n, (decAnswers cfg halt ws).take n = decAnswers cfg halt (ws.take n))

/-- 20_memory.md section 4, as an invariant: in every run without reset the whole history of each unit's responses (taken,
waiting and still to come) is the same after as before, whatever the order of the agents. -/
def Obligations.ResponseHistoryIsInvariant : Prop :=
  ∀ (n : Nat) (s t : State), NoReset s → core.run n s = .next t → encHistory t = encHistory s ∧ decHistory t = decHistory s

/-- The invariant holds at reset. -/
def Obligations.ResetStateMeetsTheInvariant : Prop := Inv State.reset

/-- Every step keeps the invariant: the channels stay within their depths, which stay at least 1, and every response
waiting or taken is a word the formats of 30_encoding.md section 3 allow. -/
def Obligations.EveryStepKeepsTheInvariant : Prop :=
  ∀ s t : State, Inv s → step s = .next t → Inv t

/-! ## Whole buffers -/

/-- 30_encoding.md R76: the expansions of ENCODE and DECODE: full groups first, all with LAST = 0, then one final command
with LAST = 1 for the last 1 to 3 bytes or 1 to 4 symbols; END for an empty buffer; together they carry the buffer. -/
def Obligations.PseudoInstructionsCarryTheBuffer : Prop :=
  (∀ np, expandEncode np [] = [.encEnd]) ∧ expandDecode [] = [.decEnd] ∧
  (∀ (np : Bool) (buf : List Byte), buf ≠ [] → ∃ full final, expandEncode np buf = full ++ [final] ∧
    full.length = (buf.length - 1) / 3 ∧ (∀ i ∈ full, ∃ a b c, i = .enc3 false false a b c) ∧
    (∀ k < full.length, (full[k]?).map Instr.lanes = some ((buf.drop (3 * k)).take 3)) ∧
    (let left := buf.drop (3 * full.length)
     (∃ a, left = [a] ∧ final = .enc1 true np a) ∨ (∃ a b, left = [a, b] ∧ final = .enc2 true np a b) ∨
     (∃ a b c, left = [a, b, c] ∧ final = .enc3 true np a b c))) ∧
  (∀ txt : List Byte, txt ≠ [] → ∃ full final, expandDecode txt = full ++ [final] ∧
    full.length = (txt.length - 1) / 4 ∧ (∀ i ∈ full, ∃ a b c d, i = .dec4 false a b c d) ∧
    (∀ k < full.length, (full[k]?).map Instr.lanes = some ((txt.drop (4 * k)).take 4)) ∧
    (let left := txt.drop (4 * full.length)
     (∃ a, left = [a] ∧ final = .dec1 true a) ∨ (∃ a b, left = [a, b] ∧ final = .dec2 true a b) ∨
     (∃ a b c, left = [a, b, c] ∧ final = .dec3 true a b c) ∨ (∃ a b c d, left = [a, b, c, d] ∧ final = .dec4 true a b c d)))

/-- 41_encode.md R130: a whole ENCODE, run to its end by a unit that is not halted: the length of the text with and without
padding, its trailing `=`, every code in the alphabet or `=`, no DISC and no ERR_CMD in any response, and the unit not
halted after it. Here the whole stream is on the channel at once; EncodeBufferLawsAtAnyPace says it for every depth. -/
def Obligations.EncodeBufferLaws : Prop :=
  ∀ (np : Bool) (buf : List Byte) (s : State), EncodeBench np buf s →
    ∃ t : State, core.run s.encCmdQ.length s = .next t ∧ t.encCmdQ = [] ∧ t.encHalt = false ∧
      t.encRspQ.length = s.encCmdQ.length ∧
      (∀ r ∈ t.encRspQ, r[36] = false ∧ r[37] = false) ∧
      (let n := buf.length
       let txt := encText t.encRspQ
       let pads := if np then 0 else (3 - n % 3) % 3
       txt.length = (if np then 4 * (n / 3) + (if n % 3 = 0 then 0 else n % 3 + 1) else 4 * ((n + 2) / 3)) ∧
       ∃ body, txt = body ++ List.replicate pads padc ∧ ∀ c ∈ body, c ∈ alpha ∧ c ≠ padc)

/-- 42_decode.md R168 and the padded law of its section 6: decoding the padded encoding of any buffer gives the buffer back
under every configuration, with resultSize its length, no ERR bit in any response, and the unit not halted. Here each
stream is on its channel at once; RoundTripAtAnyPace says it for every depth. -/
def Obligations.PaddedRoundTripReturnsTheBuffer : Prop :=
  ∀ (buf txt : List Byte) (u : State), EncodesTo false buf txt → DecodeBench txt u →
    ∃ v : State, core.run u.decCmdQ.length u = .next v ∧ decBytes v.decRspQ = buf ∧ resultSize v.decRspQ = buf.length ∧
      (∀ r ∈ v.decRspQ, decErrCount r = 0) ∧ v.decCmdQ = [] ∧ v.decHalt = false

/-- 42_decode.md section 6: decoding the unpadded encoding of any buffer under EXACT gives the buffer back; under STRICT the
last response is ERR_LEN where the length is no multiple of 3; under REFERENCE one byte 0x00 follows the buffer there. Here
each stream is on its channel at once; RoundTripAtAnyPace says it for every depth. -/
def Obligations.UnpaddedRoundTripByTailPolicy : Prop :=
  ∀ (buf txt : List Byte) (u : State), EncodesTo true buf txt → DecodeBench txt u →
    ∃ v : State, core.run u.decCmdQ.length u = .next v ∧ v.decCmdQ = [] ∧ v.decHalt = false ∧
      (u.cfg.tailPolicy = .exactTail → decBytes v.decRspQ = buf) ∧
      (u.cfg.tailPolicy = .strictTail → buf.length % 3 ≠ 0 → ∃ r, v.decRspQ.getLast? = some r ∧ r[31] = true) ∧
      (u.cfg.tailPolicy = .referenceTail → decBytes v.decRspQ = buf ++ (if buf.length % 3 = 0 then [] else [0x00]))

/-- 42_decode.md R170: the resultSize of a text of m symbols with no ERR response: unpadded under REFERENCE and under EXACT,
and with a final group `xx==` or `xxx=` under any configuration. An unpadded text with m mod 4 = 1 is ERR_LEN under EXACT.
Here the whole stream is on the channel at once; DecodedSizeLawAtAnyPace says it for every depth. -/
def Obligations.DecodedSizeLaw : Prop :=
  ∀ (body : List Byte) (pads : Nat) (u : State), (∀ c ∈ body, ∃ v, lookup c = .valid v) →
    DecodeBench (body ++ List.replicate pads padc) u →
    let m := body.length + pads
    ∃ v : State, core.run u.decCmdQ.length u = .next v ∧
      (pads = 0 → u.cfg.tailPolicy = .referenceTail →
        resultSize v.decRspQ = 3 * (m / 4) + m % 4 ∧ resultSize v.decRspQ = (3 * m + 3) / 4) ∧
      (pads = 0 → u.cfg.tailPolicy = .exactTail → m % 4 ≠ 1 →
        resultSize v.decRspQ = 3 * (m / 4) + (if m % 4 = 0 then 0 else m % 4 - 1)) ∧
      (pads = 0 → u.cfg.tailPolicy = .exactTail → m % 4 = 1 →
        ∃ r, v.decRspQ.getLast? = some r ∧ r[31] = true) ∧
      (pads = 2 → m % 4 = 0 → resultSize v.decRspQ = 3 * (m / 4) - 2) ∧
      (pads = 1 → m % 4 = 0 → resultSize v.decRspQ = 3 * (m / 4) - 1)

/-- 41_encode.md section 4, for a stream of any length on channels of any depth, at any pace of the host and in any order of
the agents: the laws of R130 hold of the responses as the host reads them. The host's lists are the model's own (log 3). -/
def Obligations.EncodeBufferLawsAtAnyPace : Prop :=
  ∀ (np : Bool) (buf : List Byte) (k : Nat) (s t : State) rs, EncodedAtAnyPace np buf k s t rs →
    t.encHalt = false ∧ t.encCmdQ = [] ∧ (∀ r ∈ rs, r[36] = false ∧ r[37] = false) ∧
    (let n := buf.length
     let txt := encText rs
     let pads := if np then 0 else (3 - n % 3) % 3
     txt.length = (if np then 4 * (n / 3) + (if n % 3 = 0 then 0 else n % 3 + 1) else 4 * ((n + 2) / 3)) ∧
     ∃ body, txt = body ++ List.replicate pads padc ∧ ∀ c ∈ body, c ∈ alpha ∧ c ≠ padc)

/-- 42_decode.md section 6, the four round-trip laws, for streams of any length on channels of any depth, at any pace of the
host and in any order of the agents. The host's lists are the model's own (log 3). -/
def Obligations.RoundTripAtAnyPace : Prop :=
  ∀ (np : Bool) (buf : List Byte) (k m : Nat) (s t u v : State) rs ds, EncodedAtAnyPace np buf k s t rs →
    DecodedAtAnyPace (encText rs) m u v ds → v.decHalt = false ∧
    (np = false → decBytes ds = buf ∧ resultSize ds = buf.length ∧ ∀ r ∈ ds, decErrCount r = 0) ∧
    (np = true → u.cfg.tailPolicy = .exactTail → decBytes ds = buf) ∧
    (np = true → u.cfg.tailPolicy = .strictTail → buf.length % 3 ≠ 0 → ∃ r, ds.getLast? = some r ∧ r[31] = true) ∧
    (np = true → u.cfg.tailPolicy = .referenceTail →
      decBytes ds = buf ++ (if buf.length % 3 = 0 then [] else [0x00]))

/-- 42_decode.md section 6, the size law, for a text of any length on a channel of any depth, at any pace of the host and in
any order of the agents. The host's lists are the model's own (log 3). -/
def Obligations.DecodedSizeLawAtAnyPace : Prop :=
  ∀ (body : List Byte) (pads k : Nat) (u v : State) ds, (∀ c ∈ body, ∃ x, lookup c = .valid x) →
    DecodedAtAnyPace (body ++ List.replicate pads padc) k u v ds →
    let m := body.length + pads
    (pads = 0 → u.cfg.tailPolicy = .referenceTail →
      resultSize ds = 3 * (m / 4) + m % 4 ∧ resultSize ds = (3 * m + 3) / 4) ∧
    (pads = 0 → u.cfg.tailPolicy = .exactTail → m % 4 ≠ 1 →
      resultSize ds = 3 * (m / 4) + (if m % 4 = 0 then 0 else m % 4 - 1)) ∧
    (pads = 0 → u.cfg.tailPolicy = .exactTail → m % 4 = 1 → ∃ r, ds.getLast? = some r ∧ r[31] = true) ∧
    (pads = 2 → m % 4 = 0 → resultSize ds = 3 * (m / 4) - 2) ∧
    (pads = 1 → m % 4 = 0 → resultSize ds = 3 * (m / 4) - 1)

/-! ## Malformed words in a step -/

/-- 41_encode.md section 1 and 42_decode.md section 1: where it is a unit's turn and its oldest word is malformed, the step
answers ERR_CMD alone: no halt bit and no other channel changes. That the turn is passed on is the model's own (log 2). -/
def Obligations.StepAnswersAMalformedCommand : Prop :=
  (∀ (s : State) (w : EncWord) rest e, nextAgent s = some .enc → s.encCmdQ = w :: rest → decodeEnc w = .error e →
    step s = .next { s with
      encCmdQ := rest, encRspQ := s.encRspQ ++ [0x2000000000], turns := s.turns.tail, moves := s.moves + 1 }) ∧
  (∀ (s : State) (w : DecWord) rest e, nextAgent s = some .dec → s.decCmdQ = w :: rest → decodeDec w = .error e →
    step s = .next { s with
      decCmdQ := rest, decRspQ := s.decRspQ ++ [0x0400000000], turns := s.turns.tail, moves := s.moves + 1 })
end

