-- ==== Sys2Proof/Laws/Encoding.lean ====
section
/-! SUPPORT. The words of the interface as numbers, and the fields read back from them: one lemma per word format
(30_encoding.md R61, R63, R65, R67) and one for pack (42_decode.md R152). With these a goal about fields of words is one
for omega. -/

namespace Sys2Proof

/-! ## Bits and concatenations as numbers -/

theorem append_toNat {m n : Nat} (a : BitVec m) (b : BitVec n) : (a ++ b).toNat = a.toNat * 2 ^ n + b.toNat := by
  rw [BitVec.toNat_append, ← Nat.shiftLeft_add_eq_or_of_lt b.isLt, Nat.shiftLeft_eq]

theorem getElem_eq_decide {n : Nat} (w : BitVec n) (k : Nat) (h : k < n) :
    w[k] = decide (w.toNat / 2 ^ k % 2 = 1) := by
  rw [BitVec.getElem_eq_testBit_toNat, Nat.testBit_eq_decide_div_mod_eq]

theorem toNat_decide (p : Prop) [Decidable p] : (decide p).toNat = if p then 1 else 0 := by
  by_cases h : p <;> simp [h]

theorem zero_toNat (n : Nat) : (0 : BitVec n).toNat = 0 := rfl

theorem slice_toNat {n : Nat} (w : BitVec n) (lo len : Nat) :
    (w.extractLsb' lo len).toNat = w.toNat / 2 ^ lo % 2 ^ len := by
  rw [BitVec.extractLsb'_toNat, Nat.shiftRight_eq_div_pow]

/-- A slice of a slice is a slice. -/
theorem slice_slice {n : Nat} (w : BitVec n) (a b c d : Nat) (h : c + d ≤ b) :
    (w.extractLsb' a b).extractLsb' c d = w.extractLsb' (a + c) d := by
  rw [← BitVec.toNat_inj]
  simp only [slice_toNat]
  rw [Nat.pow_add, ← Nat.div_div_eq_div_mul, show b = c + (b - c) by omega, Nat.pow_add 2 c,
    Nat.mod_mul_right_div_self, Nat.mod_mod_of_dvd _ (Nat.pow_dvd_pow 2 (by omega))]

/-! ## Command words -/

theorem encWordOf_toNat (c : EncCmd) : (encWordOf c).toNat =
    c.rsvd.toNat * 2 ^ 28 + c.last.toNat * 2 ^ 27 + c.pd.toNat * 2 ^ 26 + c.cnt.toNat * 2 ^ 24
      + c.b0.toNat * 2 ^ 16 + c.b1.toNat * 2 ^ 8 + c.b2.toNat := by
  change BitVec.toNat (w := 4 + 1 + 1 + 2 + 8 + 8 + 8)
    (c.rsvd ++ BitVec.ofBool c.last ++ BitVec.ofBool c.pd ++ c.cnt ++ c.b0 ++ c.b1 ++ c.b2) = _
  simp only [append_toNat, BitVec.toNat_ofBool]
  omega

theorem decWordOf_toNat (c : DecCmd) : (decWordOf c).toNat =
    c.rsvd.toNat * 2 ^ 36 + c.last.toNat * 2 ^ 35 + c.cnt.toNat * 2 ^ 32
      + c.s1.toNat * 2 ^ 24 + c.s2.toNat * 2 ^ 16 + c.s3.toNat * 2 ^ 8 + c.s4.toNat := by
  change BitVec.toNat (w := 4 + 1 + 3 + 8 + 8 + 8 + 8)
    (c.rsvd ++ BitVec.ofBool c.last ++ c.cnt ++ c.s1 ++ c.s2 ++ c.s3 ++ c.s4) = _
  simp only [append_toNat, BitVec.toNat_ofBool]
  omega

/-- Reading the fields of a built ENC_CMD word gives the fields it was built from. -/
theorem encFields_encWordOf (c : EncCmd) : encFields (encWordOf c) = c := by
  have h := encWordOf_toNat c
  obtain ⟨rsvd, last, pd, cnt, b0, b1, b2⟩ := c
  have := rsvd.isLt
  have := cnt.isLt
  have := b0.isLt
  have := b1.isLt
  have := b2.isLt
  simp only [encFields, EncCmd.mk.injEq, ← BitVec.toNat_inj, slice_toNat, getElem_eq_decide, h]
  refine ⟨?_, ?_, ?_, ?_, ?_, ?_, ?_⟩ <;> cases last <;> cases pd <;> simp at * <;> omega

/-- Reading the fields of a built DEC_CMD word gives the fields it was built from. -/
theorem decFields_decWordOf (c : DecCmd) : decFields (decWordOf c) = c := by
  have h := decWordOf_toNat c
  obtain ⟨rsvd, last, cnt, s1, s2, s3, s4⟩ := c
  have := rsvd.isLt
  have := cnt.isLt
  have := s1.isLt
  have := s2.isLt
  have := s3.isLt
  have := s4.isLt
  simp only [decFields, DecCmd.mk.injEq, ← BitVec.toNat_inj, slice_toNat, getElem_eq_decide, h]
  refine ⟨?_, ?_, ?_, ?_, ?_, ?_, ?_⟩ <;> cases last <;> simp at * <;> omega

/-- Building an ENC_CMD word from the fields read from a word gives the word. -/
theorem encWordOf_encFields (w : EncWord) : encWordOf (encFields w) = w := by
  have := w.isLt
  rw [← BitVec.toNat_inj, encWordOf_toNat]
  simp only [encFields, slice_toNat, getElem_eq_decide, toNat_decide]
  split_ifs <;> omega

/-- Building a DEC_CMD word from the fields read from a word gives the word. -/
theorem decWordOf_decFields (w : DecWord) : decWordOf (decFields w) = w := by
  have := w.isLt
  rw [← BitVec.toNat_inj, decWordOf_toNat]
  simp only [decFields, slice_toNat, getElem_eq_decide, toNat_decide]
  split_ifs <;> omega

namespace Machine

/-! ## Response words -/

theorem encRspWord_toNat (r : EncRsp) : (encRspWord r).toNat =
    r.errCmd.toNat * 2 ^ 37 + r.disc.toNat * 2 ^ 36 + r.last.toNat * 2 ^ 35 + r.n.toNat * 2 ^ 32
      + r.o1.toNat * 2 ^ 24 + r.o2.toNat * 2 ^ 16 + r.o3.toNat * 2 ^ 8 + r.o4.toNat := by
  change BitVec.toNat (w := 2 + 1 + 1 + 1 + 3 + 8 + 8 + 8 + 8)
    ((0 : BitVec 2) ++ BitVec.ofBool r.errCmd ++ BitVec.ofBool r.disc ++ BitVec.ofBool r.last ++ r.n
      ++ r.o1 ++ r.o2 ++ r.o3 ++ r.o4) = _
  simp only [append_toNat, BitVec.toNat_ofBool, zero_toNat]
  omega

theorem decRspWord_toNat (r : DecRsp) : (decRspWord r).toNat =
    r.errCmd.toNat * 2 ^ 34 + r.epos.toNat * 2 ^ 32 + r.errLen.toNat * 2 ^ 31 + r.errPad.toNat * 2 ^ 30
      + r.errInv.toNat * 2 ^ 29 + r.disc.toNat * 2 ^ 28 + r.term.toNat * 2 ^ 27 + r.last.toNat * 2 ^ 26
      + r.n.toNat * 2 ^ 24 + r.d0.toNat * 2 ^ 16 + r.d1.toNat * 2 ^ 8 + r.d2.toNat := by
  change BitVec.toNat (w := 5 + 1 + 2 + 1 + 1 + 1 + 1 + 1 + 1 + 2 + 8 + 8 + 8)
    ((0 : BitVec 5) ++ BitVec.ofBool r.errCmd ++ r.epos ++ BitVec.ofBool r.errLen ++ BitVec.ofBool r.errPad
      ++ BitVec.ofBool r.errInv ++ BitVec.ofBool r.disc ++ BitVec.ofBool r.term ++ BitVec.ofBool r.last ++ r.n
      ++ r.d0 ++ r.d1 ++ r.d2) = _
  simp only [append_toNat, BitVec.toNat_ofBool, zero_toNat]
  omega

/-- Every field of a built ENC_RSP word, read back. -/
theorem encRspWord_fields (r : EncRsp) :
    (encRspWord r).extractLsb' 38 2 = 0 ∧ (encRspWord r)[37] = r.errCmd ∧ (encRspWord r)[36] = r.disc ∧
    (encRspWord r)[35] = r.last ∧ encRspCount (encRspWord r) = r.n.toNat ∧
    encRspLanes (encRspWord r) = [r.o1, r.o2, r.o3, r.o4] := by
  have h := encRspWord_toNat r
  obtain ⟨errCmd, disc, last, n, o1, o2, o3, o4⟩ := r
  have := n.isLt
  have := o1.isLt
  have := o2.isLt
  have := o3.isLt
  have := o4.isLt
  have b1 := Bool.toNat_le errCmd
  have b2 := Bool.toNat_le disc
  have b3 := Bool.toNat_le last
  simp only [encRspCount, encRspLanes, List.cons.injEq, and_true, ← BitVec.toNat_inj, slice_toNat,
    getElem_eq_decide, h]
  refine ⟨?_, ?_, ?_, ?_, ?_, ?_, ?_, ?_, ?_⟩
  case refine_2 => cases errCmd <;> simp at * <;> omega
  case refine_3 => cases disc <;> simp at * <;> omega
  case refine_4 => cases last <;> simp at * <;> omega
  case refine_1 => rw [zero_toNat]; omega
  all_goals omega

/-- Every field of a built DEC_RSP word, read back. -/
theorem decRspWord_fields (r : DecRsp) :
    (decRspWord r).extractLsb' 35 5 = 0 ∧ (decRspWord r)[34] = r.errCmd ∧
    (decRspWord r).extractLsb' 32 2 = r.epos ∧ (decRspWord r)[31] = r.errLen ∧
    (decRspWord r)[30] = r.errPad ∧ (decRspWord r)[29] = r.errInv ∧
    (decRspWord r)[28] = r.disc ∧ (decRspWord r)[27] = r.term ∧ (decRspWord r)[26] = r.last ∧
    decRspCount (decRspWord r) = r.n.toNat ∧ decRspLanes (decRspWord r) = [r.d0, r.d1, r.d2] := by
  have h := decRspWord_toNat r
  obtain ⟨errCmd, epos, errLen, errPad, errInv, disc, term, last, n, d0, d1, d2⟩ := r
  have := epos.isLt
  have := n.isLt
  have := d0.isLt
  have := d1.isLt
  have := d2.isLt
  have b1 := Bool.toNat_le errCmd
  have b2 := Bool.toNat_le errLen
  have b3 := Bool.toNat_le errPad
  have b4 := Bool.toNat_le errInv
  have b5 := Bool.toNat_le disc
  have b6 := Bool.toNat_le term
  have b7 := Bool.toNat_le last
  simp only [decRspCount, decRspLanes, List.cons.injEq, and_true, ← BitVec.toNat_inj, slice_toNat,
    getElem_eq_decide, h]
  refine ⟨?_, ?_, ?_, ?_, ?_, ?_, ?_, ?_, ?_, ?_, ?_, ?_, ?_⟩
  case refine_2 => cases errCmd <;> simp at * <;> omega
  case refine_4 => cases errLen <;> simp at * <;> omega
  case refine_5 => cases errPad <;> simp at * <;> omega
  case refine_6 => cases errInv <;> simp at * <;> omega
  case refine_7 => cases disc <;> simp at * <;> omega
  case refine_8 => cases term <;> simp at * <;> omega
  case refine_9 => cases last <;> simp at * <;> omega
  case refine_1 => rw [zero_toNat]; omega
  all_goals omega

/-! ## Groups -/

theorem group_toNat (b0 b1 b2 : Byte) : (group b0 b1 b2).toNat = b0.toNat * 2 ^ 16 + b1.toNat * 2 ^ 8 + b2.toNat := by
  change BitVec.toNat (w := 8 + 8 + 8) (b0 ++ b1 ++ b2) = _
  simp only [append_toNat]
  omega

/-- The three packed bytes as numbers. -/
theorem pack_toNat (v1 v2 v3 v4 : Sextet) :
    (pack v1 v2 v3 v4).1.toNat = v1.toNat * 4 + v2.toNat / 16 ∧
    (pack v1 v2 v3 v4).2.1.toNat = v2.toNat % 16 * 16 + v3.toNat / 4 ∧
    (pack v1 v2 v3 v4).2.2.toNat = v3.toNat % 4 * 64 + v4.toNat := by
  have := v1.isLt
  have := v2.isLt
  have := v3.isLt
  have := v4.isLt
  refine ⟨?_, ?_, ?_⟩
  · change BitVec.toNat (w := 6 + 2) (v1 ++ v2.extractLsb' 4 2) = _
    rw [append_toNat, slice_toNat]
    omega
  · change BitVec.toNat (w := 4 + 4) (v2.extractLsb' 0 4 ++ v3.extractLsb' 2 4) = _
    rw [append_toNat, slice_toNat, slice_toNat]
    omega
  · change BitVec.toNat (w := 2 + 6) (v3.extractLsb' 0 2 ++ v4) = _
    rw [append_toNat, slice_toNat]
    omega

end Machine

end Sys2Proof
end

