-- ==== Sys2Proof/Laws/State.lean ====
section
/-! SUPPORT. One lemma per field per named update of State, true by rfl, so that no proof unfolds a record update. -/

namespace Sys2Proof.Machine

variable (s : State)

/-! sendEncRsp -/

@[simp] theorem sendEncRsp_encHalt (w : RspWord) : (sendEncRsp w s).encHalt = s.encHalt := rfl
@[simp] theorem sendEncRsp_decHalt (w : RspWord) : (sendEncRsp w s).decHalt = s.decHalt := rfl
@[simp] theorem sendEncRsp_encCmdQ (w : RspWord) : (sendEncRsp w s).encCmdQ = s.encCmdQ := rfl
@[simp] theorem sendEncRsp_encRspQ (w : RspWord) : (sendEncRsp w s).encRspQ = s.encRspQ ++ [w] := rfl
@[simp] theorem sendEncRsp_decCmdQ (w : RspWord) : (sendEncRsp w s).decCmdQ = s.decCmdQ := rfl
@[simp] theorem sendEncRsp_decRspQ (w : RspWord) : (sendEncRsp w s).decRspQ = s.decRspQ := rfl
@[simp] theorem sendEncRsp_cfg (w : RspWord) : (sendEncRsp w s).cfg = s.cfg := rfl
@[simp] theorem sendEncRsp_hostMoves (w : RspWord) : (sendEncRsp w s).hostMoves = s.hostMoves := rfl
@[simp] theorem sendEncRsp_encTaken (w : RspWord) : (sendEncRsp w s).encTaken = s.encTaken := rfl
@[simp] theorem sendEncRsp_decTaken (w : RspWord) : (sendEncRsp w s).decTaken = s.decTaken := rfl
@[simp] theorem sendEncRsp_turns (w : RspWord) : (sendEncRsp w s).turns = s.turns := rfl
@[simp] theorem sendEncRsp_moves (w : RspWord) : (sendEncRsp w s).moves = s.moves := rfl

/-! sendDecRsp -/

@[simp] theorem sendDecRsp_encHalt (w : RspWord) : (sendDecRsp w s).encHalt = s.encHalt := rfl
@[simp] theorem sendDecRsp_decHalt (w : RspWord) : (sendDecRsp w s).decHalt = s.decHalt := rfl
@[simp] theorem sendDecRsp_encCmdQ (w : RspWord) : (sendDecRsp w s).encCmdQ = s.encCmdQ := rfl
@[simp] theorem sendDecRsp_encRspQ (w : RspWord) : (sendDecRsp w s).encRspQ = s.encRspQ := rfl
@[simp] theorem sendDecRsp_decCmdQ (w : RspWord) : (sendDecRsp w s).decCmdQ = s.decCmdQ := rfl
@[simp] theorem sendDecRsp_decRspQ (w : RspWord) : (sendDecRsp w s).decRspQ = s.decRspQ ++ [w] := rfl
@[simp] theorem sendDecRsp_cfg (w : RspWord) : (sendDecRsp w s).cfg = s.cfg := rfl
@[simp] theorem sendDecRsp_hostMoves (w : RspWord) : (sendDecRsp w s).hostMoves = s.hostMoves := rfl
@[simp] theorem sendDecRsp_encTaken (w : RspWord) : (sendDecRsp w s).encTaken = s.encTaken := rfl
@[simp] theorem sendDecRsp_decTaken (w : RspWord) : (sendDecRsp w s).decTaken = s.decTaken := rfl
@[simp] theorem sendDecRsp_turns (w : RspWord) : (sendDecRsp w s).turns = s.turns := rfl
@[simp] theorem sendDecRsp_moves (w : RspWord) : (sendDecRsp w s).moves = s.moves := rfl

/-! setEncHalt -/

@[simp] theorem setEncHalt_encHalt (h : Bool) : (setEncHalt h s).encHalt = h := rfl
@[simp] theorem setEncHalt_decHalt (h : Bool) : (setEncHalt h s).decHalt = s.decHalt := rfl
@[simp] theorem setEncHalt_encCmdQ (h : Bool) : (setEncHalt h s).encCmdQ = s.encCmdQ := rfl
@[simp] theorem setEncHalt_encRspQ (h : Bool) : (setEncHalt h s).encRspQ = s.encRspQ := rfl
@[simp] theorem setEncHalt_decCmdQ (h : Bool) : (setEncHalt h s).decCmdQ = s.decCmdQ := rfl
@[simp] theorem setEncHalt_decRspQ (h : Bool) : (setEncHalt h s).decRspQ = s.decRspQ := rfl
@[simp] theorem setEncHalt_cfg (h : Bool) : (setEncHalt h s).cfg = s.cfg := rfl
@[simp] theorem setEncHalt_hostMoves (h : Bool) : (setEncHalt h s).hostMoves = s.hostMoves := rfl
@[simp] theorem setEncHalt_encTaken (h : Bool) : (setEncHalt h s).encTaken = s.encTaken := rfl
@[simp] theorem setEncHalt_decTaken (h : Bool) : (setEncHalt h s).decTaken = s.decTaken := rfl
@[simp] theorem setEncHalt_turns (h : Bool) : (setEncHalt h s).turns = s.turns := rfl
@[simp] theorem setEncHalt_moves (h : Bool) : (setEncHalt h s).moves = s.moves := rfl

/-! setDecHalt -/

@[simp] theorem setDecHalt_encHalt (h : Bool) : (setDecHalt h s).encHalt = s.encHalt := rfl
@[simp] theorem setDecHalt_decHalt (h : Bool) : (setDecHalt h s).decHalt = h := rfl
@[simp] theorem setDecHalt_encCmdQ (h : Bool) : (setDecHalt h s).encCmdQ = s.encCmdQ := rfl
@[simp] theorem setDecHalt_encRspQ (h : Bool) : (setDecHalt h s).encRspQ = s.encRspQ := rfl
@[simp] theorem setDecHalt_decCmdQ (h : Bool) : (setDecHalt h s).decCmdQ = s.decCmdQ := rfl
@[simp] theorem setDecHalt_decRspQ (h : Bool) : (setDecHalt h s).decRspQ = s.decRspQ := rfl
@[simp] theorem setDecHalt_cfg (h : Bool) : (setDecHalt h s).cfg = s.cfg := rfl
@[simp] theorem setDecHalt_hostMoves (h : Bool) : (setDecHalt h s).hostMoves = s.hostMoves := rfl
@[simp] theorem setDecHalt_encTaken (h : Bool) : (setDecHalt h s).encTaken = s.encTaken := rfl
@[simp] theorem setDecHalt_decTaken (h : Bool) : (setDecHalt h s).decTaken = s.decTaken := rfl
@[simp] theorem setDecHalt_turns (h : Bool) : (setDecHalt h s).turns = s.turns := rfl
@[simp] theorem setDecHalt_moves (h : Bool) : (setDecHalt h s).moves = s.moves := rfl

/-! passTurn -/

@[simp] theorem passTurn_encHalt : (passTurn s).encHalt = s.encHalt := rfl
@[simp] theorem passTurn_decHalt : (passTurn s).decHalt = s.decHalt := rfl
@[simp] theorem passTurn_encCmdQ : (passTurn s).encCmdQ = s.encCmdQ := rfl
@[simp] theorem passTurn_encRspQ : (passTurn s).encRspQ = s.encRspQ := rfl
@[simp] theorem passTurn_decCmdQ : (passTurn s).decCmdQ = s.decCmdQ := rfl
@[simp] theorem passTurn_decRspQ : (passTurn s).decRspQ = s.decRspQ := rfl
@[simp] theorem passTurn_cfg : (passTurn s).cfg = s.cfg := rfl
@[simp] theorem passTurn_hostMoves : (passTurn s).hostMoves = s.hostMoves := rfl
@[simp] theorem passTurn_encTaken : (passTurn s).encTaken = s.encTaken := rfl
@[simp] theorem passTurn_decTaken : (passTurn s).decTaken = s.decTaken := rfl
@[simp] theorem passTurn_turns : (passTurn s).turns = s.turns.tail := rfl
@[simp] theorem passTurn_moves : (passTurn s).moves = s.moves + 1 := rfl

/-! resetEvent -/

@[simp] theorem resetEvent_encHalt (c : Bool) (p : TailPolicy) : (resetEvent c p s).encHalt = false := rfl
@[simp] theorem resetEvent_decHalt (c : Bool) (p : TailPolicy) : (resetEvent c p s).decHalt = false := rfl
@[simp] theorem resetEvent_encCmdQ (c : Bool) (p : TailPolicy) : (resetEvent c p s).encCmdQ = [] := rfl
@[simp] theorem resetEvent_encRspQ (c : Bool) (p : TailPolicy) : (resetEvent c p s).encRspQ = [] := rfl
@[simp] theorem resetEvent_decCmdQ (c : Bool) (p : TailPolicy) : (resetEvent c p s).decCmdQ = [] := rfl
@[simp] theorem resetEvent_decRspQ (c : Bool) (p : TailPolicy) : (resetEvent c p s).decRspQ = [] := rfl
@[simp] theorem resetEvent_cfg (c : Bool) (p : TailPolicy) :
    (resetEvent c p s).cfg = { s.cfg with compatInvalid := c, tailPolicy := p } := rfl
@[simp] theorem resetEvent_hostMoves (c : Bool) (p : TailPolicy) : (resetEvent c p s).hostMoves = s.hostMoves := rfl
@[simp] theorem resetEvent_encTaken (c : Bool) (p : TailPolicy) : (resetEvent c p s).encTaken = s.encTaken := rfl
@[simp] theorem resetEvent_decTaken (c : Bool) (p : TailPolicy) : (resetEvent c p s).decTaken = s.decTaken := rfl
@[simp] theorem resetEvent_turns (c : Bool) (p : TailPolicy) : (resetEvent c p s).turns = s.turns := rfl
@[simp] theorem resetEvent_moves (c : Bool) (p : TailPolicy) : (resetEvent c p s).moves = s.moves := rfl

/-! placeEnc -/

@[simp] theorem placeEnc_encHalt (w : EncWord) : (placeEnc w s).encHalt = s.encHalt := rfl
@[simp] theorem placeEnc_decHalt (w : EncWord) : (placeEnc w s).decHalt = s.decHalt := rfl
@[simp] theorem placeEnc_encCmdQ (w : EncWord) : (placeEnc w s).encCmdQ = w :: s.encCmdQ.tail := rfl
@[simp] theorem placeEnc_encRspQ (w : EncWord) :
    (placeEnc w s).encRspQ = if roomIn s.encRspQ s.cfg.encDepth then s.encRspQ else [] := rfl
@[simp] theorem placeEnc_decCmdQ (w : EncWord) : (placeEnc w s).decCmdQ = s.decCmdQ := rfl
@[simp] theorem placeEnc_decRspQ (w : EncWord) : (placeEnc w s).decRspQ = s.decRspQ := rfl
@[simp] theorem placeEnc_cfg (w : EncWord) : (placeEnc w s).cfg = s.cfg := rfl
@[simp] theorem placeEnc_hostMoves (w : EncWord) : (placeEnc w s).hostMoves = s.hostMoves := rfl
@[simp] theorem placeEnc_encTaken (w : EncWord) : (placeEnc w s).encTaken = s.encTaken := rfl
@[simp] theorem placeEnc_decTaken (w : EncWord) : (placeEnc w s).decTaken = s.decTaken := rfl
@[simp] theorem placeEnc_turns (w : EncWord) : (placeEnc w s).turns = .enc :: s.turns := rfl
@[simp] theorem placeEnc_moves (w : EncWord) : (placeEnc w s).moves = s.moves := rfl

/-! placeDec -/

@[simp] theorem placeDec_encHalt (w : DecWord) : (placeDec w s).encHalt = s.encHalt := rfl
@[simp] theorem placeDec_decHalt (w : DecWord) : (placeDec w s).decHalt = s.decHalt := rfl
@[simp] theorem placeDec_encCmdQ (w : DecWord) : (placeDec w s).encCmdQ = s.encCmdQ := rfl
@[simp] theorem placeDec_encRspQ (w : DecWord) : (placeDec w s).encRspQ = s.encRspQ := rfl
@[simp] theorem placeDec_decCmdQ (w : DecWord) : (placeDec w s).decCmdQ = w :: s.decCmdQ.tail := rfl
@[simp] theorem placeDec_decRspQ (w : DecWord) :
    (placeDec w s).decRspQ = if roomIn s.decRspQ s.cfg.decDepth then s.decRspQ else [] := rfl
@[simp] theorem placeDec_cfg (w : DecWord) : (placeDec w s).cfg = s.cfg := rfl
@[simp] theorem placeDec_hostMoves (w : DecWord) : (placeDec w s).hostMoves = s.hostMoves := rfl
@[simp] theorem placeDec_encTaken (w : DecWord) : (placeDec w s).encTaken = s.encTaken := rfl
@[simp] theorem placeDec_decTaken (w : DecWord) : (placeDec w s).decTaken = s.decTaken := rfl
@[simp] theorem placeDec_turns (w : DecWord) : (placeDec w s).turns = .dec :: s.turns := rfl
@[simp] theorem placeDec_moves (w : DecWord) : (placeDec w s).moves = s.moves := rfl

end Sys2Proof.Machine
end

