-- ==== Sys2Proof/Laws/Ops.lean ====
section
/-! SUPPORT. For each shared operation, one lemma that says everything it can do. -/

namespace Sys2Proof.Machine

/-! ## Channels -/

theorem roomIn_iff {α : Type} (q : List α) (d : Nat) : roomIn q d = true ↔ q.length < d := by
  induction q generalizing d with
  | nil => cases d <;> simp [roomIn]
  | cons a q ih =>
    cases d with
    | zero => simp [roomIn]
    | succ d => simp [roomIn, ih]

/-! ## Answers of the units -/

theorem answerEnc_eq (r : EncRsp) (h : Bool) (s : State) :
    answerEnc r h s = { s with encRspQ := s.encRspQ ++ [encRspWord r], encHalt := h } := rfl

theorem answerDec_eq (r : DecRsp) (h : Bool) (s : State) :
    answerDec r h s = { s with decRspQ := s.decRspQ ++ [decRspWord r], decHalt := h } := rfl

theorem rejectEnc_eq (s : State) :
    rejectEnc s = { s with encRspQ := s.encRspQ ++ [encRspWord { errCmd := true }] } := rfl

theorem rejectDec_eq (s : State) :
    rejectDec s = { s with decRspQ := s.decRspQ ++ [decRspWord { errCmd := true }] } := rfl

/-- A legal encoder command appends one response and writes the halt bit: processed, or discarded by a halted unit. -/
theorem processEnc_eq (last ends : Bool) (r : EncRsp) (s : State) :
    processEnc last ends r s =
      if s.encHalt then
        { s with encRspQ := s.encRspQ ++ [encRspWord { disc := true, last := last }], encHalt := !last }
      else { s with encRspQ := s.encRspQ ++ [encRspWord r], encHalt := !last && ends } := by
  unfold processEnc discardEnc
  cases h : s.encHalt <;> cases last <;> simp [answerEnc_eq, haltAfter]

/-- A legal decoder group appends one response and writes the halt bit: processed, or discarded by a halted unit. -/
theorem processGroup_eq (last : Bool) (syms : List Byte) (s : State) :
    processGroup last syms s =
      if s.decHalt then
        { s with decRspQ := s.decRspQ ++ [decRspWord { disc := true, last := last }], decHalt := !last }
      else
        { s with
          decRspQ := s.decRspQ ++ [decRspWord (groupRsp last (decodeGroup s.cfg syms))]
          decHalt := !last && (decodeGroup s.cfg syms).ends } := by
  unfold processGroup discardDec
  cases h : s.decHalt <;> cases last <;> simp [answerDec_eq, haltAfter]

/-- Every encoder command answers a next state that differs only in the encoder's response channel and halt bit. -/
theorem exec_enc_shape (i : Instr) (s : State) (hi : i.agent = .enc) :
    ∃ w h, exec i s = .next { s with encRspQ := s.encRspQ ++ [w], encHalt := h } := by
  cases hh : s.encHalt <;> cases i <;>
    simp [Instr.agent] at hi <;>
    simp [exec, execEncEnd, execEnc1, execEnc2, execEnc3, processEnc_eq, hh]

/-- Every decoder command answers a next state that differs only in the decoder's response channel and halt bit. -/
theorem exec_dec_shape (i : Instr) (s : State) (hi : i.agent = .dec) :
    ∃ w h, exec i s = .next { s with decRspQ := s.decRspQ ++ [w], decHalt := h } := by
  cases i with
  | decEnd =>
    cases h : s.decHalt
    · exact ⟨decRspWord rspDecEnd, false, by simp [exec, execDecEnd, sendDecRsp, h]⟩
    · exact ⟨decRspWord { disc := true, last := true }, false, by simp [exec, execDecEnd, discardDec, answerDec_eq, h]⟩
  | dec1 last s1 =>
    cases hh : s.decHalt <;> simp [exec, execDec1, processGroup_eq, hh]
  | dec2 last s1 s2 =>
    cases hh : s.decHalt <;> simp [exec, execDec2, processGroup_eq, hh]
  | dec3 last s1 s2 s3 =>
    cases hh : s.decHalt <;> simp [exec, execDec3, processGroup_eq, hh]
  | dec4 last s1 s2 s3 s4 =>
    cases hh : s.decHalt <;> simp [exec, execDec4, processGroup_eq, hh]
  | encEnd => simp [Instr.agent] at hi
  | enc1 last pd b0 => simp [Instr.agent] at hi
  | enc2 last pd b0 b1 => simp [Instr.agent] at hi
  | enc3 last pd b0 b1 b2 => simp [Instr.agent] at hi

/-- The encoder's channel carries only encoder commands. -/
theorem decodeEnc_agent {w : EncWord} {i : Instr} (h : decodeEnc w = .ok i) : i.agent = .enc := by
  simp only [decodeEnc] at h
  split at h <;> try (cases h)
  split at h
  · split at h <;> cases h
    rfl
  · split at h
    · cases h; rfl
    · split at h <;> cases h <;> rfl

/-- The decoder's channel carries only decoder commands. -/
theorem decodeDec_agent {w : DecWord} {i : Instr} (h : decodeDec w = .ok i) : i.agent = .dec := by
  simp only [decodeDec] at h
  split at h <;> try (cases h)
  split at h
  · split at h <;> cases h
    rfl
  · split at h
    · cases h; rfl
    · split at h
      · cases h; rfl
      · split at h
        · cases h; rfl
        · split at h <;> cases h
          rfl

/-- The encoder's step: nothing without a command, else one command taken, one response sent, the halt bit written. -/
theorem stepEnc_shape (s : State) :
    (s.encCmdQ = [] ∧ stepEnc s = .next s) ∨
      ∃ w rest r h, s.encCmdQ = w :: rest ∧
        stepEnc s = .next { s with encCmdQ := rest, encRspQ := s.encRspQ ++ [r], encHalt := h } := by
  cases hq : s.encCmdQ with
  | nil => exact .inl ⟨rfl, by simp [stepEnc, hq]⟩
  | cons w rest =>
    refine .inr ?_
    cases hd : decodeEnc w with
    | ok i =>
      obtain ⟨r, h, he⟩ := exec_enc_shape i { s with encCmdQ := rest } (decodeEnc_agent hd)
      exact ⟨w, rest, r, h, rfl, by simp [stepEnc, hq, hd, he]⟩
    | error e => exact ⟨w, rest, _, s.encHalt, rfl, by simp [stepEnc, hq, hd, rejectEnc_eq]; rfl⟩

/-- The decoder's step: nothing without a command, else one command taken, one response sent, the halt bit written. -/
theorem stepDec_shape (s : State) :
    (s.decCmdQ = [] ∧ stepDec s = .next s) ∨
      ∃ w rest r h, s.decCmdQ = w :: rest ∧
        stepDec s = .next { s with decCmdQ := rest, decRspQ := s.decRspQ ++ [r], decHalt := h } := by
  cases hq : s.decCmdQ with
  | nil => exact .inl ⟨rfl, by simp [stepDec, hq]⟩
  | cons w rest =>
    refine .inr ?_
    cases hd : decodeDec w with
    | ok i =>
      obtain ⟨r, h, he⟩ := exec_dec_shape i { s with decCmdQ := rest } (decodeDec_agent hd)
      exact ⟨w, rest, r, h, rfl, by simp [stepDec, hq, hd, he]⟩
    | error e => exact ⟨w, rest, _, s.decHalt, rfl, by simp [stepDec, hq, hd, rejectDec_eq]; rfl⟩

/-! ## The host's moves -/

/-- Everything a move of the host can lead to when it answers a next state. -/
theorem hostMoveEffect_next {m : HostMove} {s t : State} (h : hostMoveEffect m s = .next t) :
    (∃ w, m = .sendEnc w ∧ t = { s with encCmdQ := s.encCmdQ ++ [w] }) ∨
    (∃ w, m = .sendDec w ∧ t = { s with decCmdQ := s.decCmdQ ++ [w] }) ∨
    (m = .takeEnc ∧ ((s.encRspQ = [] ∧ t = s) ∨
      ∃ r rest, s.encRspQ = r :: rest ∧ t = { s with encRspQ := rest, encTaken := s.encTaken ++ [r] })) ∨
    (m = .takeDec ∧ ((s.decRspQ = [] ∧ t = s) ∨
      ∃ r rest, s.decRspQ = r :: rest ∧ t = { s with decRspQ := rest, decTaken := s.decTaken ++ [r] })) ∨
    (∃ c b p, m = .reset c b ∧ tailPolicyOfBits b = some p ∧ t = resetEvent c p s) ∨
    (∃ c b p, m = .driveConfig c b ∧ tailPolicyOfBits b = some p ∧ sameConfig c p s = true ∧ t = s) := by
  cases m with
  | sendEnc w => exact .inl ⟨w, rfl, by simpa [hostMoveEffect] using h.symm⟩
  | sendDec w => exact .inr (.inl ⟨w, rfl, by simpa [hostMoveEffect] using h.symm⟩)
  | takeEnc =>
    refine .inr (.inr (.inl ⟨rfl, ?_⟩))
    cases hq : s.encRspQ with
    | nil => exact .inl ⟨rfl, by simpa [hostMoveEffect, hq] using h.symm⟩
    | cons r rest => exact .inr ⟨r, rest, rfl, by simpa [hostMoveEffect, hq] using h.symm⟩
  | takeDec =>
    refine .inr (.inr (.inr (.inl ⟨rfl, ?_⟩)))
    cases hq : s.decRspQ with
    | nil => exact .inl ⟨rfl, by simpa [hostMoveEffect, hq] using h.symm⟩
    | cons r rest => exact .inr ⟨r, rest, rfl, by simpa [hostMoveEffect, hq] using h.symm⟩
  | reset c b =>
    cases hb : tailPolicyOfBits b with
    | none => simp [hostMoveEffect, hb] at h
    | some p => exact .inr (.inr (.inr (.inr (.inl ⟨c, b, p, rfl, hb, by simpa [hostMoveEffect, hb] using h.symm⟩))))
  | driveConfig c b =>
    cases hb : tailPolicyOfBits b with
    | none => simp [hostMoveEffect, hb] at h
    | some p =>
      cases hs : sameConfig c p s with
      | false => simp [hostMoveEffect, hb, hs] at h
      | true =>
        exact .inr (.inr (.inr (.inr (.inr ⟨c, b, p, rfl, hb, hs, by simpa [hostMoveEffect, hb, hs] using h.symm⟩))))

/-! ## Whose turn it is -/

theorem mem_readyAgents (a : Agent) (s : State) : a ∈ readyAgents s ↔ agentReady a s = true := by
  cases a <;> simp [readyAgents]

/-- The agent that moves is one that can move. -/
theorem nextAgent_mem {s : State} {a : Agent} (h : nextAgent s = some a) : a ∈ readyAgents s := by
  unfold nextAgent at h
  split at h
  · cases h
  · next b hb => cases h; simp [hb]
  · next b c l hb =>
    split at h
    · next ht => cases h; exact (mem_readyAgents _ _).2 ht
    · cases h; simp [hb]

/-- The one agent that can move is the one that moves. -/
theorem nextAgent_of_only {s : State} {a : Agent} (h : readyAgents s = [a]) : nextAgent s = some a := by
  simp [nextAgent, h]

/-- The agent that moves has a step it can take. -/
theorem nextAgent_ready {s : State} {a : Agent} (h : nextAgent s = some a) : agentReady a s = true :=
  (mem_readyAgents _ _).1 (nextAgent_mem h)

/-- The step is that of the agent that moves. -/
theorem step_of_nextAgent {s : State} {a : Agent} (h : nextAgent s = some a) : step s = stepAgent a (passTurn s) := by
  simp only [step, h]

/-- Where no agent can move the state holds. -/
theorem step_of_none {s : State} (h : nextAgent s = none) : step s = .next s := by
  simp only [step, h]

/-- Everything a step can do when it answers a next state. -/
theorem step_cases {s t : State} (h : step s = .next t) :
    (nextAgent s = none ∧ t = s) ∨
    (nextAgent s = some .host ∧ ∃ m rest, s.hostMoves = m :: rest ∧
      hostMoveEffect m { passTurn s with hostMoves := rest } = .next t) ∨
    (nextAgent s = some .enc ∧ stepEnc (passTurn s) = .next t) ∨
    (nextAgent s = some .dec ∧ stepDec (passTurn s) = .next t) := by
  unfold step at h
  cases ha : nextAgent s with
  | none => rw [ha] at h; exact .inl ⟨rfl, by simpa using h.symm⟩
  | some a =>
    rw [ha] at h
    cases a with
    | host =>
      refine .inr (.inl ⟨rfl, ?_⟩)
      have hr : hostReady s = true := (mem_readyAgents .host s).1 (nextAgent_mem ha)
      cases hm : s.hostMoves with
      | nil => simp [hostReady, hm] at hr
      | cons m rest => exact ⟨m, rest, rfl, by simpa [stepAgent, stepHost, hm] using h⟩
    | enc => exact .inr (.inr (.inl ⟨rfl, h⟩))
    | dec => exact .inr (.inr (.inr ⟨rfl, h⟩))

/-! ## Refused steps -/

/-- Only the reserved strap has no tail policy. -/
theorem tailPolicyOfBits_eq_none (b : BitVec 2) : tailPolicyOfBits b = none ↔ b = 3 := by
  revert b; decide

/-- The straps driven are those of the run exactly when both agree. -/
theorem sameConfig_iff (c : Bool) (p : TailPolicy) (s : State) :
    sameConfig c p s = true ↔ c = s.cfg.compatInvalid ∧ p = s.cfg.tailPolicy := by
  simp only [sameConfig, Bool.and_eq_true, beq_iff_eq]
  exact and_congr eq_comm eq_comm

/-- Everything a refused move of the host can be. -/
theorem hostMoveEffect_refused {m : HostMove} {s : State} {r : Refusal} (h : hostMoveEffect m s = .refused r) :
    (∃ c, m = .reset c 3 ∧ r = .reservedTailPolicy) ∨ (∃ c, m = .driveConfig c 3 ∧ r = .reservedTailPolicy) ∨
    (∃ c b p, m = .driveConfig c b ∧ tailPolicyOfBits b = some p ∧ ¬ (c = s.cfg.compatInvalid ∧ p = s.cfg.tailPolicy) ∧
      r = .configChangedOutsideReset) := by
  cases m with
  | sendEnc w => simp [hostMoveEffect] at h
  | sendDec w => simp [hostMoveEffect] at h
  | takeEnc => simp only [hostMoveEffect] at h; split at h <;> cases h
  | takeDec => simp only [hostMoveEffect] at h; split at h <;> cases h
  | reset c b =>
    cases hb : tailPolicyOfBits b with
    | none =>
      obtain rfl := (tailPolicyOfBits_eq_none b).1 hb
      exact .inl ⟨c, rfl, by simpa [hostMoveEffect, tailPolicyOfBits] using h.symm⟩
    | some p => simp [hostMoveEffect, hb] at h
  | driveConfig c b =>
    cases hb : tailPolicyOfBits b with
    | none =>
      obtain rfl := (tailPolicyOfBits_eq_none b).1 hb
      exact .inr (.inl ⟨c, rfl, by simpa [hostMoveEffect, tailPolicyOfBits] using h.symm⟩)
    | some p =>
      by_cases hs : sameConfig c p s = true
      · simp [hostMoveEffect, hb, hs] at h
      · refine .inr (.inr ⟨c, b, p, rfl, hb, by rwa [sameConfig_iff] at hs, ?_⟩)
        simpa [hostMoveEffect, hb, hs] using h.symm

/-- What a step that is refused is: a refused move of the host. -/
theorem step_refused {s : State} {r : Refusal} (h : step s = .refused r) :
    nextAgent s = some .host ∧ ∃ m rest, s.hostMoves = m :: rest ∧
      hostMoveEffect m { passTurn s with hostMoves := rest } = .refused r := by
  cases ha : nextAgent s with
  | none => rw [step_of_none ha] at h; cases h
  | some a =>
    rw [step_of_nextAgent ha] at h
    cases a with
    | host =>
      refine ⟨rfl, ?_⟩
      cases hm : s.hostMoves with
      | nil => simp [stepAgent, stepHost, hm] at h
      | cons m rest => exact ⟨m, rest, rfl, by simpa [stepAgent, stepHost, hm] using h⟩
    | enc => rcases stepEnc_shape (passTurn s) with ⟨_, e⟩ | ⟨_, _, _, _, _, e⟩ <;> simp [stepAgent, e] at h
    | dec => rcases stepDec_shape (passTurn s) with ⟨_, e⟩ | ⟨_, _, _, _, _, e⟩ <;> simp [stepAgent, e] at h

/-- The host's step makes its next move. -/
theorem step_of_move {s : State} {m : HostMove} {rest} (hn : nextAgent s = some .host) (hm : s.hostMoves = m :: rest) :
    step s = hostMoveEffect m { passTurn s with hostMoves := rest } := by
  simp [step_of_nextAgent hn, stepAgent, stepHost, hm]

/-! ## The halt bits -/

/-- What an encoder command does to the halt bits. -/
theorem exec_enc_halt {i : Instr} {s t : State} (hi : i.agent = .enc) (h : exec i s = .next t) :
    t.decHalt = s.decHalt ∧
    (s.encHalt = true → t.encHalt = false → i.last = true ∧ t.encRspQ = s.encRspQ ++ [0x1800000000]) ∧
    (s.encHalt = false → t.encHalt = true → i.last = false) := by
  cases hh : s.encHalt <;> cases i <;> simp [Instr.agent] at hi <;>
    simp [exec, execEncEnd, execEnc1, execEnc2, execEnc3, processEnc_eq, hh] at h <;> subst h <;>
    simp [Instr.last]
  all_goals first | rfl | (rintro rfl; exact ⟨rfl, rfl⟩)

/-- What a decoder command does to the halt bits. -/
theorem exec_dec_halt {i : Instr} {s t : State} (hi : i.agent = .dec) (h : exec i s = .next t) :
    t.encHalt = s.encHalt ∧
    (s.decHalt = true → t.decHalt = false → i.last = true ∧ t.decRspQ = s.decRspQ ++ [0x0014000000]) ∧
    (s.decHalt = false → t.decHalt = true → i.last = false) := by
  cases hh : s.decHalt <;> cases i <;> simp [Instr.agent] at hi <;>
    simp [exec, execDecEnd, execDec1, execDec2, execDec3, execDec4, processGroup_eq, discardDec, answerDec_eq, hh] at h <;>
    subst h <;> simp [Instr.last, hh]
  all_goals first | rfl | (rintro rfl; exact ⟨rfl, rfl⟩) | (intro h _; exact h)

/-- What the encoder's step does to its halt bit. -/
theorem stepEnc_halt {s t : State} (h : stepEnc s = .next t) : t.decHalt = s.decHalt ∧
    (s.encHalt = true → t.encHalt = false → ∃ w rest i, s.encCmdQ = w :: rest ∧ decodeEnc w = .ok i ∧ i.last = true ∧
      t.encRspQ = s.encRspQ ++ [0x1800000000]) ∧
    (s.encHalt = false → t.encHalt = true →
      ∃ w rest i, s.encCmdQ = w :: rest ∧ decodeEnc w = .ok i ∧ i.last = false) := by
  cases hq : s.encCmdQ with
  | nil => simp [stepEnc, hq] at h; subst h; simp_all
  | cons w rest =>
    cases hd : decodeEnc w with
    | error e => simp [stepEnc, hq, hd, rejectEnc_eq] at h; subst h; simp_all
    | ok i =>
      have he : exec i { s with encCmdQ := rest } = .next t := by simpa [stepEnc, hq, hd] using h
      obtain ⟨h1, h2, h3⟩ := exec_enc_halt (decodeEnc_agent hd) he
      exact ⟨h1, fun a c => ⟨w, rest, i, rfl, hd, h2 a c⟩, fun a c => ⟨w, rest, i, rfl, hd, h3 a c⟩⟩

/-- What the decoder's step does to its halt bit. -/
theorem stepDec_halt {s t : State} (h : stepDec s = .next t) : t.encHalt = s.encHalt ∧
    (s.decHalt = true → t.decHalt = false → ∃ w rest i, s.decCmdQ = w :: rest ∧ decodeDec w = .ok i ∧ i.last = true ∧
      t.decRspQ = s.decRspQ ++ [0x0014000000]) ∧
    (s.decHalt = false → t.decHalt = true →
      ∃ w rest i, s.decCmdQ = w :: rest ∧ decodeDec w = .ok i ∧ i.last = false) := by
  cases hq : s.decCmdQ with
  | nil => simp [stepDec, hq] at h; subst h; simp_all
  | cons w rest =>
    cases hd : decodeDec w with
    | error e => simp [stepDec, hq, hd, rejectDec_eq] at h; subst h; simp_all
    | ok i =>
      have he : exec i { s with decCmdQ := rest } = .next t := by simpa [stepDec, hq, hd] using h
      obtain ⟨h1, h2, h3⟩ := exec_dec_halt (decodeDec_agent hd) he
      exact ⟨h1, fun a c => ⟨w, rest, i, rfl, hd, h2 a c⟩, fun a c => ⟨w, rest, i, rfl, hd, h3 a c⟩⟩

/-- A move of the host that is no reset leaves both halt bits as they were. -/
theorem hostMoveEffect_halt {m : HostMove} {s t : State} (h : hostMoveEffect m s = .next t) :
    (∃ c b, m = .reset c b) ∨ (t.encHalt = s.encHalt ∧ t.decHalt = s.decHalt) := by
  rcases hostMoveEffect_next h with ⟨w, rfl, rfl⟩ | ⟨w, rfl, rfl⟩ | ⟨rfl, ⟨hq, rfl⟩ | ⟨r, q, hq, rfl⟩⟩ |
    ⟨rfl, ⟨hq, rfl⟩ | ⟨r, q, hq, rfl⟩⟩ | ⟨c, b, p, rfl, hb, rfl⟩ | ⟨c, b, p, rfl, hb, hs, rfl⟩
  all_goals first | exact .inr ⟨rfl, rfl⟩ | exact .inl ⟨c, b, rfl⟩

end Sys2Proof.Machine
end

