-- ==== Sys2Proof/Laws/PerInstr.lean ====
section
/-! SUPPORT. The per-instruction family EncodesLegal: a well-formed command encodes to a word whose RSVD is 0 and whose
CNT is its own (30_encoding.md R70, R71, R75), so a word that is not malformed. -/

namespace Sys2Proof.Laws.EncodesLegal

open Sys2Proof Sys2Proof.Machine

/-- The fields of the command's word are legal, and CNT is the mnemonic's. -/
def Statement (i : Instr) : Prop :=
  i.wellFormed = true ∧
    match encode i with
    | .enc w => (encFields w).wellFormed = true ∧ (encFields w).cnt.toNat = i.count
    | .dec w => (decFields w).wellFormed = true ∧ (decFields w).cnt.toNat = i.count

theorem encEnd : Statement .encEnd := by
  simp [Statement, encode, encFields_encWordOf, EncCmd.wellFormed, Instr.wellFormed, Instr.count, Instr.lanes, Instr.agent,
    Instr.last]

theorem enc1 (last pd : Bool) (b0 : Byte) : Statement (.enc1 last pd b0) := by
  simp [Statement, encode, encFields_encWordOf, EncCmd.wellFormed, Instr.wellFormed, Instr.count, Instr.lanes, Instr.agent,
    Agent.maxCount]

theorem enc2 (last pd : Bool) (b0 b1 : Byte) : Statement (.enc2 last pd b0 b1) := by
  simp [Statement, encode, encFields_encWordOf, EncCmd.wellFormed, Instr.wellFormed, Instr.count, Instr.lanes, Instr.agent,
    Agent.maxCount]

theorem enc3 (last pd : Bool) (b0 b1 b2 : Byte) : Statement (.enc3 last pd b0 b1 b2) := by
  simp [Statement, encode, encFields_encWordOf, EncCmd.wellFormed, Instr.wellFormed, Instr.count, Instr.lanes, Instr.agent,
    Agent.maxCount]

theorem decEnd : Statement .decEnd := by
  simp [Statement, encode, decFields_decWordOf, DecCmd.wellFormed, Instr.wellFormed, Instr.count, Instr.lanes, Instr.agent,
    Instr.last]

theorem dec1 (last : Bool) (s1 : Byte) : Statement (.dec1 last s1) := by
  simp [Statement, encode, decFields_decWordOf, DecCmd.wellFormed, Instr.wellFormed, Instr.count, Instr.lanes, Instr.agent,
    Agent.maxCount]

theorem dec2 (last : Bool) (s1 s2 : Byte) : Statement (.dec2 last s1 s2) := by
  simp [Statement, encode, decFields_decWordOf, DecCmd.wellFormed, Instr.wellFormed, Instr.count, Instr.lanes, Instr.agent,
    Agent.maxCount]

theorem dec3 (last : Bool) (s1 s2 s3 : Byte) : Statement (.dec3 last s1 s2 s3) := by
  simp [Statement, encode, decFields_decWordOf, DecCmd.wellFormed, Instr.wellFormed, Instr.count, Instr.lanes, Instr.agent,
    Agent.maxCount]

theorem dec4 (last : Bool) (s1 s2 s3 s4 : Byte) : Statement (.dec4 last s1 s2 s3 s4) := by
  simp [Statement, encode, decFields_decWordOf, DecCmd.wellFormed, Instr.wellFormed, Instr.count, Instr.lanes, Instr.agent,
    Agent.maxCount]

end Sys2Proof.Laws.EncodesLegal
end

