-- ==== Sys2Proof/Tests/Slice0.lean ====
section
/-! SUPPORT. Tests. Expected words are 95_test_vectors.md's (the vector is named) or written out from the encodings of
30_encoding.md; then, for every obligation with hypotheses, a concrete state and operands that meet them together. -/

namespace Sys2Proof.Tests

open Sys2Proof Sys2Proof.Machine Sys2Proof.Safety Sys2Proof.Claims

/-! ## Benches -/

/-- Nothing pending, channels of depth 4, in the given configuration. -/
def bench (compat : Bool := false) (policy : TailPolicy := .exactTail) : State :=
  { State.reset with cfg := ⟨compat, policy, 4, 4⟩ }

/-- Encoder words waiting, the encoder halted or not. -/
def encBench (halt : Bool) (ws : List EncWord) : State := { bench with encHalt := halt, encCmdQ := ws }

/-- Decoder words waiting, the decoder halted or not. -/
def decBench (halt : Bool) (ws : List DecWord) (compat : Bool := false) (policy : TailPolicy := .exactTail) : State :=
  { bench compat policy with decHalt := halt, decCmdQ := ws }

/-- Host moves waiting. -/
def hostBench (ms : List HostMove) : State := { bench with hostMoves := ms }

/-- One step of the encoder on one word: the response and the halt bit after it. -/
def encStep (halt : Bool) (w : EncWord) : Option (RspWord × Bool) :=
  match step (encBench halt [w]) with
  | .next t => (t.encRspQ.getLast?).map (fun r => (r, t.encHalt))
  | _ => none

/-- One step of the decoder on one word: the response and the halt bit after it. -/
def decStep (halt : Bool) (w : DecWord) (compat : Bool := false) (policy : TailPolicy := .exactTail) :
    Option (RspWord × Bool) :=
  match step (decBench halt [w] compat policy) with
  | .next t => (t.decRspQ.getLast?).map (fun r => (r, t.decHalt))
  | _ => none

/-- The first step after reset on a placed table word answers a next state. -/
def runsFromReset (nbits w : Nat) : Bool :=
  match step (State.reset.withFetchWord nbits w) with
  | .next _ => true
  | _ => false

/-! ## Well-formedness: every check refuses an ill-formed term -/

theorem test_wellFormed_encoder_reserved : (EncCmd.mk 1 true false 3 0 0 0).wellFormed = false := by decide
theorem test_wellFormed_encoder_empty : (EncCmd.mk 0 false false 0 0 0 0).wellFormed = false := by decide
theorem test_wellFormed_encoder_end : (EncCmd.mk 0 true false 0 0 0 0).wellFormed = true := by decide
theorem test_wellFormed_decoder_reserved : (DecCmd.mk 8 true 4 0 0 0 0).wellFormed = false := by decide
theorem test_wellFormed_decoder_count : (DecCmd.mk 0 true 5 0 0 0 0).wellFormed = false := by decide
theorem test_wellFormed_decoder_empty : (DecCmd.mk 0 false 0 0 0 0 0).wellFormed = false := by decide
theorem test_wellFormed_decoder_four : (DecCmd.mk 0 false 4 0 0 0 0).wellFormed = true := by decide

/-! ## Decoding: each command's word written out from its field layout -/

/-- R61: RSVD 0000, LAST 1, PD 1 (ignored), CNT 00, DATA all ones (ignored). -/
theorem test_decode_encEnd : decodeEnc 0b00001100111111111111111111111111 = .ok .encEnd := by decide
/-- R61: RSVD 0000, LAST 0, PD 1, CNT 01, B0 01001101, the rest ignored. -/
theorem test_decode_enc1 : decodeEnc 0b00000101010011011111111111111111 = .ok (.enc1 false true 0x4D) := by decide
/-- R61: RSVD 0000, LAST 1, PD 0, CNT 10, B0 01001101, B1 01100001, the rest ignored. -/
theorem test_decode_enc2 : decodeEnc 0b00001010010011010110000111111111 = .ok (.enc2 true false 0x4D 0x61) := by decide
/-- R61: RSVD 0000, LAST 0, PD 0, CNT 11, B0 01001101, B1 01100001, B2 01101110. -/
theorem test_decode_enc3 : decodeEnc 0b00000011010011010110000101101110 = .ok (.enc3 false false 0x4D 0x61 0x6E) := by
  decide
/-- R63: RSVD 0000, LAST 1, CNT 000, SYM all ones (ignored). -/
theorem test_decode_decEnd : decodeDec 0b0000100011111111111111111111111111111111 = .ok .decEnd := by decide
/-- R63: RSVD 0000, LAST 0, CNT 001, S1 01010100, the rest ignored. -/
theorem test_decode_dec1 : decodeDec 0b0000000101010100111111111111111111111111 = .ok (.dec1 false 0x54) := by decide
/-- R63: RSVD 0000, LAST 1, CNT 010, S1 01010100, S2 01010111, the rest ignored. -/
theorem test_decode_dec2 : decodeDec 0b0000101001010100010101111111111111111111 = .ok (.dec2 true 0x54 0x57) := by decide
/-- R63: RSVD 0000, LAST 0, CNT 011, S1 01010100, S2 01010111, S3 01000110, S4 ignored. -/
theorem test_decode_dec3 : decodeDec 0b0000001101010100010101110100011011111111 = .ok (.dec3 false 0x54 0x57 0x46) := by
  decide
/-- R63: RSVD 0000, LAST 1, CNT 100, S1 01010100, S2 01010111, S3 01000110, S4 01110101. -/
theorem test_decode_dec4 :
    decodeDec 0b0000110001010100010101110100011001110101 = .ok (.dec4 true 0x54 0x57 0x46 0x75) := by decide

theorem test_reject_encoder_reserved : decodeEnc 0xFB4D616E = .error .reservedBits := by decide
theorem test_reject_encoder_empty : decodeEnc 0x04000000 = .error .emptyNotLast := by decide
theorem test_reject_decoder_reserved : decodeDec 0x1C54574675 = .error .reservedBits := by decide
theorem test_reject_decoder_empty : decodeDec 0x0000000000 = .error .emptyNotLast := by decide
theorem test_reject_decoder_count : decodeDec 0x0554574675 = .error .reservedCount ∧
    decodeDec 0x0F00000000 = .error .reservedCount := by decide

/-- Both forms of the table's words, each on the channel of its length; a longer word has none. -/
theorem test_table_words : decodeTableWord 32 0x0B4D616E = some (.enc3 true false 0x4D 0x61 0x6E) ∧
    decodeTableWord 40 0x0C54574675 = some (.dec4 true 0x54 0x57 0x46 0x75) ∧
    decodeTableWord 32 0x10000000 = none ∧ decodeTableWord 48 0x0C54574675 = none := by decide

/-! ## One step of each command -/

theorem test_encEnd_ignores_pd_and_data : encStep false 0x0CFFFFFF = some (0x0800000000, false) := by decide  -- E-25
theorem test_encEnd_halted : encStep true 0x08000000 = some (0x1800000000, false) := by decide  -- E-29
theorem test_enc1_no_padding : encStep false 0x0D030000 = some (0x0A41770000, false) := by decide  -- E-22
theorem test_enc1_halts : encStep false 0x014D0000 = some (0x0454513D3D, true) := by decide  -- E-18
theorem test_enc2_no_padding : encStep false 0x0EFFFF00 = some (0x0B2F2F3800, false) := by decide  -- E-13
theorem test_enc2_halts : encStep false 0x024D6100 = some (0x045457453D, true) := by decide  -- E-11
theorem test_enc3_slices : encStep false 0x0B001083 = some (0x0C41424344, false) := by decide  -- E-6
theorem test_enc3_halted : encStep true 0x034D616E = some (0x1000000000, true) := by decide  -- E-26
theorem test_enc_malformed_halted : encStep true 0xF8000000 = some (0x2000000000, true) := by decide  -- E-35

theorem test_decEnd_ignores_symbols : decStep false 0x08FFFFFFFF = some (0x0004000000, false) := by decide  -- D-54
theorem test_decEnd_halted : decStep true 0x0800000000 = some (0x0014000000, false) := by decide  -- D-58
theorem test_dec1_exact : decStep false 0x0154000000 = some (0x0180000000, true) := by decide  -- D-52
theorem test_dec1_reference : decStep false 0x092F000000 false .referenceTail = some (0x0005FC0000, false) := by
  decide  -- D-49
theorem test_dec2_exact : decStep false 0x0254510000 = some (0x00014D0000, true) := by decide  -- D-39
theorem test_dec2_reference : decStep false 0x0A2F2F0000 false .referenceTail = some (0x0006FFF000, false) := by
  decide  -- D-42
theorem test_dec3_strict : decStep false 0x0B54574500 false .strictTail = some (0x0384000000, false) := by decide  -- D-26
theorem test_dec3_compat : decStep false 0x0B54572A00 true = some (0x000D4D0000, false) := by decide  -- D-33
theorem test_dec4_invalid_wins : decStep false 0x0C542A3D3D = some (0x0124000000, false) := by decide  -- D-17
theorem test_dec4_padding_midstream : decStep false 0x0454513D3D = some (0x00094D0000, true) := by decide  -- D-5
theorem test_dec_malformed_halted : decStep true 0x8800000000 = some (0x0400000000, true) := by decide  -- D-64

/-- A word of every row of opcode_table.json (its match bits, every other bit 0) runs as the first command after reset. -/
theorem test_every_row_runs_from_reset :
    runsFromReset 32 0x08000000 = true ∧ runsFromReset 32 0x01000000 = true ∧ runsFromReset 32 0x02000000 = true ∧
    runsFromReset 32 0x03000000 = true ∧ runsFromReset 40 0x0800000000 = true ∧ runsFromReset 40 0x0100000000 = true ∧
    runsFromReset 40 0x0200000000 = true ∧ runsFromReset 40 0x0300000000 = true ∧
    runsFromReset 40 0x0400000000 = true := ⟨rfl, rfl, rfl, rfl, rfl, rfl, rfl, rfl, rfl⟩

/-! ## Witnesses: what meets the hypotheses of each obligation

The obligations with no hypothesis on a state or a value have none here. -/

/-- For the statements about a class of lanes. -/
theorem validBelow_of_check {lanes : List Byte} {n : Nat}
    (h : (List.range n).all (fun j => match lanes[j]? with | some c => isValid c | none => false) = true) :
    ValidBelow lanes n := by
  intro j hj
  have hc := List.all_eq_true.1 h j (List.mem_range.2 hj)
  cases hl : lanes[j]? with
  | none => simp [hl] at hc
  | some c =>
    cases hv : lookup c with
    | valid v => exact ⟨c, v, rfl, hv⟩
    | pad => simp [hl, isValid, hv] at hc
    | invalid => simp [hl, isValid, hv] at hc

theorem witness_DecodeOfEncodeIsIdentity :
    Instr.encEnd.wellFormed = true ∧ (Instr.enc3 true true 0xFF 0x00 0xFF).wellFormed = true ∧
    Instr.decEnd.wellFormed = true ∧ (Instr.dec4 false 0xFF 0x00 0xFF 0x00).wellFormed = true := by decide

theorem witness_ReencodingClearsOnlyIgnoredBits :
    decodeEnc 0x0CFFFFFF = .ok .encEnd ∧ decodeEnc 0x094DFFFF = .ok (.enc1 true false 0x4D) ∧
    decodeEnc 0x0A4D61FF = .ok (.enc2 true false 0x4D 0x61) ∧
    decodeEnc 0x0F4D616E = .ok (.enc3 true true 0x4D 0x61 0x6E) ∧ decodeDec 0x08FFFFFFFF = .ok .decEnd ∧
    decodeDec 0x0154FFFFFF = .ok (.dec1 false 0x54) ∧ decodeDec 0x0B545745FF = .ok (.dec3 true 0x54 0x57 0x45) := by
  decide

/-- Also for StepAnswersAMalformedCommand. -/
theorem witness_MalformedCommandsAnswerErrCmdOnly_encoder :
    nextAgent (encBench true [0x10000000]) = some .enc ∧
    (encBench true [0x10000000]).encCmdQ = [0x10000000] ∧ decodeEnc 0x10000000 = .error .reservedBits := by decide

/-- Also for StepAnswersAMalformedCommand. -/
theorem witness_MalformedCommandsAnswerErrCmdOnly_decoder :
    nextAgent (decBench false [0x0554574675]) = some .dec ∧
    (decBench false [0x0554574675]).decCmdQ = [0x0554574675] ∧ decodeDec 0x0554574675 = .error .reservedCount := by decide

/-- One pair of words for each CNT of the encoder, differing in every ignored bit. -/
theorem witness_IgnoredFieldsHaveNoEffect_encoder :
    nextAgent (encBench false [0x08000000]) = some .enc ∧
    (0x08000000 : EncWord) &&& encCareMask 0x08000000 = 0x0CFFFFFF &&& encCareMask 0x08000000 ∧
    nextAgent (encBench false [0x094D0000]) = some .enc ∧
    (0x094D0000 : EncWord) &&& encCareMask 0x094D0000 = 0x094DFFFF &&& encCareMask 0x094D0000 ∧
    nextAgent (encBench false [0x0A4D6100]) = some .enc ∧
    (0x0A4D6100 : EncWord) &&& encCareMask 0x0A4D6100 = 0x0A4D61FF &&& encCareMask 0x0A4D6100 ∧
    nextAgent (encBench false [0x0B4D616E]) = some .enc ∧
    (0x0B4D616E : EncWord) &&& encCareMask 0x0B4D616E = 0x0F4D616E &&& encCareMask 0x0B4D616E := by decide

/-- One pair of words for CNT 0 to 3 of the decoder, differing in every ignored bit. -/
theorem witness_IgnoredFieldsHaveNoEffect_decoder :
    nextAgent (decBench false [0x0800000000]) = some .dec ∧
    (0x0800000000 : DecWord) &&& decCareMask 0x0800000000 = 0x08FFFFFFFF &&& decCareMask 0x0800000000 ∧
    (0x0954000000 : DecWord) &&& decCareMask 0x0954000000 = 0x0954FFFFFF &&& decCareMask 0x0954000000 ∧
    (0x0A54510000 : DecWord) &&& decCareMask 0x0A54510000 = 0x0A5451FFFF &&& decCareMask 0x0A54510000 ∧
    (0x0B54574500 : DecWord) &&& decCareMask 0x0B54574500 = 0x0B545745FF &&& decCareMask 0x0B54574500 := by decide

theorem witness_LookupInvertsSymbolOf : lookup 0x41 = .valid 0 ∧ lookup 0x2F = .valid 63 := by decide

/-- The boundaries of the classes, from 95_test_vectors.md section 2.1. -/
theorem test_lookup_boundaries :
    lookup 0x2A = .invalid ∧ lookup 0x2B = .valid 62 ∧ lookup 0x2C = .invalid ∧ lookup 0x2E = .invalid ∧
    lookup 0x2F = .valid 63 ∧ lookup 0x30 = .valid 52 ∧ lookup 0x39 = .valid 61 ∧ lookup 0x3A = .invalid ∧
    lookup 0x3C = .invalid ∧ lookup 0x3D = .pad ∧ lookup 0x3E = .invalid ∧ lookup 0x40 = .invalid ∧
    lookup 0x41 = .valid 0 ∧ lookup 0x5A = .valid 25 ∧ lookup 0x5B = .invalid ∧ lookup 0x60 = .invalid ∧
    lookup 0x61 = .valid 26 ∧ lookup 0x7A = .valid 51 ∧ lookup 0x7B = .invalid ∧ lookup 0xFF = .invalid := by decide

theorem witness_EncEndClosesTheStream :
    (0x0CFFFFFF : EncWord).extractLsb' 28 4 = 0 ∧ (0x0CFFFFFF : EncWord).extractLsb' 24 2 = 0 ∧
    (0x0CFFFFFF : EncWord)[27] = true ∧ (encBench false []).encHalt = false ∧ (encBench true []).encHalt = true := by decide

theorem witness_Enc3EncodesThreeBytes :
    (0x0F4D616E : EncWord).extractLsb' 28 4 = 0 ∧ (0x0F4D616E : EncWord).extractLsb' 24 2 = 3 ∧
    (encBench false []).encHalt = false := by decide

theorem witness_Enc2EncodesTwoBytes :
    (0x0E4D61FF : EncWord).extractLsb' 28 4 = 0 ∧ (0x0E4D61FF : EncWord).extractLsb' 24 2 = 2 ∧
    (encBench false []).encHalt = false := by decide

theorem witness_Enc1EncodesOneByte :
    (0x0D4DFFFF : EncWord).extractLsb' 28 4 = 0 ∧ (0x0D4DFFFF : EncWord).extractLsb' 24 2 = 1 ∧
    (encBench false []).encHalt = false := by decide

theorem witness_PaddingStandsOnlyAtTheEndOfPartialGroups :
    (Instr.enc1 true false 0x4D).agent = .enc ∧ (Instr.enc2 false true 0x4D 0x61).agent = .enc ∧
    Instr.encEnd.agent = .enc ∧ (encBench false []).encHalt = false := by decide

theorem witness_PartialGroupHaltsTheEncoder :
    (Instr.enc1 false false 0x4D).agent = .enc ∧ (encBench false []).encHalt = false ∧
    (encBench true []).encHalt = true := by decide

theorem witness_EncoderStepIsItsPseudocode : (encBench true [0x0B4D616E, 0x08000000]).encCmdQ = 0x0B4D616E :: [0x08000000] := by
  decide

theorem witness_EncoderResponsesHaveTheirFormat : (encBench false [0x10000000]).encCmdQ = 0x10000000 :: [] ∧
    (encBench true [0x0B4D616E]).encCmdQ = 0x0B4D616E :: [] := by decide

theorem witness_DecEndClosesTheStream :
    (0x08FFFFFFFF : DecWord).extractLsb' 36 4 = 0 ∧ (0x08FFFFFFFF : DecWord).extractLsb' 32 3 = 0 ∧
    (0x08FFFFFFFF : DecWord)[35] = true ∧ (decBench false []).decHalt = false ∧ (decBench true []).decHalt = true := by decide

/-- The scan's three outcomes, the stops at the first and last positions, and the COMPAT_INVALID boundary. -/
theorem witness_ScanStopsAtTheFirstNonValidSymbol :
    ValidBelow [0x54, 0x57, 0x46, 0x75] 4 ∧ PadStopsAt false [0x3D, 0x57, 0x46, 0x75] 0 ∧
    PadStopsAt false [0x54, 0x57, 0x46, 0x3D] 3 ∧ PadStopsAt true [0x54, 0x57, 0x2A, 0x75] 2 ∧
    InvalidStopsAt false [0x54, 0x57, 0x2A, 0x75] 2 ∧ InvalidStopsAt true [0x54, 0x2A, 0x46, 0x75] 1 :=
  ⟨validBelow_of_check (by decide),
   ⟨validBelow_of_check (by decide), 0x3D, by decide, .inl (by decide)⟩,
   ⟨validBelow_of_check (by decide), 0x3D, by decide, .inl (by decide)⟩,
   ⟨validBelow_of_check (by decide), 0x2A, by decide, .inr (by decide)⟩,
   ⟨validBelow_of_check (by decide), 0x2A, by decide, by decide, by decide⟩,
   ⟨validBelow_of_check (by decide), 0x2A, by decide, by decide, by decide⟩⟩

theorem test_scan_outcomes :
    scan false [0x54, 0x57, 0x46, 0x75] = .allValid [19, 22, 5, 46] ∧ scan false [0x3D, 0x57, 0x46, 0x75] = .padAt 1 [] ∧
    scan true [0x54, 0x57, 0x2A, 0x75] = .padAt 3 [19, 22] ∧ scan false [0x54, 0x57, 0x2A, 0x75] = .invalidAt 3 [19, 22] ∧
    scan true [0x54, 0x2A, 0x46, 0x75] = .invalidAt 2 [19] := by decide

/-- One group for each of the six arms. -/
theorem witness_DecoderGroupArms :
    (decBench false []).decHalt = false ∧ (decBench false []).cfg.compatInvalid = false ∧
    (∀ i ∈ [Instr.dec4 true 0x54 0x57 0x46 0x75, .dec3 true 0x54 0x57 0x45, .dec2 true 0x54 0x2A,
      .dec1 false 0x3D, .dec3 true 0x54 0x51 0x3D, .dec4 true 0x54 0x57 0x45 0x3D], i.agent = .dec ∧ i.count ≠ 0) ∧
    ValidBelow [0x54, 0x57, 0x46, 0x75] 4 ∧ ValidBelow [0x54, 0x57, 0x45] 3 ∧ InvalidStopsAt false [0x54, 0x2A] 1 ∧
    PadStopsAt false [0x3D] 0 ∧ PadStopsAt false [0x54, 0x51, 0x3D] 2 ∧ PadStopsAt false [0x54, 0x57, 0x45, 0x3D] 3 :=
  ⟨by decide, by decide, by decide, validBelow_of_check (by decide), validBelow_of_check (by decide),
   ⟨validBelow_of_check (by decide), 0x2A, by decide, by decide, by decide⟩,
   ⟨validBelow_of_check (by decide), 0x3D, by decide, .inl (by decide)⟩,
   ⟨validBelow_of_check (by decide), 0x3D, by decide, .inl (by decide)⟩,
   ⟨validBelow_of_check (by decide), 0x3D, by decide, .inl (by decide)⟩⟩

theorem witness_ExactTailEmitsDeterminedBytes :
    (decBench false []).decHalt = false ∧ (decBench false []).cfg.tailPolicy = .exactTail ∧
    lookup 0x54 = .valid 19 ∧ lookup 0x57 = .valid 22 ∧ lookup 0x45 = .valid 4 := by decide

theorem witness_StrictTailIsALengthError :
    (∀ i ∈ [Instr.dec1 true 0x54, .dec3 false 0x54 0x57 0x45], i.agent = .dec ∧ 1 ≤ i.count ∧ i.count ≤ 3) ∧
    (decBench false [] false .strictTail).decHalt = false ∧
    (decBench false [] false .strictTail).cfg.tailPolicy = .strictTail ∧
    ValidBelow [0x54] 1 ∧ ValidBelow [0x54, 0x57, 0x45] 3 :=
  ⟨by decide, by decide, by decide, validBelow_of_check (by decide), validBelow_of_check (by decide)⟩

theorem witness_ReferenceTailZeroExtends :
    (∀ i ∈ [Instr.dec1 true 0x54, .dec3 false 0x54 0x57 0x45], i.agent = .dec ∧ 1 ≤ i.count ∧ i.count ≤ 3) ∧
    (decBench false [] true .referenceTail).decHalt = false ∧
    (decBench false [] true .referenceTail).cfg.tailPolicy = .referenceTail ∧
    ValidBelow [0x54] 1 ∧ ValidBelow [0x54, 0x57, 0x45] 3 :=
  ⟨by decide, by decide, by decide, validBelow_of_check (by decide), validBelow_of_check (by decide)⟩

theorem witness_EndedDataHaltsTheDecoder :
    (Instr.dec4 false 0x54 0x57 0x46 0x75).agent = .dec ∧ (Instr.dec4 false 0x54 0x57 0x46 0x75).count ≠ 0 ∧
    (decBench false []).decHalt = false ∧ Instr.decEnd.agent = .dec ∧ (decBench true []).decHalt = true := by decide

/-- `R` and `Q` agree in the two bits kept of symbol 2, `E` and `F` in the four kept of symbol 3. -/
theorem witness_DroppedBitsAreNotChecked :
    lookup 0x52 = .valid 17 ∧ lookup 0x51 = .valid 16 ∧ (17 : Sextet).extractLsb' 4 2 = (16 : Sextet).extractLsb' 4 2 ∧
    lookup 0x45 = .valid 4 ∧ lookup 0x46 = .valid 5 ∧ (4 : Sextet).extractLsb' 2 4 = (5 : Sextet).extractLsb' 2 4 ∧
    lookup 0x3D = .pad ∧ (decBench false []).cfg.tailPolicy = .exactTail ∧ (decBench false []).decHalt = false := by decide

theorem witness_SymbolsAfterTheStopAreIgnored :
    let i := Instr.dec4 true 0x54 0x51 0x3D 0x41
    let j := Instr.dec4 true 0x54 0x51 0x3D 0xFF
    i.agent = .dec ∧ j.agent = .dec ∧ i.count = j.count ∧ i.last = j.last ∧
    PadStopsAt (decBench false []).cfg.compatInvalid i.lanes 2 ∧ i.lanes.take 3 = j.lanes.take 3 ∧
    InvalidStopsAt (decBench false []).cfg.compatInvalid [0x2A, 0x41] 0 ∧
    (decBench false []).decHalt = false ∧ lookup 0x54 = .valid 19 ∧ lookup 0x51 = .valid 16 ∧ lookup 0x3D = .pad :=
  ⟨by decide, by decide, by decide, by decide, ⟨validBelow_of_check (by decide), 0x3D, by decide, .inl (by decide)⟩,
   by decide, ⟨validBelow_of_check (by decide), 0x2A, by decide, by decide, by decide⟩, by decide, by decide, by decide,
   by decide⟩

theorem witness_DecoderStepIsItsPseudocode :
    (decBench true [0x0C54574675, 0x0800000000]).decCmdQ = 0x0C54574675 :: [0x0800000000] := by decide

theorem witness_DecoderResponsesHaveTheirFormat :
    (decBench false [0x0554574675]).decCmdQ = 0x0554574675 :: [] ∧
    (decBench true [0x0C54574675]).decCmdQ = 0x0C54574675 :: [] := by decide

theorem witness_ResetLeavesTheStatedValues :
    tailPolicyOfBits 0 = some .exactTail ∧ tailPolicyOfBits 1 = some .strictTail ∧
    tailPolicyOfBits 2 = some .referenceTail := by decide

/-- A reset waits on a busy block, with a legal strap and with the reserved one. -/
theorem witness_ResetMoveClearsTheBlock :
    let busy := { decBench true [0x0800000000] with encHalt := true, encCmdQ := [0x08000000], turns := [.host] }
    nextAgent { busy with hostMoves := [.reset true 2] } = some .host ∧
    nextAgent { busy with hostMoves := [.reset false 0] } = some .host ∧
    nextAgent { busy with hostMoves := [.reset false 3] } = some .host := by decide

theorem witness_StepRunsTheDecodedEncoderCommand :
    nextAgent (encBench false [0x0B4D616E]) = some .enc ∧ (encBench false [0x0B4D616E]).encCmdQ = 0x0B4D616E :: [] ∧
    decodeEnc 0x0B4D616E = .ok (.enc3 true false 0x4D 0x61 0x6E) := by decide

theorem witness_StepRunsTheDecodedDecoderCommand :
    nextAgent (decBench true [0x0800000000]) = some .dec ∧ (decBench true [0x0800000000]).decCmdQ = 0x0800000000 :: [] ∧
    decodeDec 0x0800000000 = .ok .decEnd := by decide

/-- Also with the response channel full, which the placing makes room in. -/
theorem witness_PlacedWordIsTheNextOneRun :
    1 ≤ (encBench true []).cfg.encDepth ∧ 1 ≤ (encBench true []).cfg.decDepth ∧
    decodeTableWord 32 0x0B4D616E = some (.enc3 true false 0x4D 0x61 0x6E) ∧
    decodeTableWord 40 0x0A54510000 = some (.dec2 true 0x54 0x51) := by decide

/-- All three agents ready at once; and a state in which none is. -/
theorem witness_AnyReadyAgentMayMoveNext :
    let all := { encBench false [0x08000000] with decCmdQ := [0x0800000000], hostMoves := [.sendEnc 0] }
    (∀ a ∈ [Agent.host, .enc, .dec], agentReady a all = true) ∧
    nextAgent { all with turns := [.dec] } = some .dec ∧
    nextAgent bench = none ∧ (∀ a ∈ [Agent.host, .enc, .dec], agentReady a bench = false) := by decide

theorem witness_IdleBlockHoldsItsState :
    (encBench true []).hostMoves = [] ∧ (encBench true []).encCmdQ = [] ∧ (encBench true []).decCmdQ = [] := by decide

/-- Channels at exactly their depth, here 4. -/
theorem witness_FullChannelStallsAndIsNoFault :
    let e := { encBench false [0, 0, 0, 0] with encRspQ := [0, 0, 0, 0], hostMoves := [.sendEnc 0] }
    let d := { decBench false [0, 0, 0, 0] with decRspQ := [0, 0, 0, 0], hostMoves := [.sendDec 0] }
    e.cfg.encDepth ≤ e.encRspQ.length ∧ e.cfg.encDepth ≤ e.encCmdQ.length ∧ e.hostMoves = .sendEnc 0 :: [] ∧
    d.cfg.decDepth ≤ d.decRspQ.length ∧ d.cfg.decDepth ≤ d.decCmdQ.length ∧ d.hostMoves = .sendDec 0 :: [] := by decide

theorem witness_HostSendsAndTakesWholeWordsInOrder :
    nextAgent (hostBench [.sendEnc 0xFFFFFFFF]) = some .host ∧ nextAgent (hostBench [.sendDec 0]) = some .host ∧
    nextAgent { hostBench [.takeEnc] with encRspQ := [0x0800000000] } = some .host ∧
    nextAgent { hostBench [.takeDec] with decRspQ := [0x0004000000] } = some .host := by decide

/-- A run without reset; each way of driving another configuration; the reserved strap; and the present values. -/
theorem witness_ConfigurationIsFixedOutsideReset :
    NoReset (hostBench [.sendEnc 0x08000000, .takeEnc]) ∧
    (∃ t, core.run 3 (hostBench [.sendEnc 0x08000000, .takeEnc]) = .next t) ∧
    nextAgent (hostBench [.driveConfig true 0]) = some .host ∧ tailPolicyOfBits 0 = some .exactTail ∧
    true ≠ (hostBench []).cfg.compatInvalid ∧
    nextAgent (hostBench [.driveConfig false 1]) = some .host ∧ tailPolicyOfBits 1 = some .strictTail ∧
    TailPolicy.strictTail ≠ (hostBench []).cfg.tailPolicy ∧
    nextAgent (hostBench [.driveConfig false 3]) = some .host ∧
    nextAgent (hostBench [.driveConfig false 0]) = some .host ∧ false = (hostBench []).cfg.compatInvalid ∧
    tailPolicyOfBits 0 = some (hostBench []).cfg.tailPolicy :=
  ⟨by intro c t; decide +revert, ⟨_, rfl⟩, by decide, by decide, by decide, by decide, by decide, by decide, by decide,
    by decide, by decide, by decide⟩

/-- The statement has no hypothesis; a step that is refused, for each of the three reasons, and one that is not though such a
move waits, because a unit moves. -/
theorem witness_OnlyConfigurationMovesAreRefused :
    step (hostBench [.reset false 3]) = .refused .reservedTailPolicy ∧
    step (hostBench [.driveConfig false 3]) = .refused .reservedTailPolicy ∧
    step (hostBench [.driveConfig true 0]) = .refused .configChangedOutsideReset ∧
    (∃ t, step { hostBench [.driveConfig true 0] with encCmdQ := [0x08000000], turns := [.enc] } = .next t) :=
  ⟨rfl, rfl, rfl, ⟨_, rfl⟩⟩

/-- Halt left by a discarded command with LAST = 1, and by a reset. -/
theorem witness_HaltIsLeftOnlyByLastOrReset :
    (∃ t, step (encBench true [0x08000000]) = .next t ∧ t.encHalt = false) ∧
    (∃ t, step (decBench true [0x0C54574675]) = .next t ∧ t.decHalt = false) ∧
    (∃ t, step { hostBench [.reset false 0] with encHalt := true, decHalt := true } = .next t ∧
      t.encHalt = false ∧ t.decHalt = false) := ⟨⟨_, rfl, rfl⟩, ⟨_, rfl, rfl⟩, ⟨_, rfl, rfl, rfl⟩⟩

/-- Halt entered by a partial group with LAST = 0 on either unit. -/
theorem witness_HaltBitsAreWrittenOnlyByTheirUnit :
    (∃ t, step (encBench false [0x014D0000]) = .next t ∧ t.encHalt = true) ∧
    (∃ t, step (decBench false [0x0254510000]) = .next t ∧ t.decHalt = true) := ⟨⟨_, rfl, rfl⟩, ⟨_, rfl, rfl⟩⟩

theorem witness_LastCommandLeavesItsUnitNotHalted :
    (Instr.enc1 true false 0x4D).last = true ∧ (Instr.enc1 true false 0x4D).agent = .enc ∧ Instr.decEnd.last = true ∧
    Instr.decEnd.agent = .dec := by decide

theorem witness_UnitStepsCommute :
    let s := { encBench false [0x014D0000] with decCmdQ := [0x0254510000] }
    encReady s = true ∧ decReady s = true := by decide

/-- A host that sends a command to each unit and takes a response, run to its end. -/
def hostRun : State := hostBench [.sendEnc 0x014D0000, .sendDec 0x0800000000, .takeEnc]

theorem witness_ResponsesDependOnTheUnitsCommandsOnly :
    NoReset hostRun ∧
    (∃ t, core.run 5 ({ hostRun with turns := [.host, .host, .enc, .dec, .host] } : State) = .next t ∧
      t.encTaken = [0x0454513D3D] ∧ t.decRspQ = [0x0004000000]) ∧
    hostRun.encHalt = false ∧ hostRun.decHalt = false ∧ hostRun.encCmdQ = [] ∧ hostRun.decCmdQ = [] ∧
    hostRun.encRspQ = [] ∧ hostRun.decRspQ = [] ∧ hostRun.encTaken = [] ∧ hostRun.decTaken = [] :=
  ⟨by intro c t; decide +revert, ⟨_, rfl, rfl, rfl⟩, rfl, rfl, rfl, rfl, rfl, rfl, rfl, rfl⟩

theorem witness_ResponseHistoryIsInvariant :
    NoReset (encBench true [0x08000000]) ∧ ∃ t, core.run 1 (encBench true [0x08000000]) = .next t :=
  ⟨by intro c t; decide +revert, ⟨_, rfl⟩⟩

/-- A halted encoder with its command channel full, a response waiting and one taken. -/
def busyState : State :=
  { encBench true [0x08000000, 0, 0, 0] with encRspQ := [0x0C54574675], decTaken := [0x0124000000] }

theorem busyState_responses_legal : encRspOk 0x0C54574675 = true ∧ decRspOk 0x0124000000 = true :=
  ⟨by decide +kernel, by decide +kernel⟩

/-- It meets the invariant, and its step answers a next state. -/
theorem witness_EveryStepKeepsTheInvariant : Inv busyState ∧ ∃ t, step busyState = .next t :=
  ⟨⟨⟨by decide, by decide, by decide, by decide, by decide, by decide⟩,
    ⟨fun _ hw => List.mem_singleton.1 hw ▸ busyState_responses_legal.1, fun _ hw => absurd hw List.not_mem_nil,
      fun _ hw => absurd hw List.not_mem_nil, fun _ hw => List.mem_singleton.1 hw ▸ busyState_responses_legal.2⟩⟩,
    ⟨_, rfl⟩⟩

theorem witness_PseudoInstructionsCarryTheBuffer : ([0x4D] : List Byte) ≠ [] ∧ ([0x54, 0x51] : List Byte) ≠ [] := by decide

/-- A bench for ENCODE, of one full and one partial group. -/
theorem witness_EncodeBufferLaws :
    EncodeBench false [0x4D, 0x61, 0x6E, 0x4D] (encBench false [0x034D616E, 0x094D0000]) ∧
    EncodeBench true [] (encBench false [0x08000000]) :=
  ⟨⟨rfl, rfl, rfl, rfl, by decide, by decide⟩, ⟨rfl, rfl, rfl, rfl, by decide, by decide⟩⟩

/-- For the statements about the text of a buffer. -/
theorem encodesTo_of_check {np : Bool} {buf txt : List Byte} {s : State} (hs : EncodeBench np buf s)
    (h : (match core.run s.encCmdQ.length s with | .next t => encText t.encRspQ == txt | _ => false) = true) :
    EncodesTo np buf txt := by
  cases hr : core.run s.encCmdQ.length s with
  | next t => exact ⟨s, t, hs, hr, by simpa [hr] using h⟩
  | fault f => nomatch f
  | refused r => simp [hr] at h

/-- ENCODE "ManM" gives `TWFuTQ==`, and its text waits on a decoder (95_test_vectors.md P1, P2). -/
theorem witness_PaddedRoundTripReturnsTheBuffer :
    EncodesTo false [0x4D, 0x61, 0x6E, 0x4D] [0x54, 0x57, 0x46, 0x75, 0x54, 0x51, 0x3D, 0x3D] ∧
    DecodeBench [0x54, 0x57, 0x46, 0x75, 0x54, 0x51, 0x3D, 0x3D] (decBench false [0x0454574675, 0x0C54513D3D]) :=
  ⟨encodesTo_of_check (s := encBench false [0x034D616E, 0x094D0000])
      ⟨rfl, rfl, rfl, rfl, by decide, by decide⟩ (by decide),
    ⟨rfl, rfl, rfl, rfl, by decide, by decide⟩⟩

/-- ENCODE "ManMa", NP gives `TWFuTWE`, and its text waits on a decoder of each tail policy (95_test_vectors.md P5). -/
theorem witness_UnpaddedRoundTripByTailPolicy :
    EncodesTo true [0x4D, 0x61, 0x6E, 0x4D, 0x61] [0x54, 0x57, 0x46, 0x75, 0x54, 0x57, 0x45] ∧
    DecodeBench [0x54, 0x57, 0x46, 0x75, 0x54, 0x57, 0x45] (decBench false [0x0454574675, 0x0B54574500]) ∧
    DecodeBench [0x54, 0x57, 0x46, 0x75, 0x54, 0x57, 0x45]
      (decBench false [0x0454574675, 0x0B54574500] false .strictTail) ∧
    DecodeBench [0x54, 0x57, 0x46, 0x75, 0x54, 0x57, 0x45]
      (decBench false [0x0454574675, 0x0B54574500] false .referenceTail) ∧ 5 % 3 ≠ 0 :=
  ⟨encodesTo_of_check (s := encBench false [0x034D616E, 0x0E4D6100])
      ⟨rfl, rfl, rfl, rfl, by decide, by decide⟩ (by decide),
    ⟨rfl, rfl, rfl, rfl, by decide, by decide⟩, ⟨rfl, rfl, rfl, rfl, by decide, by decide⟩,
    ⟨rfl, rfl, rfl, rfl, by decide, by decide⟩, by decide⟩

/-- A text of each kind the law names: unpadded with m mod 4 = 1 and = 2, `xx==` and `xxx=`. -/
theorem witness_DecodedSizeLaw :
    DecodeBench ([0x54] ++ List.replicate 0 padc) (decBench false [0x0954000000]) ∧
    DecodeBench ([0x54, 0x51] ++ List.replicate 0 padc) (decBench false [0x0A54510000] false .referenceTail) ∧
    DecodeBench ([0x54, 0x51] ++ List.replicate 2 padc) (decBench false [0x0C54513D3D] true .strictTail) ∧
    DecodeBench ([0x54, 0x57, 0x45] ++ List.replicate 1 padc) (decBench false [0x0C5457453D]) ∧
    (∀ c ∈ ([0x54, 0x51, 0x57, 0x45] : List Byte), isValid c = true) :=
  ⟨⟨rfl, rfl, rfl, rfl, by decide, by decide⟩, ⟨rfl, rfl, rfl, rfl, by decide, by decide⟩,
    ⟨rfl, rfl, rfl, rfl, by decide, by decide⟩, ⟨rfl, rfl, rfl, rfl, by decide, by decide⟩, by decide⟩

/-! Streams longer than the channel: depth 1, two commands, the host taking each response before it sends on. -/

/-- The host sends each command in turn and takes its response, on channels of depth 1. -/
def paceBench (ms : List HostMove) (policy : TailPolicy := .exactTail) : State :=
  { bench false policy with cfg := ⟨false, policy, 1, 1⟩, hostMoves := ms }

/-- The state a run answers, its first state where it answers none. -/
def runTo (n : Nat) (s : State) : State :=
  match core.run n s with
  | .next t => t
  | _ => s

theorem run_eq_runTo {n : Nat} {s : State} (h : (match core.run n s with | .next _ => true | _ => false) = true) :
    core.run n s = .next (runTo n s) := by
  cases hr : core.run n s with
  | next t => simp [runTo, hr]
  | fault f => nomatch f
  | refused r => simp [hr] at h

/-- For the three statements about streams at any pace: a run of sends and takes is a fresh run. -/
theorem freshRun_pace {n : Nat} {ms : List HostMove} {policy : TailPolicy}
    (hm : ms.all (fun m => match m with | .reset _ _ => false | _ => true) = true)
    (h : (match core.run n (paceBench ms policy) with | .next _ => true | _ => false) = true) :
    FreshRun n (paceBench ms policy) (runTo n (paceBench ms policy)) :=
  ⟨fun c t hc => by simpa using List.all_eq_true.1 hm _ hc, run_eq_runTo h, rfl, rfl, rfl, rfl, rfl, rfl, rfl, rfl⟩

/-- ENCODE "ManM" (95_test_vectors.md P1). -/
theorem witness_EncodeBufferLawsAtAnyPace :
    let s := paceBench [.sendEnc 0x034D616E, .takeEnc, .sendEnc 0x094D0000, .takeEnc]
    EncodedAtAnyPace false [0x4D, 0x61, 0x6E, 0x4D] 6 s (runTo 6 s) [0x0454574675, 0x0C54513D3D] :=
  ⟨freshRun_pace rfl rfl, by decide, by decide, by decide⟩

/-- ENCODE "ManM" and DECODE of its text (P1, P2), and ENCODE "ManMa", NP and DECODE of its text under STRICT (P5s). -/
theorem witness_RoundTripAtAnyPace :
    (let s := paceBench [.sendEnc 0x034D616E, .takeEnc, .sendEnc 0x094D0000, .takeEnc]
     let u := paceBench [.sendDec 0x0454574675, .takeDec, .sendDec 0x0C54513D3D, .takeDec]
     EncodedAtAnyPace false [0x4D, 0x61, 0x6E, 0x4D] 6 s (runTo 6 s) [0x0454574675, 0x0C54513D3D] ∧
     DecodedAtAnyPace (encText [0x0454574675, 0x0C54513D3D]) 6 u (runTo 6 u) [0x00034D616E, 0x000D4D0000]) ∧
    (let s := paceBench [.sendEnc 0x034D616E, .takeEnc, .sendEnc 0x0E4D6100, .takeEnc]
     let u := paceBench [.sendDec 0x0454574675, .takeDec, .sendDec 0x0B54574500, .takeDec] .strictTail
     EncodedAtAnyPace true [0x4D, 0x61, 0x6E, 0x4D, 0x61] 6 s (runTo 6 s) [0x0454574675, 0x0B54574500] ∧
     DecodedAtAnyPace (encText [0x0454574675, 0x0B54574500]) 6 u (runTo 6 u) [0x00034D616E, 0x0384000000]) :=
  ⟨⟨⟨freshRun_pace rfl rfl, by decide, by decide, by decide⟩, ⟨freshRun_pace rfl rfl, by decide, by decide, by decide⟩⟩,
    ⟨freshRun_pace rfl rfl, by decide, by decide, by decide⟩, ⟨freshRun_pace rfl rfl, by decide, by decide, by decide⟩⟩

/-- `TWFuTWE` unpadded, the same cut to m mod 4 = 1, and `TWFuTQ==`. -/
theorem witness_DecodedSizeLawAtAnyPace :
    (let u := paceBench [.sendDec 0x0454574675, .takeDec, .sendDec 0x0B54574500, .takeDec] .referenceTail
     DecodedAtAnyPace ([0x54, 0x57, 0x46, 0x75, 0x54, 0x57, 0x45] ++ List.replicate 0 padc) 6 u (runTo 6 u)
       [0x00034D616E, 0x00074D6100]) ∧
    (let u := paceBench [.sendDec 0x0454574675, .takeDec, .sendDec 0x0954000000, .takeDec]
     DecodedAtAnyPace ([0x54, 0x57, 0x46, 0x75, 0x54] ++ List.replicate 0 padc) 6 u (runTo 6 u)
       [0x00034D616E, 0x0184000000]) ∧
    (let u := paceBench [.sendDec 0x0454574675, .takeDec, .sendDec 0x0C54513D3D, .takeDec]
     DecodedAtAnyPace ([0x54, 0x57, 0x46, 0x75, 0x54, 0x51] ++ List.replicate 2 padc) 6 u (runTo 6 u)
       [0x00034D616E, 0x000D4D0000]) ∧
    (∀ c ∈ ([0x54, 0x57, 0x46, 0x75, 0x51, 0x45] : List Byte), isValid c = true) :=
  ⟨⟨freshRun_pace rfl rfl, by decide, by decide, by decide⟩, ⟨freshRun_pace rfl rfl, by decide, by decide, by decide⟩,
    ⟨freshRun_pace rfl rfl, by decide, by decide, by decide⟩, by decide⟩

end Sys2Proof.Tests
end

