-- ==== Sys2Proof/Proofs/Alphabet.lean ====
section
/-! The alphabet ROM as numbers (10_state.md R21, R22): what each of its three blocks holds, and where symbolOf reads. -/

namespace Sys2Proof.Machine

/-! ## The blocks of ALPHA -/

theorem alphaUpper_toNat : ∀ k < 26, (alphaUpper.getD k 0).toNat = 0x41 + k := by decide

theorem alphaLower_toNat : ∀ k < 26, (alphaLower.getD k 0).toNat = 0x61 + k := by decide

/-- The decimal digits; `+` and `/`, entries 10 and 11 of the block, follow no run of codes. -/
theorem alphaDigits_toNat : ∀ k < 10, (alphaDigits.getD k 0).toNat = 0x30 + k := by decide

theorem alpha_length : alpha.length = 64 := rfl

theorem padc_notMem_alpha : padc ∉ alpha := by decide

/-! ## The block symbolOf reads -/

theorem symbolOf_of_upper {v : Sextet} (h : v.toNat < 26) : symbolOf v = alphaUpper.getD v.toNat 0 := by
  have hlen : v.toNat < (alphaUpper ++ alphaLower).length := Nat.lt_of_lt_of_le h (by decide)
  rw [symbolOf, alpha, List.getD_append _ _ _ _ hlen, List.getD_append _ _ _ _ h]

theorem symbolOf_of_lower {v : Sextet} (h : 26 ≤ v.toNat) (h' : v.toNat < 52) :
    symbolOf v = alphaLower.getD (v.toNat - 26) 0 := by
  rw [symbolOf, alpha, List.getD_append _ _ _ _ h', List.getD_append_right _ _ _ _ h]
  rfl

theorem symbolOf_of_digits {v : Sextet} (h : 52 ≤ v.toNat) : symbolOf v = alphaDigits.getD (v.toNat - 52) 0 := by
  rw [symbolOf, alpha, List.getD_append_right _ _ _ _ h]
  rfl

/-- 10_state.md R21: the closed form of ALPHA. -/
theorem symbolOf_toNat (v : Sextet) : (symbolOf v).toNat =
    if v.toNat ≤ 25 then 0x41 + v.toNat
    else if v.toNat ≤ 51 then 0x47 + v.toNat
    else if v.toNat ≤ 61 then v.toNat - 4
    else if v.toNat = 62 then 0x2B else 0x2F := by
  have hv := v.isLt
  split_ifs with hupper hlower hdigit hplus
  · rw [symbolOf_of_upper (by omega), alphaUpper_toNat _ (by omega)]
  · rw [symbolOf_of_lower (by omega) (by omega), alphaLower_toNat _ (by omega)]
    omega
  · rw [symbolOf_of_digits (by omega), alphaDigits_toNat _ (by omega)]
    omega
  · rw [symbolOf_of_digits (by omega), hplus]
    rfl
  · have hslash : v.toNat = 63 := by omega
    rw [symbolOf_of_digits (by omega), hslash]
    rfl

/-- Settles O6: the length and PADC from the table, the closed form block by block. -/
theorem alphabetHasItsClosedForm : Obligations.AlphabetHasItsClosedForm :=
  ⟨alpha_length, rfl, padc_notMem_alpha, symbolOf_toNat⟩

end Sys2Proof.Machine
end

