-- ==== Sys2Proof/Proofs/Reset.lean ====
section
/-! What reset leaves (10_state.md R35; 70_reset_and_hazards.md R230, R234). -/

namespace Sys2Proof.Machine

/-- A reset move with legal straps is the reset event under the configuration they name. -/
theorem hostMoveEffect_reset {tail : BitVec 2} {policy : TailPolicy} (h : tailPolicyOfBits tail = some policy)
    (compat : Bool) (s : State) :
    hostMoveEffect (.reset compat tail) s = .next (resetEvent compat policy s) := by
  simp only [hostMoveEffect, h]

/-- Settles O29: a legal reset move is the reset event, and the event's fields are read off by their own lemmas. -/
theorem resetLeavesTheStatedValues : Obligations.ResetLeavesTheStatedValues := by
  refine ⟨⟨rfl, rfl, rfl, rfl, rfl, rfl⟩, fun s compat tail policy h => ?_⟩
  refine ⟨resetEvent compat policy s, hostMoveEffect_reset h compat s, ?_⟩
  simp only [resetEvent_encHalt, resetEvent_decHalt, resetEvent_encCmdQ, resetEvent_encRspQ, resetEvent_decCmdQ,
    resetEvent_decRspQ, resetEvent_cfg, and_self]

end Sys2Proof.Machine
end

