-- ==== Sys2Proof/Proofs/UnitAnswers.lean ====
section
/-! Each unit's step is its pseudocode's answer to the word (41_encode.md R121, 42_decode.md R151): the decoder of command
words case by case, the transducer's answer in each case, and the step put together from the two. -/

namespace Sys2Proof.Machine

open Sys2Proof.Claims

/-! ## What a word decodes to -/

/-- Everything the encoder's command map can answer, by the bits of the word (30_encoding.md R70, R72). -/
theorem decodeEnc_cases (w : EncWord) :
    (malformedEnc w = true ∧ ∃ e, decodeEnc w = .error e) ∨
    (malformedEnc w = false ∧
      ((w.extractLsb' 24 2 = 0 ∧ w[27] = true ∧ decodeEnc w = .ok .encEnd) ∨
       (w.extractLsb' 24 2 = 1 ∧ decodeEnc w = .ok (.enc1 w[27] w[26] (w.extractLsb' 16 8))) ∨
       (w.extractLsb' 24 2 = 2 ∧ decodeEnc w = .ok (.enc2 w[27] w[26] (w.extractLsb' 16 8) (w.extractLsb' 8 8))) ∨
       (w.extractLsb' 24 2 = 3 ∧ decodeEnc w =
          .ok (.enc3 w[27] w[26] (w.extractLsb' 16 8) (w.extractLsb' 8 8) (w.extractLsb' 0 8))))) := by
  by_cases hrsvd : w.extractLsb' 28 4 = 0#4
  · have hcnt : ∀ c : BitVec 2, c = 0 ∨ c = 1 ∨ c = 2 ∨ c = 3 := by decide
    rcases hcnt (w.extractLsb' 24 2) with h | h | h | h
    · cases hlast : w[27] <;> simp [decodeEnc, encFields, malformedEnc, hrsvd, h, hlast]
    all_goals simp [decodeEnc, encFields, malformedEnc, hrsvd, h]
  · exact .inl (by simp [decodeEnc, encFields, malformedEnc, hrsvd])

/-- Everything the decoder's command map can answer, by the bits of the word (30_encoding.md R71, R72). -/
theorem decodeDec_cases (w : DecWord) :
    (malformedDec w = true ∧ ∃ e, decodeDec w = .error e) ∨
    (malformedDec w = false ∧
      ((w.extractLsb' 32 3 = 0 ∧ w[35] = true ∧ decodeDec w = .ok .decEnd) ∨
       (w.extractLsb' 32 3 = 1 ∧ decodeDec w = .ok (.dec1 w[35] (w.extractLsb' 24 8))) ∨
       (w.extractLsb' 32 3 = 2 ∧ decodeDec w = .ok (.dec2 w[35] (w.extractLsb' 24 8) (w.extractLsb' 16 8))) ∨
       (w.extractLsb' 32 3 = 3 ∧ decodeDec w =
          .ok (.dec3 w[35] (w.extractLsb' 24 8) (w.extractLsb' 16 8) (w.extractLsb' 8 8))) ∨
       (w.extractLsb' 32 3 = 4 ∧ decodeDec w =
          .ok (.dec4 w[35] (w.extractLsb' 24 8) (w.extractLsb' 16 8) (w.extractLsb' 8 8) (w.extractLsb' 0 8))))) := by
  by_cases hrsvd : w.extractLsb' 36 4 = 0#4
  · have hcnt : ∀ c : BitVec 3, c = 0 ∨ c = 1 ∨ c = 2 ∨ c = 3 ∨ c = 4 ∨ c = 5 ∨ c = 6 ∨ c = 7 := by decide
    rcases hcnt (w.extractLsb' 32 3) with h | h | h | h | h | h | h | h
    · cases hlast : w[35] <;> simp [decodeDec, decFields, malformedDec, hrsvd, h, hlast]
    all_goals simp [decodeDec, decFields, malformedDec, hrsvd, h]
  · exact .inl (by simp [decodeDec, decFields, malformedDec, hrsvd])

/-! ## The encoder's answers -/

/-- G read from a word's three lanes is the low 24 bits of the word (20_memory.md R41). -/
theorem group_lanes_eq_slice (w : EncWord) :
    group (w.extractLsb' 16 8) (w.extractLsb' 8 8) (w.extractLsb' 0 8) = w.extractLsb' 0 24 := by
  rw [← BitVec.toNat_inj, group_toNat]
  simp only [slice_toNat]
  omega

/-- The index of symbol 2, which straddles lanes 0 and 1, is one slice of the word (41_encode.md R123, R124). -/
theorem symbol2_index_eq_slice (w : EncWord) : w.extractLsb' 16 2 ++ w.extractLsb' 12 4 = w.extractLsb' 12 6 := by
  rw [← BitVec.toNat_inj, append_toNat]
  simp only [slice_toNat]
  omega

theorem encAnswer_of_malformed {w : EncWord} (hm : malformedEnc w = true) (halt : Bool) :
    encAnswer halt w = (encRspWord { errCmd := true }, halt) := by
  simp [encAnswer, hm]

theorem encAnswer_encEnd {w : EncWord} (hm : malformedEnc w = false) (hc : w.extractLsb' 24 2 = 0) :
    encAnswer false w = (encRspWord rspEncEnd, haltAfter true false) := by
  simp [encAnswer, hm, hc, rspEncEnd, haltAfter]

theorem encAnswer_enc1 {w : EncWord} (hm : malformedEnc w = false) (hc : w.extractLsb' 24 2 = 1) :
    encAnswer false w = (encRspWord (rspEnc1 w[27] w[26] (w.extractLsb' 16 8)), haltAfter w[27] true) := by
  cases hp : w[26] <;> simp [encAnswer, hm, hc, rspEnc1, haltAfter, slice_slice, hp]

theorem encAnswer_enc2 {w : EncWord} (hm : malformedEnc w = false) (hc : w.extractLsb' 24 2 = 2) :
    encAnswer false w =
      (encRspWord (rspEnc2 w[27] w[26] (w.extractLsb' 16 8) (w.extractLsb' 8 8)), haltAfter w[27] true) := by
  cases hp : w[26] <;> simp [encAnswer, hm, hc, rspEnc2, haltAfter, slice_slice, symbol2_index_eq_slice, hp]

theorem encAnswer_enc3 {w : EncWord} (hm : malformedEnc w = false) (hc : w.extractLsb' 24 2 = 3) :
    encAnswer false w = (encRspWord (rspEnc3 w[27] (w.extractLsb' 16 8) (w.extractLsb' 8 8) (w.extractLsb' 0 8)),
      haltAfter w[27] false) := by
  simp [encAnswer, hm, hc, rspEnc3, haltAfter, group_lanes_eq_slice, slice_slice]

/-- A legal command, processed or discarded, is the answer to its word once the answer of a unit that is not halted is its
response and halt bit. -/
theorem processEnc_eq_encNext {w : EncWord} {last ends : Bool} {r : EncRsp} (hm : malformedEnc w = false)
    (hl : w[27] = last) (hr : encAnswer false w = (encRspWord r, haltAfter last ends)) (s : State) :
    processEnc last ends r s = encNext s (encAnswer s.encHalt w).1 (encAnswer s.encHalt w).2 := by
  rw [processEnc_eq]
  cases hs : s.encHalt with
  | false => simp [hr, encNext, haltAfter]
  | true => simp [encAnswer, hm, hl, encNext]

/-- 41_encode.md R121: the encoder's step takes the oldest word and gives the pseudocode's answer to it. -/
theorem stepEnc_eq_encNext {s : State} {w : EncWord} {rest : List EncWord} (hq : s.encCmdQ = w :: rest) :
    stepEnc s =
      .next (encNext { s with encCmdQ := rest } (encAnswer s.encHalt w).1 (encAnswer s.encHalt w).2) := by
  rcases decodeEnc_cases w with ⟨hm, e, hd⟩ | ⟨hm, ⟨hc, hl, hd⟩ | ⟨hc, hd⟩ | ⟨hc, hd⟩ | ⟨hc, hd⟩⟩ <;>
    simp only [stepEnc, hq, hd]
  · simp only [rejectEnc_eq, encAnswer_of_malformed hm, encNext]
  · exact congrArg _ (processEnc_eq_encNext hm hl (encAnswer_encEnd hm hc) _)
  · exact congrArg _ (processEnc_eq_encNext hm rfl (encAnswer_enc1 hm hc) _)
  · exact congrArg _ (processEnc_eq_encNext hm rfl (encAnswer_enc2 hm hc) _)
  · exact congrArg _ (processEnc_eq_encNext hm rfl (encAnswer_enc3 hm hc) _)

/-! ## The decoder's answers -/

theorem decAnswer_of_malformed {w : DecWord} (hm : malformedDec w = true) (cfg : RunConfig) (halt : Bool) :
    decAnswer cfg halt w = (decRspWord { errCmd := true }, halt) := by
  simp [decAnswer, hm]

theorem execDecEnd_eq_decNext {w : DecWord} (hm : malformedDec w = false) (hl : w[35] = true)
    (hc : w.extractLsb' 32 3 = 0) (s : State) :
    execDecEnd s = .next (decNext s (decAnswer s.cfg s.decHalt w).1 (decAnswer s.cfg s.decHalt w).2) := by
  cases hs : s.decHalt <;>
    simp [execDecEnd, hs, discardDec, answerDec_eq, sendDecRsp, decNext, decAnswer, hm, hl, hc, rspDecEnd]

/-- A legal group, processed or discarded, over the CNT symbols present in its word, is the answer to the word. -/
theorem processGroup_eq_decNext {w : DecWord} {syms : List Byte} (hm : malformedDec w = false)
    (hc : w.extractLsb' 32 3 ≠ 0)
    (hsyms : syms = [w.extractLsb' 24 8, w.extractLsb' 16 8, w.extractLsb' 8 8, w.extractLsb' 0 8].take
      (w.extractLsb' 32 3).toNat) (s : State) :
    processGroup w[35] syms s = decNext s (decAnswer s.cfg s.decHalt w).1 (decAnswer s.cfg s.decHalt w).2 := by
  have hcnt : (w.extractLsb' 32 3).toNat ≠ 0 := fun h => hc (BitVec.eq_of_toNat_eq h)
  rw [processGroup_eq]
  cases hs : s.decHalt with
  | true => simp [decAnswer, hm, decNext]
  | false => simp only [decAnswer, hm, hcnt, hsyms, decNext, groupRsp, if_false, Bool.false_eq_true]

/-- 42_decode.md R151: the decoder's step takes the oldest word and gives the pseudocode's answer to it. -/
theorem stepDec_eq_decNext {s : State} {w : DecWord} {rest : List DecWord} (hq : s.decCmdQ = w :: rest) :
    stepDec s = .next
      (decNext { s with decCmdQ := rest } (decAnswer s.cfg s.decHalt w).1 (decAnswer s.cfg s.decHalt w).2) := by
  rcases decodeDec_cases w with ⟨hm, e, hd⟩ | ⟨hm, ⟨hc, hl, hd⟩ | ⟨hc, hd⟩ | ⟨hc, hd⟩ | ⟨hc, hd⟩ | ⟨hc, hd⟩⟩ <;>
    simp only [stepDec, hq, hd]
  · simp only [rejectDec_eq, decAnswer_of_malformed hm, decNext]
  · exact execDecEnd_eq_decNext hm hl hc _
  all_goals exact congrArg _ (processGroup_eq_decNext hm (by simp [hc]) (by simp [hc]) _)

end Sys2Proof.Machine
end

