-- ==== Sys2Proof/Proofs/History.lean ====
section
/-! The whole history of each unit's responses (taken, waiting and still to come) is what every step without reset keeps
(20_memory.md R49): a unit's step moves one response from "still to come" to "waiting", a take moves one from "waiting" to
"taken", and a send moves one command from the host to the channel. -/

namespace Sys2Proof.Machine

open Sys2Proof.Safety Sys2Proof.Claims

/-! ## The first n answers are those to the first n commands -/

theorem encAnswers_take (halt : Bool) (ws : List EncWord) (n : Nat) :
    (encAnswers halt ws).take n = encAnswers halt (ws.take n) := by
  induction ws generalizing halt n with
  | nil => simp only [encAnswers, List.take_nil]
  | cons w ws ih =>
    cases n with
    | zero => rfl
    | succ n => simp only [encAnswers, List.take_succ_cons, ih]

theorem decAnswers_take (cfg : RunConfig) (halt : Bool) (ws : List DecWord) (n : Nat) :
    (decAnswers cfg halt ws).take n = decAnswers cfg halt (ws.take n) := by
  induction ws generalizing halt n with
  | nil => simp only [decAnswers, List.take_nil]
  | cons w ws ih =>
    cases n with
    | zero => rfl
    | succ n => simp only [decAnswers, List.take_succ_cons, ih]

/-! ## What a run without reset keeps -/

/-- From s to t both histories and the configuration are kept, and the host makes no move that it had not still to make. -/
structure SameHistory (s t : State) : Prop where
  moves : t.hostMoves <:+ s.hostMoves
  cfg : t.cfg = s.cfg
  enc : encHistory t = encHistory s
  dec : decHistory t = decHistory s

theorem SameHistory.refl (s : State) : SameHistory s s := ⟨List.suffix_refl _, rfl, rfl, rfl⟩

theorem SameHistory.trans {s t u : State} (h : SameHistory s t) (h' : SameHistory t u) : SameHistory s u :=
  ⟨h'.moves.trans h.moves, h'.cfg.trans h.cfg, h'.enc.trans h.enc, h'.dec.trans h.dec⟩

theorem SameHistory.noReset {s t : State} (h : SameHistory s t) (hs : NoReset s) : NoReset t :=
  fun compat tail ht => hs compat tail (h.moves.subset ht)

theorem passTurn_sameHistory (s : State) : SameHistory s (passTurn s) := ⟨List.suffix_refl _, rfl, rfl, rfl⟩

theorem stepEnc_sameHistory {s t : State} (h : stepEnc s = .next t) : SameHistory s t := by
  cases hq : s.encCmdQ with
  | nil =>
    simp only [stepEnc, hq, Host.Outcome.next.injEq] at h
    exact h ▸ SameHistory.refl s
  | cons w rest =>
    rw [stepEnc_eq_encNext hq, Host.Outcome.next.injEq] at h
    subst h
    exact ⟨List.suffix_refl _, rfl, by simp [encHistory, encNext, hq, encAnswers], rfl⟩

theorem stepDec_sameHistory {s t : State} (h : stepDec s = .next t) : SameHistory s t := by
  cases hq : s.decCmdQ with
  | nil =>
    simp only [stepDec, hq, Host.Outcome.next.injEq] at h
    exact h ▸ SameHistory.refl s
  | cons w rest =>
    rw [stepDec_eq_decNext hq, Host.Outcome.next.injEq] at h
    subst h
    exact ⟨List.suffix_refl _, rfl, rfl, by simp [decHistory, decNext, hq, decAnswers]⟩

theorem hostMove_sameHistory {s t : State} {m : HostMove} {rest : List HostMove} (hm : s.hostMoves = m :: rest)
    (hreset : ∀ compat tail, m ≠ .reset compat tail)
    (h : hostMoveEffect m { s with hostMoves := rest } = .next t) : SameHistory s t := by
  have hrest : rest <:+ s.hostMoves := hm ▸ List.suffix_cons m rest
  rcases hostMoveEffect_next h with ⟨w, rfl, rfl⟩ | ⟨w, rfl, rfl⟩ | ⟨rfl, ⟨hq, rfl⟩ | ⟨r, q, hq, rfl⟩⟩ |
    ⟨rfl, ⟨hq, rfl⟩ | ⟨r, q, hq, rfl⟩⟩ | ⟨compat, tail, _, hc, _⟩ | ⟨compat, tail, _, rfl, _, _, rfl⟩
  pick_goal 7
  · exact absurd hc (hreset compat tail)
  all_goals exact ⟨hrest, rfl, by simp_all [encHistory, encSends], by simp_all [decHistory, decSends]⟩

theorem step_sameHistory {s t : State} (hs : NoReset s) (h : step s = .next t) : SameHistory s t := by
  rcases step_cases h with ⟨_, rfl⟩ | ⟨_, m, rest, hm, he⟩ | ⟨_, he⟩ | ⟨_, he⟩
  · exact SameHistory.refl t
  · have hreset : ∀ compat tail, m ≠ .reset compat tail :=
      fun compat tail hc => hs compat tail (hm ▸ hc ▸ List.mem_cons_self)
    exact (passTurn_sameHistory s).trans (hostMove_sameHistory hm hreset he)
  · exact (passTurn_sameHistory s).trans (stepEnc_sameHistory he)
  · exact (passTurn_sameHistory s).trans (stepDec_sameHistory he)

theorem run_sameHistory {n : Nat} {s t : State} (hs : NoReset s) (h : core.run n s = .next t) : SameHistory s t :=
  run_induction (P := SameHistory s) (fun _ _ hu hstep => hu.trans (step_sameHistory (hu.noReset hs) hstep)) n s t
    (SameHistory.refl s) h

end Sys2Proof.Machine

namespace Sys2Proof.Claims

open Sys2Proof.Machine

/-! ## Runs from a state just after reset -/

/-- Just after reset every response is still to come, so the encoder's history is the answers to all the host sends it. -/
theorem FreshRun.encHistory_eq {n : Nat} {s t : State} (h : FreshRun n s t) :
    encHistory t = encAnswers false (encSends s.hostMoves) := by
  rw [(run_sameHistory h.noReset h.ran).enc]
  simp [encHistory, h.encNotHalted, h.encCmdEmpty, h.encRspEmpty, h.encNoneTaken]

/-- Just after reset every response is still to come, so the decoder's history is the answers to all the host sends it. -/
theorem FreshRun.decHistory_eq {n : Nat} {s t : State} (h : FreshRun n s t) :
    decHistory t = decAnswers s.cfg false (decSends s.hostMoves) := by
  rw [(run_sameHistory h.noReset h.ran).dec]
  simp [decHistory, h.decNotHalted, h.decCmdEmpty, h.decRspEmpty, h.decNoneTaken]

/-- Settles O44: the responses sent are a prefix of the history, which the run keeps from just after reset; the prefix laws
of the answers are inductions on the commands. -/
theorem responsesDependOnTheUnitsCommandsOnly : Obligations.ResponsesDependOnTheUnitsCommandsOnly := by
  refine ⟨fun n s t hs hrun he hd hec hdc her hdr het hdt => ?_, encAnswers_take, decAnswers_take⟩
  have h : FreshRun n s t := ⟨hs, hrun, he, hd, hec, her, hdc, hdr, het, hdt⟩
  exact ⟨h.encHistory_eq ▸ List.prefix_append _ _, h.decHistory_eq ▸ List.prefix_append _ _⟩

end Sys2Proof.Claims
end

