-- ==== Sys2Proof/Proofs/Malformed.lean ====
section
/-! The malformed words (30_encoding.md R72): the predicates over the bits of a word, as the decoder of command words
rejects them and as numbers, and the step of the unit that takes one. -/

namespace Sys2Proof.Machine

/-! ## What is rejected -/

theorem decodeEnc_error_iff (w : EncWord) : (∃ e, decodeEnc w = .error e) ↔ malformedEnc w = true := by
  rcases decodeEnc_cases w with ⟨hm, e, hd⟩ | ⟨hm, ⟨_, _, hd⟩ | ⟨_, hd⟩ | ⟨_, hd⟩ | ⟨_, hd⟩⟩ <;> simp [hm, hd]

theorem decodeDec_error_iff (w : DecWord) : (∃ e, decodeDec w = .error e) ↔ malformedDec w = true := by
  rcases decodeDec_cases w with ⟨hm, e, hd⟩ | ⟨hm, ⟨_, _, hd⟩ | ⟨_, hd⟩ | ⟨_, hd⟩ | ⟨_, hd⟩ | ⟨_, hd⟩⟩ <;>
    simp [hm, hd]

/-- malformed_enc in arithmetic: RSVD ≠ 0, or CNT = 0 with LAST = 0. -/
theorem malformedEnc_iff_toNat (w : EncWord) : malformedEnc w = true ↔
    (w.toNat / 2 ^ 28 ≠ 0 ∨ (w.toNat / 2 ^ 24 % 4 = 0 ∧ w.toNat / 2 ^ 27 % 2 = 0)) := by
  have := w.isLt
  simp only [malformedEnc, Bool.or_eq_true, Bool.and_eq_true, bne_iff_ne, beq_iff_eq, ne_eq, ← BitVec.toNat_inj,
    slice_toNat, zero_toNat, getElem_eq_decide, decide_eq_false_iff_not]
  omega

/-- malformed_dec in arithmetic: RSVD ≠ 0, or a reserved CNT, or CNT = 0 with LAST = 0. -/
theorem malformedDec_iff_toNat (w : DecWord) : malformedDec w = true ↔
    (w.toNat / 2 ^ 36 ≠ 0 ∨ 5 ≤ w.toNat / 2 ^ 32 % 8 ∨ (w.toNat / 2 ^ 32 % 8 = 0 ∧ w.toNat / 2 ^ 35 % 2 = 0)) := by
  have := w.isLt
  simp only [malformedDec, Bool.or_eq_true, Bool.and_eq_true, bne_iff_ne, beq_iff_eq, ne_eq, ← BitVec.toNat_inj,
    slice_toNat, zero_toNat, getElem_eq_decide, decide_eq_false_iff_not, decide_eq_true_eq]
  omega

/-! ## What a unit does with a rejected word -/

theorem stepEnc_of_error {s : State} {w : EncWord} {rest : List EncWord} {e : Reject} (hq : s.encCmdQ = w :: rest)
    (hd : decodeEnc w = .error e) :
    stepEnc s = .next { s with encCmdQ := rest, encRspQ := s.encRspQ ++ [0x2000000000] } := by
  simp only [stepEnc, hq, hd, rejectEnc_eq]
  rfl

theorem stepDec_of_error {s : State} {w : DecWord} {rest : List DecWord} {e : Reject} (hq : s.decCmdQ = w :: rest)
    (hd : decodeDec w = .error e) :
    stepDec s = .next { s with decCmdQ := rest, decRspQ := s.decRspQ ++ [0x0400000000] } := by
  simp only [stepDec, hq, hd, rejectDec_eq]
  rfl

/-- Settles O4: rejected is malformed, malformed is the rule's arithmetic, and the step of a rejected word sends ERR_CMD. -/
theorem malformedCommandsAnswerErrCmdOnly : Obligations.MalformedCommandsAnswerErrCmdOnly :=
  ⟨fun w => (decodeEnc_error_iff w).trans (malformedEnc_iff_toNat w),
    fun w => (decodeDec_error_iff w).trans (malformedDec_iff_toNat w),
    fun _ _ _ _ => stepEnc_of_error, fun _ _ _ _ => stepDec_of_error⟩

end Sys2Proof.Machine
end

