-- ==== Sys2Proof/Proofs/IgnoredFields.lean ====
section
/-! The ignored fields (30_encoding.md R73): words that agree on the care bits agree on the fields the pseudocode reads, so
they get the same answer; and the agent that moves does not look at the words on a channel. -/

namespace Sys2Proof.Machine

open Sys2Proof.Claims

/-! ## Words that agree under a mask -/

section Masked

variable {n : Nat} {w w' m : BitVec n} (h : w &&& m = w' &&& m)
include h

theorem slice_eq_of_and_eq {lo len : Nat} (hm : m.extractLsb' lo len = BitVec.allOnes len) :
    w.extractLsb' lo len = w'.extractLsb' lo len := by
  have := congrArg (BitVec.extractLsb' lo len) h
  simpa only [BitVec.extractLsb'_and, hm, BitVec.and_allOnes] using this

theorem getElem_eq_of_and_eq {k : Nat} {hk : k < n} (hm : m[k] = true) : w[k] = w'[k] := by
  have := congrArg (·[k]) h
  simpa only [BitVec.getElem_and, hm, Bool.and_true] using this

end Masked

/-! ## The encoder -/

theorem encAnswer_of_halted {w : EncWord} (hm : malformedEnc w = false) :
    encAnswer true w = (encRspWord { disc := true, last := w[27] }, !w[27]) := by
  simp [encAnswer, hm]

/-- The care bits of an encoder word hold RSVD, LAST and CNT whatever its CNT is. -/
theorem enc_header_eq_of_care {w w' : EncWord} (h : w &&& encCareMask w = w' &&& encCareMask w) :
    w.extractLsb' 28 4 = w'.extractLsb' 28 4 ∧ w[27] = w'[27] ∧ w.extractLsb' 24 2 = w'.extractLsb' 24 2 := by
  unfold encCareMask at h
  split_ifs at h <;>
    exact ⟨slice_eq_of_and_eq h (by decide), getElem_eq_of_and_eq h (by decide), slice_eq_of_and_eq h (by decide)⟩

/-- 30_encoding.md R73 for the encoder: the answer reads the care bits only. -/
theorem encAnswer_eq_of_care {w w' : EncWord} (h : w &&& encCareMask w = w' &&& encCareMask w) (halt : Bool) :
    encAnswer halt w = encAnswer halt w' := by
  obtain ⟨hrsvd, hlast, hcnt⟩ := enc_header_eq_of_care h
  have hmal : malformedEnc w = malformedEnc w' := by simp only [malformedEnc, hrsvd, hlast, hcnt]
  rcases decodeEnc_cases w with ⟨hm, -⟩ | ⟨hm, hcases⟩
  · rw [encAnswer_of_malformed hm, encAnswer_of_malformed (hmal ▸ hm)]
  have hm' : malformedEnc w' = false := hmal ▸ hm
  cases halt with
  | true => rw [encAnswer_of_halted hm, encAnswer_of_halted hm', hlast]
  | false =>
    rcases hcases with ⟨hc, -, -⟩ | ⟨hc, -⟩ | ⟨hc, -⟩ | ⟨hc, -⟩ <;> simp only [encCareMask, hc] at h
    · rw [encAnswer_encEnd hm hc, encAnswer_encEnd hm' (hcnt ▸ hc)]
    · rw [encAnswer_enc1 hm hc, encAnswer_enc1 hm' (hcnt ▸ hc), hlast, getElem_eq_of_and_eq (k := 26) h (by decide),
        slice_eq_of_and_eq (lo := 16) h (by decide)]
    · rw [encAnswer_enc2 hm hc, encAnswer_enc2 hm' (hcnt ▸ hc), hlast, getElem_eq_of_and_eq (k := 26) h (by decide),
        slice_eq_of_and_eq (lo := 16) h (by decide), slice_eq_of_and_eq (lo := 8) h (by decide)]
    · rw [encAnswer_enc3 hm hc, encAnswer_enc3 hm' (hcnt ▸ hc), hlast, slice_eq_of_and_eq (lo := 16) h (by decide),
        slice_eq_of_and_eq (lo := 8) h (by decide), slice_eq_of_and_eq (lo := 0) h (by decide)]

/-! ## The decoder -/

/-- The care bits of a decoder word hold RSVD, LAST and CNT whatever its CNT is. -/
theorem dec_header_eq_of_care {w w' : DecWord} (h : w &&& decCareMask w = w' &&& decCareMask w) :
    w.extractLsb' 36 4 = w'.extractLsb' 36 4 ∧ w[35] = w'[35] ∧ w.extractLsb' 32 3 = w'.extractLsb' 32 3 := by
  unfold decCareMask at h
  split_ifs at h <;>
    exact ⟨slice_eq_of_and_eq h (by decide), getElem_eq_of_and_eq h (by decide), slice_eq_of_and_eq h (by decide)⟩

/-- The care bits of a legal decoder word hold its first CNT symbols. -/
theorem dec_symbols_eq_of_care {w w' : DecWord} (h : w &&& decCareMask w = w' &&& decCareMask w)
    (hm : malformedDec w = false) :
    [w.extractLsb' 24 8, w.extractLsb' 16 8, w.extractLsb' 8 8, w.extractLsb' 0 8].take (w.extractLsb' 32 3).toNat =
      [w'.extractLsb' 24 8, w'.extractLsb' 16 8, w'.extractLsb' 8 8, w'.extractLsb' 0 8].take
        (w.extractLsb' 32 3).toNat := by
  rcases decodeDec_cases w with ⟨hm', -⟩ | ⟨-, ⟨hc, -, -⟩ | ⟨hc, -⟩ | ⟨hc, -⟩ | ⟨hc, -⟩ | ⟨hc, -⟩⟩
  · exact absurd hm' (by simp [hm])
  all_goals
    rw [hc]
    simp only [decCareMask, hc] at h
  · rfl
  · rw [slice_eq_of_and_eq (lo := 24) h (by decide)]
    rfl
  · rw [slice_eq_of_and_eq (lo := 24) h (by decide), slice_eq_of_and_eq (lo := 16) h (by decide)]
    rfl
  · rw [slice_eq_of_and_eq (lo := 24) h (by decide), slice_eq_of_and_eq (lo := 16) h (by decide),
      slice_eq_of_and_eq (lo := 8) h (by decide)]
    rfl
  · rw [slice_eq_of_and_eq (lo := 24) h (by decide), slice_eq_of_and_eq (lo := 16) h (by decide),
      slice_eq_of_and_eq (lo := 8) h (by decide), slice_eq_of_and_eq (lo := 0) h (by decide)]

/-- 30_encoding.md R73 for the decoder: the answer reads the care bits only. -/
theorem decAnswer_eq_of_care {w w' : DecWord} (h : w &&& decCareMask w = w' &&& decCareMask w) (cfg : RunConfig)
    (halt : Bool) : decAnswer cfg halt w = decAnswer cfg halt w' := by
  obtain ⟨hrsvd, hlast, hcnt⟩ := dec_header_eq_of_care h
  have hmal : malformedDec w = malformedDec w' := by simp only [malformedDec, hrsvd, hlast, hcnt]
  cases hm : malformedDec w with
  | true => rw [decAnswer_of_malformed hm, decAnswer_of_malformed (hmal ▸ hm)]
  | false =>
    have hsyms := dec_symbols_eq_of_care h hm
    rw [hcnt] at hsyms
    simp only [decAnswer, hmal, hlast, hcnt, hsyms]

/-! ## The step -/

/-- The agent that moves is fixed by which agents can move and whose turn it is. -/
theorem nextAgent_congr {s t : State} (hready : ∀ a, agentReady a s = agentReady a t) (hturn : turnOf s = turnOf t) :
    nextAgent s = nextAgent t := by
  simp only [nextAgent, readyAgents, hready, hturn]

/-- Whether a channel has room does not depend on its oldest word. -/
theorem roomIn_cons_head {α : Type} (a b : α) (q : List α) (d : Nat) : roomIn (a :: q) d = roomIn (b :: q) d := by
  cases d <;> rfl

theorem moveReady_encHead (w w' : EncWord) (rest : List EncWord) (m : HostMove) (s : State) :
    moveReady m { s with encCmdQ := w :: rest } = moveReady m { s with encCmdQ := w' :: rest } := by
  cases m with
  | sendEnc v => exact roomIn_cons_head w w' rest s.cfg.encDepth
  | sendDec v => rfl
  | takeEnc => rfl
  | takeDec => rfl
  | reset compat tail => rfl
  | driveConfig compat tail => rfl

theorem moveReady_decHead (w w' : DecWord) (rest : List DecWord) (m : HostMove) (s : State) :
    moveReady m { s with decCmdQ := w :: rest } = moveReady m { s with decCmdQ := w' :: rest } := by
  cases m with
  | sendDec v => exact roomIn_cons_head w w' rest s.cfg.decDepth
  | sendEnc v => rfl
  | takeEnc => rfl
  | takeDec => rfl
  | reset compat tail => rfl
  | driveConfig compat tail => rfl

theorem nextAgent_encHead (w w' : EncWord) (rest : List EncWord) (s : State) :
    nextAgent { s with encCmdQ := w :: rest } = nextAgent { s with encCmdQ := w' :: rest } := by
  refine nextAgent_congr (fun a => ?_) rfl
  cases a with
  | host => simp only [agentReady, hostReady, moveReady_encHead w w']
  | enc => rfl
  | dec => rfl

theorem nextAgent_decHead (w w' : DecWord) (rest : List DecWord) (s : State) :
    nextAgent { s with decCmdQ := w :: rest } = nextAgent { s with decCmdQ := w' :: rest } := by
  refine nextAgent_congr (fun a => ?_) rfl
  cases a with
  | host => simp only [agentReady, hostReady, moveReady_decHead w w']
  | enc => rfl
  | dec => rfl

/-- The step in which the encoder takes the word w is the pseudocode's answer to w. -/
theorem step_of_encHead {s : State} {w : EncWord} {rest : List EncWord}
    (hn : nextAgent { s with encCmdQ := w :: rest } = some .enc) :
    step { s with encCmdQ := w :: rest } = .next
      (encNext (passTurn { s with encCmdQ := rest }) (encAnswer s.encHalt w).1 (encAnswer s.encHalt w).2) := by
  rw [step_of_nextAgent hn]
  exact stepEnc_eq_encNext (s := passTurn { s with encCmdQ := w :: rest }) rfl

/-- The step in which the decoder takes the word w is the pseudocode's answer to w. -/
theorem step_of_decHead {s : State} {w : DecWord} {rest : List DecWord}
    (hn : nextAgent { s with decCmdQ := w :: rest } = some .dec) :
    step { s with decCmdQ := w :: rest } = .next (decNext (passTurn { s with decCmdQ := rest })
      (decAnswer s.cfg s.decHalt w).1 (decAnswer s.cfg s.decHalt w).2) := by
  rw [step_of_nextAgent hn]
  exact stepDec_eq_decNext (s := passTurn { s with decCmdQ := w :: rest }) rfl

/-- Settles O5: the unit that moves takes either word, and its answer reads the care bits only. -/
theorem ignoredFieldsHaveNoEffect : Obligations.IgnoredFieldsHaveNoEffect := by
  refine ⟨fun s w w' rest hn h => ?_, fun s w w' rest hn h => ?_⟩
  · rw [step_of_encHead hn, step_of_encHead (nextAgent_encHead w w' rest s ▸ hn), encAnswer_eq_of_care h]
  · rw [step_of_decHead hn, step_of_decHead (nextAgent_decHead w w' rest s ▸ hn), decAnswer_eq_of_care h]

end Sys2Proof.Machine
end

