-- ==== Sys2Proof/Proofs/ResponseFormat.lean ====
section
/-! The format of the encoder's responses (30_encoding.md R65): the fields of the response behind each answer of the
pseudocode, and its lanes. -/

namespace Sys2Proof.Machine

open Sys2Proof.Safety

/-! ## Lanes -/

theorem symbolOf_mem_alpha (v : Sextet) : symbolOf v ∈ alpha := by
  rw [symbolOf, List.getD_eq_getElem _ _ (by rw [alpha_length]; exact v.isLt)]
  exact List.getElem_mem _

/-- Legal lanes, lane by lane: a symbol or padding below N, 0x00 from N on. -/
theorem lane_of_encLanesOk {n : Nat} {lanes : List Byte} (h : encLanesOk n lanes = true) {k : Nat} {c : Byte}
    (hk : lanes[k]? = some c) : (k < n → c ∈ alpha ∨ c = padc) ∧ (n ≤ k → c = 0) := by
  simp only [encLanesOk, Bool.and_eq_true, List.all_eq_true, Bool.or_eq_true, decide_eq_true_eq, beq_iff_eq] at h
  obtain ⟨hused, hempty⟩ := h
  refine ⟨fun hlt => hused c ?_, fun hle => hempty c ?_⟩
  · exact List.mem_of_getElem? ((List.getElem?_take_of_lt hlt).trans hk)
  · refine List.mem_of_getElem? (i := k - n) ?_
    rw [List.getElem?_drop, Nat.add_sub_cancel' hle, hk]

/-! ## Responses -/

/-- N is at most 4, the lanes up to N hold symbols or padding, and the later lanes are 0x00. -/
def EncRsp.LanesOk (r : EncRsp) : Prop := r.n.toNat ≤ 4 ∧ encLanesOk r.n.toNat [r.o1, r.o2, r.o3, r.o4] = true

/-- A response that names neither N nor a lane. -/
theorem lanesOk_of_empty (errCmd disc last : Bool) :
    EncRsp.LanesOk { errCmd := errCmd, disc := disc, last := last } := by
  simp [EncRsp.LanesOk, encLanesOk]

theorem rspEnc1_lanesOk (last pd : Bool) (b0 : Byte) : (rspEnc1 last pd b0).LanesOk := by
  cases pd <;> simp [EncRsp.LanesOk, encLanesOk, rspEnc1, symbolOf_mem_alpha]

theorem rspEnc2_lanesOk (last pd : Bool) (b0 b1 : Byte) : (rspEnc2 last pd b0 b1).LanesOk := by
  cases pd <;> simp [EncRsp.LanesOk, encLanesOk, rspEnc2, symbolOf_mem_alpha]

theorem rspEnc3_lanesOk (last : Bool) (b0 b1 b2 : Byte) : (rspEnc3 last b0 b1 b2).LanesOk := by
  simp [EncRsp.LanesOk, encLanesOk, rspEnc3, symbolOf_mem_alpha]

/-- The answer to a command that is processed: no ERR_CMD, no DISC, the command's LAST, legal lanes. -/
theorem encAnswer_processed {w : EncWord} (hm : malformedEnc w = false) :
    ∃ r : EncRsp, (encAnswer false w).1 = encRspWord r ∧ r.errCmd = false ∧ r.disc = false ∧ r.last = w[27] ∧
      r.LanesOk := by
  rcases decodeEnc_cases w with ⟨hm', -⟩ | ⟨-, ⟨hc, hl, -⟩ | ⟨hc, -⟩ | ⟨hc, -⟩ | ⟨hc, -⟩⟩
  · exact absurd hm' (by simp [hm])
  · rw [encAnswer_encEnd hm hc]
    exact ⟨rspEncEnd, rfl, rfl, rfl, hl.symm, lanesOk_of_empty _ _ _⟩
  · rw [encAnswer_enc1 hm hc]
    exact ⟨_, rfl, rfl, rfl, rfl, rspEnc1_lanesOk _ _ _⟩
  · rw [encAnswer_enc2 hm hc]
    exact ⟨_, rfl, rfl, rfl, rfl, rspEnc2_lanesOk _ _ _ _⟩
  · rw [encAnswer_enc3 hm hc]
    exact ⟨_, rfl, rfl, rfl, rfl, rspEnc3_lanesOk _ _ _ _⟩

/-- The status fields and the lanes of every answer: malformed, discarded or processed. -/
theorem encAnswer_fields (halt : Bool) (w : EncWord) :
    ∃ r : EncRsp, (encAnswer halt w).1 = encRspWord r ∧ r.errCmd = malformedEnc w ∧
      (malformedEnc w = true → r = { errCmd := true }) ∧ r.disc = (!malformedEnc w && halt) ∧
      (malformedEnc w = false → r.last = w[27]) ∧ r.LanesOk := by
  cases hm : malformedEnc w with
  | true =>
    rw [encAnswer_of_malformed hm]
    exact ⟨_, rfl, rfl, fun _ => rfl, rfl, nofun, lanesOk_of_empty _ _ _⟩
  | false =>
    cases halt with
    | true =>
      rw [encAnswer_of_halted hm]
      exact ⟨_, rfl, rfl, nofun, rfl, fun _ => rfl, lanesOk_of_empty _ _ _⟩
    | false =>
      obtain ⟨r, hr, herr, hdisc, hlast, hlanes⟩ := encAnswer_processed hm
      exact ⟨r, hr, herr, nofun, hdisc, fun _ => hlast, hlanes⟩

/-- Settles O16: the response is the pseudocode's answer, its bits are the fields of that answer, and its lanes are legal. -/
theorem encoderResponsesHaveTheirFormat : Obligations.EncoderResponsesHaveTheirFormat := by
  intro s w rest hq
  obtain ⟨r, hr, herr, hmal, hdisc, hlast, hn, hlanes⟩ := encAnswer_fields s.encHalt w
  obtain ⟨ftop, ferr, fdisc, flast, fcount, flanes⟩ := encRspWord_fields r
  refine ⟨_, encRspWord r, stepEnc_eq_encNext hq, by rw [← hr]; rfl, ftop, ?_, ?_, ?_, ?_, ?_, ?_⟩
  · rw [ferr, herr]
  · intro h
    rw [hmal (herr ▸ ferr ▸ h)]
    rfl
  · rw [fdisc, hdisc, Bool.and_eq_true, Bool.not_eq_true']
  · intro h
    rw [flast, hlast h]
  · exact fcount ▸ hn
  · rw [fcount, flanes]
    exact fun _ _ => lane_of_encLanesOk hlanes

end Sys2Proof.Machine
end

