-- ==== Sys2Proof/Proofs/Expansions.lean ====
section
/-! The expansions of ENCODE and DECODE (30_encoding.md R76): full groups, then one final command for what is left. -/

namespace Sys2Proof.Machine

/-! ## Full groups -/

/-- Command k of the list carries the k-th group of g bytes of the buffer. -/
def CarriesGroups (g : Nat) (buf : List Byte) (full : List Instr) : Prop :=
  ∀ k < full.length, (full[k]?).map Instr.lanes = some ((buf.drop (g * k)).take g)

theorem carriesGroups_nil (g : Nat) (buf : List Byte) : CarriesGroups g buf [] :=
  fun _ hk => absurd hk (Nat.not_lt_zero _)

/-- One more full group in front of the buffer, carried by one more command in front of the list. -/
theorem carriesGroups_cons {buf : List Byte} {full : List Instr} (i : Instr)
    (h : CarriesGroups i.lanes.length buf full) : CarriesGroups i.lanes.length (i.lanes ++ buf) (i :: full) := by
  intro k hk
  cases k with
  | zero => simp
  | succ k =>
    rw [List.getElem?_cons_succ, h k (Nat.lt_of_succ_lt_succ hk), Nat.mul_succ, Nat.add_comm,
      List.drop_length_add_append]

/-! ## ENCODE -/

/-- The final command of ENCODE: the last 1 to 3 bytes, with LAST, and with PD as NP says. -/
def FinalEncode (np : Bool) (left : List Byte) (final : Instr) : Prop :=
  (∃ a, left = [a] ∧ final = .enc1 true np a) ∨ (∃ a b, left = [a, b] ∧ final = .enc2 true np a b) ∨
    (∃ a b c, left = [a, b, c] ∧ final = .enc3 true np a b c)

/-- A list of commands is the ENCODE of the buffer: `full` its full groups, then `final` (30_encoding.md R76). -/
structure EncodeSplit (np : Bool) (buf : List Byte) (full : List Instr) (final : Instr) : Prop where
  count : full.length = (buf.length - 1) / 3
  isFull : ∀ i ∈ full, ∃ a b c, i = .enc3 false false a b c
  carried : CarriesGroups 3 buf full
  rest : FinalEncode np (buf.drop (3 * full.length)) final

/-- A buffer of at most one group is its final command alone. -/
theorem EncodeSplit.of_final {np : Bool} {buf : List Byte} {final : Instr} (hlen : buf.length ≤ 3)
    (h : FinalEncode np buf final) : EncodeSplit np buf [] final where
  count := by rw [List.length_nil]; omega
  isFull := List.forall_mem_nil _
  carried := carriesGroups_nil 3 buf
  rest := h

theorem EncodeSplit.cons {np : Bool} {buf : List Byte} {full : List Instr} {final : Instr}
    (h : EncodeSplit np buf full final) (hne : buf ≠ []) (b0 b1 b2 : Byte) :
    EncodeSplit np (b0 :: b1 :: b2 :: buf) (.enc3 false false b0 b1 b2 :: full) final where
  count := by
    have hpos := List.length_pos_iff.2 hne
    simp only [List.length_cons, h.count]
    omega
  isFull := List.forall_mem_cons.2 ⟨⟨b0, b1, b2, rfl⟩, h.isFull⟩
  carried := carriesGroups_cons (.enc3 false false b0 b1 b2) h.carried
  rest := h.rest

theorem expandEncode_split (np : Bool) (buf : List Byte) (hne : buf ≠ []) :
    ∃ full final, expandEncode np buf = full ++ [final] ∧ EncodeSplit np buf full final := by
  fun_induction expandEncode np buf with
  | case1 => exact absurd rfl hne
  | case2 b0 => exact ⟨[], _, rfl, .of_final (by simp) (.inl ⟨b0, rfl, rfl⟩)⟩
  | case3 b0 b1 => exact ⟨[], _, rfl, .of_final (by simp) (.inr (.inl ⟨b0, b1, rfl, rfl⟩))⟩
  | case4 b0 b1 b2 => exact ⟨[], _, rfl, .of_final (by simp) (.inr (.inr ⟨b0, b1, b2, rfl, rfl⟩))⟩
  | case5 b0 b1 b2 b3 rest ih =>
    obtain ⟨full, final, heq, hsplit⟩ := ih (List.cons_ne_nil b3 rest)
    exact ⟨_, final, congrArg (_ :: ·) heq, hsplit.cons (List.cons_ne_nil b3 rest) b0 b1 b2⟩

/-! ## DECODE -/

/-- The final command of DECODE: the last 1 to 4 symbols, with LAST. -/
def FinalDecode (left : List Byte) (final : Instr) : Prop :=
  (∃ a, left = [a] ∧ final = .dec1 true a) ∨ (∃ a b, left = [a, b] ∧ final = .dec2 true a b) ∨
    (∃ a b c, left = [a, b, c] ∧ final = .dec3 true a b c) ∨
    (∃ a b c d, left = [a, b, c, d] ∧ final = .dec4 true a b c d)

/-- A list of commands is the DECODE of the text: `full` its full groups, then `final` (30_encoding.md R76). -/
structure DecodeSplit (txt : List Byte) (full : List Instr) (final : Instr) : Prop where
  count : full.length = (txt.length - 1) / 4
  isFull : ∀ i ∈ full, ∃ a b c d, i = .dec4 false a b c d
  carried : CarriesGroups 4 txt full
  rest : FinalDecode (txt.drop (4 * full.length)) final

/-- A text of at most one group is its final command alone. -/
theorem DecodeSplit.of_final {txt : List Byte} {final : Instr} (hlen : txt.length ≤ 4) (h : FinalDecode txt final) :
    DecodeSplit txt [] final where
  count := by rw [List.length_nil]; omega
  isFull := List.forall_mem_nil _
  carried := carriesGroups_nil 4 txt
  rest := h

theorem DecodeSplit.cons {txt : List Byte} {full : List Instr} {final : Instr} (h : DecodeSplit txt full final)
    (hne : txt ≠ []) (s1 s2 s3 s4 : Byte) :
    DecodeSplit (s1 :: s2 :: s3 :: s4 :: txt) (.dec4 false s1 s2 s3 s4 :: full) final where
  count := by
    have hpos := List.length_pos_iff.2 hne
    simp only [List.length_cons, h.count]
    omega
  isFull := List.forall_mem_cons.2 ⟨⟨s1, s2, s3, s4, rfl⟩, h.isFull⟩
  carried := carriesGroups_cons (.dec4 false s1 s2 s3 s4) h.carried
  rest := h.rest

theorem expandDecode_split (txt : List Byte) (hne : txt ≠ []) :
    ∃ full final, expandDecode txt = full ++ [final] ∧ DecodeSplit txt full final := by
  fun_induction expandDecode txt with
  | case1 => exact absurd rfl hne
  | case2 s1 => exact ⟨[], _, rfl, .of_final (by simp) (.inl ⟨s1, rfl, rfl⟩)⟩
  | case3 s1 s2 => exact ⟨[], _, rfl, .of_final (by simp) (.inr (.inl ⟨s1, s2, rfl, rfl⟩))⟩
  | case4 s1 s2 s3 => exact ⟨[], _, rfl, .of_final (by simp) (.inr (.inr (.inl ⟨s1, s2, s3, rfl, rfl⟩)))⟩
  | case5 s1 s2 s3 s4 =>
    exact ⟨[], _, rfl, .of_final (by simp) (.inr (.inr (.inr ⟨s1, s2, s3, s4, rfl, rfl⟩)))⟩
  | case6 s1 s2 s3 s4 s5 rest ih =>
    obtain ⟨full, final, heq, hsplit⟩ := ih (List.cons_ne_nil s5 rest)
    exact ⟨_, final, congrArg (_ :: ·) heq, hsplit.cons (List.cons_ne_nil s5 rest) s1 s2 s3 s4⟩

/-- Settles O48: the empty buffers by definition, the others by the recursion of the expansions, one full group at a time. -/
theorem pseudoInstructionsCarryTheBuffer : Obligations.PseudoInstructionsCarryTheBuffer := by
  refine ⟨fun _ => rfl, rfl, fun np buf hne => ?_, fun txt hne => ?_⟩
  · obtain ⟨full, final, heq, h⟩ := expandEncode_split np buf hne
    exact ⟨full, final, heq, h.count, h.isFull, h.carried, h.rest⟩
  · obtain ⟨full, final, heq, h⟩ := expandDecode_split txt hne
    exact ⟨full, final, heq, h.count, h.isFull, h.carried, h.rest⟩

end Sys2Proof.Machine
end

