-- ==== Sys2Proof/Proofs/SampleWords.lean ====
section
/-! The ten sample words of 30_encoding.md R77. -/

namespace Sys2Proof.Machine

/-- Settles O1: each of the twenty readings is computed. -/
theorem sampleWordsEncodeAndDecode : Obligations.SampleWordsEncodeAndDecode := by
  unfold Obligations.SampleWordsEncodeAndDecode
  decide

end Sys2Proof.Machine
end

