-- ==== Sys2Proof/Proofs/SymbolLookup.lean ====
section
/-! The decoder's symbol mapper (40_symbol_lut.md R101 to R103): lookup inverts symbolOf on ALPHA, and the class of every
code follows from the closed form of ALPHA. -/

namespace Sys2Proof.Machine

open Sys2Proof.Claims

/-! ## ALPHA as the image of symbolOf -/

theorem symbolOf_eq_getElem (v : Sextet) : symbolOf v = alpha[v.toNat]'(alpha_length ▸ v.isLt) :=
  List.getD_eq_getElem _ _ _

/-- 10_state.md R23: no code stands twice in ALPHA. -/
theorem symbolOf_injective : Function.Injective symbolOf := by
  intro v w h
  have hcode : (symbolOf v).toNat = (symbolOf w).toNat := congrArg _ h
  have hv := v.isLt
  have hw := w.isLt
  rw [symbolOf_toNat, symbolOf_toNat] at hcode
  apply BitVec.eq_of_toNat_eq
  split_ifs at hcode <;> omega

theorem mem_alpha_iff {c : Byte} : c ∈ alpha ↔ ∃ v, symbolOf v = c := by
  constructor
  · intro h
    obtain ⟨k, hk, rfl⟩ := List.mem_iff_getElem.1 h
    refine ⟨BitVec.ofNatLT k hk, ?_⟩
    rw [symbolOf_eq_getElem]
    rfl
  · rintro ⟨v, rfl⟩
    exact symbolOf_mem_alpha v

theorem alpha_nodup : alpha.Nodup := by
  have himage : alpha = List.ofFn fun i : Fin 64 => symbolOf (BitVec.ofFin i) :=
    List.ext_getElem (by simp [alpha_length]) fun k _ _ => by
      rw [List.getElem_ofFn, symbolOf_eq_getElem]
      rfl
  rw [himage, List.nodup_ofFn]
  exact fun i j h => BitVec.ofFin.inj (symbolOf_injective h)

/-! ## The three outcomes of lookup -/

/-- The model's search is the library's. -/
theorem indexOfCode_eq_idxOf? (c : Byte) (l : List Byte) : indexOfCode c l = l.idxOf? c := by
  induction l with
  | nil => rfl
  | cons a l ih => simp only [indexOfCode, List.idxOf?_cons, ih, beq_iff_eq]

theorem indexOfCode_symbolOf (v : Sextet) : indexOfCode (symbolOf v) alpha = some v.toNat := by
  rw [indexOfCode_eq_idxOf?, List.idxOf?_eq_some_iff]
  refine ⟨alpha_length ▸ v.isLt, (symbolOf_eq_getElem v).symm, fun j hj heq => ?_⟩
  rw [symbolOf_eq_getElem, alpha_nodup.getElem_inj_iff] at heq
  omega

@[simp] theorem lookup_symbolOf (v : Sextet) : lookup (symbolOf v) = .valid v := by
  simp [lookup, indexOfCode_symbolOf]

theorem lookup_of_notMem_alpha {c : Byte} (h : c ∉ alpha) : lookup c = if c = padc then .pad else .invalid := by
  have hnone : indexOfCode c alpha = none := by rw [indexOfCode_eq_idxOf?, List.idxOf?_eq_none_iff.2 h]
  simp only [lookup, hnone]

@[simp] theorem lookup_padc : lookup padc = .pad := by
  rw [lookup_of_notMem_alpha padc_notMem_alpha, if_pos rfl]

theorem lookup_eq_valid_iff {c : Byte} {v : Sextet} : lookup c = .valid v ↔ symbolOf v = c := by
  constructor
  · intro h
    by_cases hc : c ∈ alpha
    · obtain ⟨w, rfl⟩ := mem_alpha_iff.1 hc
      rw [lookup_symbolOf, SymClass.valid.injEq] at h
      rw [h]
    · rw [lookup_of_notMem_alpha hc] at h
      split at h <;> cases h
  · rintro rfl
    exact lookup_symbolOf v

theorem lookup_eq_pad_iff {c : Byte} : lookup c = .pad ↔ c = padc := by
  constructor
  · intro h
    by_contra hpad
    by_cases hc : c ∈ alpha
    · obtain ⟨w, rfl⟩ := mem_alpha_iff.1 hc
      simp at h
    · simp [lookup_of_notMem_alpha hc, hpad] at h
  · rintro rfl
    exact lookup_padc

theorem lookup_eq_invalid_iff {c : Byte} : lookup c = .invalid ↔ c ∉ alpha ∧ c ≠ padc := by
  constructor
  · intro h
    refine ⟨fun hc => ?_, ?_⟩
    · obtain ⟨w, rfl⟩ := mem_alpha_iff.1 hc
      simp at h
    · rintro rfl
      simp at h
  · rintro ⟨hc, hpad⟩
    rw [lookup_of_notMem_alpha hc, if_neg hpad]

/-- Settles O7: both directions are the characterisation of the VALID outcome. -/
theorem lookupInvertsSymbolOf : Obligations.LookupInvertsSymbolOf :=
  ⟨lookup_symbolOf, fun _ _ => lookup_eq_valid_iff.1⟩

/-! ## The class of every code -/

theorem isValid_iff {c : Byte} : isValid c = true ↔ c ∈ alpha := by
  by_cases hc : c ∈ alpha
  · obtain ⟨v, rfl⟩ := mem_alpha_iff.1 hc
    simp [isValid, hc]
  · rw [isValid, lookup_of_notMem_alpha hc]
    split_ifs <;> simp [hc]

/-- 40_symbol_lut.md R102, the table: the rows of VALID codes are the pieces of the closed form of ALPHA. -/
theorem lookup_eq_table (c : Byte) : lookup c =
    if 0x41 ≤ c.toNat ∧ c.toNat ≤ 0x5A then .valid (BitVec.ofNat 6 (c.toNat - 0x41))
    else if 0x61 ≤ c.toNat ∧ c.toNat ≤ 0x7A then .valid (BitVec.ofNat 6 (c.toNat - 0x47))
    else if 0x30 ≤ c.toNat ∧ c.toNat ≤ 0x39 then .valid (BitVec.ofNat 6 (c.toNat + 4))
    else if c.toNat = 0x2B then .valid 62
    else if c.toNat = 0x2F then .valid 63
    else if c.toNat = 0x3D then .pad
    else .invalid := by
  have hvalid {v : Sextet} (h : (symbolOf v).toNat = c.toNat) : lookup c = .valid v :=
    lookup_eq_valid_iff.2 (BitVec.eq_of_toNat_eq h)
  simp only [symbolOf_toNat] at hvalid
  split_ifs with hupper hlower hdigit hplus hslash hpad
  · exact hvalid (by rw [BitVec.toNat_ofNat, Nat.mod_eq_of_lt (by omega), if_pos (by omega)]; omega)
  · exact hvalid (by
      rw [BitVec.toNat_ofNat, Nat.mod_eq_of_lt (by omega), if_neg (by omega), if_pos (by omega)]; omega)
  · exact hvalid (by
      rw [BitVec.toNat_ofNat, Nat.mod_eq_of_lt (by omega), if_neg (by omega), if_neg (by omega), if_pos (by omega)]
      omega)
  · exact hvalid hplus.symm
  · exact hvalid hslash.symm
  · exact lookup_eq_pad_iff.2 (BitVec.eq_of_toNat_eq hpad)
  · refine lookup_eq_invalid_iff.2 ⟨fun hc => ?_, fun heq => hpad (congrArg BitVec.toNat heq)⟩
    obtain ⟨v, rfl⟩ := mem_alpha_iff.1 hc
    have hv := v.isLt
    have hcode := symbolOf_toNat v
    split_ifs at hcode <;> omega

/-! ## How many codes each class holds -/

/-- A class whose codes are those of a list without repetition holds as many as the list. -/
theorem count_codes_of_list {p : Byte → Bool} {codes : List Byte} (hnodup : codes.Nodup)
    (h : ∀ c, p c = true ↔ c ∈ codes) :
    ((List.range 256).filter (fun n => p (BitVec.ofNat 8 n))).length = codes.length := by
  have hperm : ((List.range 256).filter (fun n => p (BitVec.ofNat 8 n))).Perm (codes.map BitVec.toNat) := by
    refine (List.perm_ext_iff_of_nodup (List.nodup_range.filter _)
      (hnodup.map fun _ _ => BitVec.eq_of_toNat_eq)).2 fun n => ?_
    simp only [List.mem_filter, List.mem_range, List.mem_map, h]
    constructor
    · rintro ⟨hn, hc⟩
      exact ⟨_, hc, by rw [BitVec.toNat_ofNat, Nat.mod_eq_of_lt hn]⟩
    · rintro ⟨c, hc, rfl⟩
      exact ⟨c.isLt, by rwa [BitVec.ofNat_toNat, BitVec.setWidth_eq]⟩
  rw [hperm.length_eq, List.length_map]

theorem count_valid_codes : ((List.range 256).filter (fun n => isValid (BitVec.ofNat 8 n))).length = 64 :=
  (count_codes_of_list alpha_nodup fun _ => isValid_iff).trans alpha_length

theorem count_pad_codes : ((List.range 256).filter (fun n => lookup (BitVec.ofNat 8 n) == .pad)).length = 1 :=
  count_codes_of_list (p := fun c => lookup c == .pad) (List.nodup_singleton padc) fun c => by
    rw [beq_iff_eq, lookup_eq_pad_iff, List.mem_singleton]

/-- The codes that are not INVALID are PADC and the entries of ALPHA. -/
theorem count_invalid_codes :
    ((List.range 256).filter (fun n => lookup (BitVec.ofNat 8 n) == .invalid)).length = 191 := by
  have hrest : ((List.range 256).filter (fun n => !(lookup (BitVec.ofNat 8 n) == .invalid))).length = 65 := by
    refine count_codes_of_list (p := fun c => !(lookup c == .invalid))
      (List.nodup_cons.2 ⟨padc_notMem_alpha, alpha_nodup⟩) fun c => ?_
    rw [Bool.not_eq_true', beq_eq_false_iff_ne, ne_eq, lookup_eq_invalid_iff, List.mem_cons]
    tauto
  have hall := List.length_eq_length_filter_add (l := List.range 256) fun n => lookup (BitVec.ofNat 8 n) == .invalid
  rw [hrest, List.length_range] at hall
  omega

/-- Settles O8: the table, and the three counts from the lists of the VALID and PAD codes. -/
theorem lookupClassifiesEveryCode : Obligations.LookupClassifiesEveryCode :=
  ⟨lookup_eq_table, count_valid_codes, count_pad_codes, count_invalid_codes⟩

end Sys2Proof.Machine
end

