-- ==== Sys2Proof/Proofs/EncoderCommands.lean ====
section
/-! The encoder's commands, said once (41_encode.md R121, R122, R127): the response of each, the one equation for a command
that is processed and the one for a command that is discarded, and the pseudocode's answer to the word of each. -/

namespace Sys2Proof.Machine

open Sys2Proof.Claims

/-! ## What a command answers -/

/-- The response of a processed encoder command (41_encode.md R122 to R125); the decoder's commands have none. -/
def encRspOf : Instr → EncRsp
  | .encEnd => rspEncEnd
  | .enc1 last pd b0 => rspEnc1 last pd b0
  | .enc2 last pd b0 b1 => rspEnc2 last pd b0 b1
  | .enc3 last _ b0 b1 b2 => rspEnc3 last b0 b1 b2
  | .decEnd | .dec1 .. | .dec2 .. | .dec3 .. | .dec4 .. => {}

/-- A partial group ends its stream's data (41_encode.md R127). -/
def endsEncData (i : Instr) : Bool := i.count == 1 || i.count == 2

theorem exec_enc_eq_processEnc {i : Instr} (hi : i.agent = .enc) (s : State) :
    exec i s = .next (processEnc i.last (endsEncData i) (encRspOf i) s) := by
  cases i with
  | encEnd | enc1 | enc2 | enc3 => rfl
  | decEnd | dec1 | dec2 | dec3 | dec4 => cases hi

/-- A processed encoder command sends its response and writes the halt bit of R127; nothing else changes. -/
theorem exec_enc_processed {i : Instr} {s : State} (hi : i.agent = .enc) (hs : s.encHalt = false) :
    exec i s = .next (encNext s (encRspWord (encRspOf i)) (haltAfter i.last (endsEncData i))) := by
  simp [exec_enc_eq_processEnc hi, processEnc_eq, hs, encNext, haltAfter]

/-- A discarded encoder command sends DISC with LAST echoed, and LAST = 1 clears the halt bit; nothing else changes. -/
theorem exec_enc_discarded {i : Instr} {s : State} (hi : i.agent = .enc) (hs : s.encHalt = true) :
    exec i s = .next (encNext s (encRspWord { disc := true, last := i.last }) (!i.last)) := by
  simp [exec_enc_eq_processEnc hi, processEnc_eq, hs, encNext]

/-- The pseudocode's answer to the word of a command that is processed. -/
theorem encAnswer_of_decodeEnc {w : EncWord} {i : Instr} (h : decodeEnc w = .ok i) :
    encAnswer false w = (encRspWord (encRspOf i), haltAfter i.last (endsEncData i)) := by
  rcases decodeEnc_cases w with ⟨-, e, hd⟩ | ⟨hm, ⟨hc, -, hd⟩ | ⟨hc, hd⟩ | ⟨hc, hd⟩ | ⟨hc, hd⟩⟩ <;>
    cases hd.symm.trans h
  · exact encAnswer_encEnd hm hc
  · exact encAnswer_enc1 hm hc
  · exact encAnswer_enc2 hm hc
  · exact encAnswer_enc3 hm hc

/-! ## The statements on halting and on the step -/

theorem decodeEnc_of_cnt_zero {w : EncWord} (hr : w.extractLsb' 28 4 = 0) (hc : w.extractLsb' 24 2 = 0)
    (hl : w[27] = true) : decodeEnc w = .ok .encEnd := by
  simp [decodeEnc, encFields, hr, hc, hl]

/-- Settles O9: ENC.END's case of the decoder, and of the two equations for a command. -/
theorem encEndClosesTheStream : Obligations.EncEndClosesTheStream :=
  ⟨fun _ => decodeEnc_of_cnt_zero, fun _ => exec_enc_processed (i := .encEnd) rfl,
    fun _ => exec_enc_discarded (i := .encEnd) rfl⟩

/-- Settles O14: the two equations for a command, with R127's halt bit read as a proposition. -/
theorem partialGroupHaltsTheEncoder : Obligations.PartialGroupHaltsTheEncoder := by
  refine fun i s hi => ⟨fun hs => ⟨encRspWord (encRspOf i), ?_⟩, fun hs => ?_⟩
  · have hhalt : haltAfter i.last (endsEncData i) = decide (i.last = false ∧ (i.count = 1 ∨ i.count = 2)) := by
      rw [Bool.eq_iff_iff]
      simp [haltAfter, endsEncData]
    rw [exec_enc_processed hi hs, hhalt]
  · rw [exec_enc_discarded hi hs]
    cases i.last <;> rfl

theorem encReady_iff (s : State) : encReady s = true ↔ (s.encCmdQ ≠ [] ∧ s.encRspQ.length < s.cfg.encDepth) := by
  simp [encReady, roomIn_iff]

/-- Settles O15: the enabling condition, and the step as the pseudocode's answer to the oldest word. -/
theorem encoderStepIsItsPseudocode : Obligations.EncoderStepIsItsPseudocode :=
  ⟨encReady_iff, fun _ _ _ => stepEnc_eq_encNext⟩

end Sys2Proof.Machine
end

