-- ==== Sys2Proof/Proofs/EncoderGroups.lean ====
section
/-! The symbols of ENC3, ENC2 and ENC1 in arithmetic (41_encode.md R123 to R125): each index, a slice of the group in the
model, is a digit of the group's number. -/

namespace Sys2Proof.Machine

open Sys2Proof.Claims

/-! ## Indices as numbers -/

theorem symbolOf_eq_symbolAt {v : Sextet} {n : Nat} (h : v.toNat = n) : symbolOf v = symbolAt n := by
  rw [symbolAt, ← h, BitVec.ofNat_toNat, BitVec.setWidth_eq]

/-- A slice of 6 bits selects the symbol of a digit; `symbolAt` drops the higher digits. -/
theorem symbolOf_slice {n : Nat} (w : BitVec n) (lo : Nat) :
    symbolOf (w.extractLsb' lo 6) = symbolAt (w.toNat / 2 ^ lo) := by
  rw [symbolAt, BitVec.extractLsb', Nat.shiftRight_eq_div_pow]

theorem groupNat_eq_group_toNat (b0 b1 b2 : Byte) : groupNat b0 b1 b2 = (group b0 b1 b2).toNat := by
  rw [group_toNat, groupNat]
  omega

theorem symbolAt_mem_alpha (n : Nat) : symbolAt n ∈ alpha := symbolOf_mem_alpha _

theorem ne_padc_of_mem_alpha {c : Byte} (h : c ∈ alpha) : c ≠ padc := fun hc => padc_notMem_alpha (hc ▸ h)

/-- The symbols of an index whose 4 low bits are 0 are A, Q, g and w (41_encode.md R125). -/
theorem symbolAt_mul_16_mem : ∀ k < 4, symbolAt (k * 16) ∈ ([0x41, 0x51, 0x67, 0x77] : List Byte) := by decide

/-! ## The responses -/

theorem symbol1_eq (b0 : Byte) : symbolOf (b0.extractLsb' 2 6) = symbolAt (b0.toNat / 4) := symbolOf_slice b0 2

theorem rspEnc3_eq (last : Bool) (b0 b1 b2 : Byte) : rspEnc3 last b0 b1 b2 =
    { last := last, n := 4,
      o1 := symbolAt (groupNat b0 b1 b2 / 2 ^ 18), o2 := symbolAt (groupNat b0 b1 b2 / 2 ^ 12),
      o3 := symbolAt (groupNat b0 b1 b2 / 2 ^ 6), o4 := symbolAt (groupNat b0 b1 b2) } := by
  simp only [rspEnc3, symbolOf_slice, groupNat_eq_group_toNat, Nat.pow_zero, Nat.div_one]

theorem rspEnc2_eq (last pd : Bool) (b0 b1 : Byte) : rspEnc2 last pd b0 b1 =
    { last := last, n := if pd then 3 else 4, o1 := symbolAt (b0.toNat / 4),
      o2 := symbolAt (b0.toNat % 4 * 16 + b1.toNat / 16), o3 := symbolAt (b1.toNat % 16 * 4),
      o4 := if pd then 0 else padc } := by
  have hb1 := b1.isLt
  have h2 : symbolOf (b0.extractLsb' 0 2 ++ b1.extractLsb' 4 4) = symbolAt (b0.toNat % 4 * 16 + b1.toNat / 16) :=
    symbolOf_eq_symbolAt ((append_toNat _ _).trans (by rw [slice_toNat, slice_toNat]; omega))
  have h3 : symbolOf (b1.extractLsb' 0 4 ++ (0 : BitVec 2)) = symbolAt (b1.toNat % 16 * 4) :=
    symbolOf_eq_symbolAt ((append_toNat _ _).trans (by rw [slice_toNat, zero_toNat]; omega))
  rw [rspEnc2, symbol1_eq, h2, h3]

theorem rspEnc1_eq (last pd : Bool) (b0 : Byte) : rspEnc1 last pd b0 =
    { last := last, n := if pd then 2 else 4, o1 := symbolAt (b0.toNat / 4), o2 := symbolAt (b0.toNat % 4 * 16),
      o3 := if pd then 0 else padc, o4 := if pd then 0 else padc } := by
  have h2 : symbolOf (b0.extractLsb' 0 2 ++ (0 : BitVec 4)) = symbolAt (b0.toNat % 4 * 16) :=
    symbolOf_eq_symbolAt ((append_toNat _ _).trans (by rw [slice_toNat, zero_toNat]; omega))
  rw [rspEnc1, symbol1_eq, h2]

/-! ## The commands -/

theorem exec_enc3 {s : State} (hs : s.encHalt = false) (last pd : Bool) (b0 b1 b2 : Byte) :
    exec (.enc3 last pd b0 b1 b2) s = .next (encNext s (encRspWord (rspEnc3 last b0 b1 b2)) false) := by
  rw [exec_enc_processed rfl hs]
  cases last <;> rfl

theorem exec_enc2 {s : State} (hs : s.encHalt = false) (last pd : Bool) (b0 b1 : Byte) :
    exec (.enc2 last pd b0 b1) s = .next (encNext s (encRspWord (rspEnc2 last pd b0 b1)) (!last)) := by
  rw [exec_enc_processed rfl hs]
  cases last <;> rfl

theorem exec_enc1 {s : State} (hs : s.encHalt = false) (last pd : Bool) (b0 : Byte) :
    exec (.enc1 last pd b0) s = .next (encNext s (encRspWord (rspEnc1 last pd b0)) (!last)) := by
  rw [exec_enc_processed rfl hs]
  cases last <;> rfl

/-- Settles O10: the symbols of ENC3 as digits of G, and the corner cases computed. -/
theorem enc3EncodesThreeBytes : Obligations.Enc3EncodesThreeBytes := by
  refine ⟨fun w hr hc => ?_, fun s last pd b0 b1 b2 hs => ?_,
    fun n => ⟨symbolAt_mem_alpha n, ne_padc_of_mem_alpha (symbolAt_mem_alpha n)⟩, fun s hs => ?_⟩
  · simp [decodeEnc, encFields, hr, hc]
  · rw [exec_enc3 hs, rspEnc3_eq]
  · simp only [exec_enc3 hs]
    exact ⟨rfl, rfl, rfl⟩

/-- Settles O11: the symbols of ENC2 as numbers, for either PD, and the corner cases computed. -/
theorem enc2EncodesTwoBytes : Obligations.Enc2EncodesTwoBytes := by
  refine ⟨fun w hr hc => ?_, fun s last b0 b1 hs => ?_, fun s hs => ?_⟩
  · simp [decodeEnc, encFields, hr, hc]
  · simp only [exec_enc2 hs, rspEnc2_eq]
    exact ⟨rfl, rfl⟩
  · simp only [exec_enc2 hs]
    exact ⟨rfl, rfl, rfl, rfl, rfl⟩

/-- Settles O12: the symbols of ENC1 as numbers, for either PD, and the corner cases computed. -/
theorem enc1EncodesOneByte : Obligations.Enc1EncodesOneByte := by
  refine ⟨fun w hr hc => ?_, fun s last b0 hs => ?_, fun s hs => ?_⟩
  · simp [decodeEnc, encFields, hr, hc]
  · simp only [exec_enc1 hs, rspEnc1_eq]
    exact ⟨rfl, rfl, symbolAt_mul_16_mem _ (Nat.mod_lt _ (by decide))⟩
  · simp only [exec_enc1 hs]
    exact ⟨rfl, rfl, rfl, rfl, rfl⟩

end Sys2Proof.Machine
end

