-- ==== Sys2Proof/Proofs/EncodedText.lean ====
section
/-! The text of the encoder's responses (30_encoding.md R66; 41_encode.md R126, R129): the symbols a command emits, and the
padding behind them. -/

namespace Sys2Proof.Machine

open Sys2Proof.Claims

/-! ## The text of a response -/

/-- The symbols a response emits: its first N lanes (30_encoding.md R65). -/
def EncRsp.text (r : EncRsp) : List Byte := [r.o1, r.o2, r.o3, r.o4].take r.n.toNat

theorem encRspCount_encRspWord (r : EncRsp) : encRspCount (encRspWord r) = r.n.toNat := by
  obtain ⟨-, -, -, -, hcount, -⟩ := encRspWord_fields r
  exact hcount

theorem encRspLanes_encRspWord (r : EncRsp) : encRspLanes (encRspWord r) = [r.o1, r.o2, r.o3, r.o4] := by
  obtain ⟨-, -, -, -, -, hlanes⟩ := encRspWord_fields r
  exact hlanes

theorem encText_map_encRspWord (rs : List EncRsp) : encText (rs.map encRspWord) = rs.flatMap EncRsp.text := by
  simp only [encText, List.flatMap_map, encRspCount_encRspWord, encRspLanes_encRspWord]
  rfl

theorem encText_singleton (r : EncRsp) : encText [encRspWord r] = r.text :=
  (encText_map_encRspWord [r]).trans (List.append_nil _)

/-! ## Symbols, then padding -/

/-- The text is k alphabet codes and then p times `=`. -/
def SymbolsThenPads (txt : List Byte) (k p : Nat) : Prop :=
  ∃ body, txt = body ++ List.replicate p padc ∧ (∀ c ∈ body, c ∈ alpha) ∧ body.length = k

theorem symbolsThenPads_map (vs : List Sextet) (p : Nat) :
    SymbolsThenPads (vs.map symbolOf ++ List.replicate p padc) vs.length p :=
  ⟨_, rfl, by simp [symbolOf_mem_alpha], List.length_map _⟩

theorem SymbolsThenPads.length_eq {txt : List Byte} {k p : Nat} (h : SymbolsThenPads txt k p) : txt.length = k + p := by
  obtain ⟨body, rfl, -, rfl⟩ := h
  rw [List.length_append, List.length_replicate]

/-- `=` is no alphabet code, so the padding is all the `=` there is. -/
theorem SymbolsThenPads.split {txt : List Byte} {k p : Nat} (h : SymbolsThenPads txt k p) :
    ∃ body, txt = body ++ List.replicate p padc ∧ ∀ c ∈ body, c ∈ alpha ∧ c ≠ padc := by
  obtain ⟨body, htxt, hsymbols, -⟩ := h
  exact ⟨body, htxt, fun c hc => ⟨hsymbols c hc, ne_padc_of_mem_alpha (hsymbols c hc)⟩⟩

/-- A text without padding may stand before any other. -/
theorem SymbolsThenPads.append {a b : List Byte} {j k p : Nat} (ha : SymbolsThenPads a j 0) (hb : SymbolsThenPads b k p) :
    SymbolsThenPads (a ++ b) (j + k) p := by
  obtain ⟨abody, rfl, hsyma, rfl⟩ := ha
  obtain ⟨bbody, rfl, hsymb, rfl⟩ := hb
  refine ⟨abody ++ bbody, by simp, fun c hc => ?_, List.length_append⟩
  exact (List.mem_append.1 hc).elim (hsyma c) (hsymb c)

/-! ## The text of a command -/

/-- The alphabet codes a command emits: one more than its bytes, and none for ENC.END (41_encode.md R126). -/
def symbolCount (i : Instr) : Nat := if i.count = 0 then 0 else i.count + 1

/-- The `=` a command emits: those that fill a partial group to 4 symbols, unless PD = 1 (41_encode.md R126, R129). -/
def padCount : Instr → Nat
  | .enc1 _ pd _ => if pd then 0 else 2
  | .enc2 _ pd _ _ => if pd then 0 else 1
  | _ => 0

theorem encRspOf_n {i : Instr} (hi : i.agent = .enc) : (encRspOf i).n.toNat = symbolCount i + padCount i := by
  cases i with
  | encEnd | enc3 => rfl
  | enc1 last pd | enc2 last pd => cases pd <;> rfl
  | decEnd | dec1 | dec2 | dec3 | dec4 => cases hi

/-- A processed command is answered with neither DISC nor ERR_CMD. -/
theorem encRspOf_noError (i : Instr) : (encRspWord (encRspOf i))[36] = false ∧ (encRspWord (encRspOf i))[37] = false := by
  obtain ⟨-, herr, hdisc, -⟩ := encRspWord_fields (encRspOf i)
  rw [herr, hdisc]
  cases i <;> exact ⟨rfl, rfl⟩

theorem encRspOf_text {i : Instr} (hi : i.agent = .enc) :
    SymbolsThenPads (encRspOf i).text (symbolCount i) (padCount i) := by
  cases i with
  | encEnd => exact symbolsThenPads_map [] 0
  | enc1 last pd b0 =>
    cases pd with
    | false => exact symbolsThenPads_map [_, _] 2
    | true => exact symbolsThenPads_map [_, _] 0
  | enc2 last pd b0 b1 =>
    cases pd with
    | false => exact symbolsThenPads_map [_, _, _] 1
    | true => exact symbolsThenPads_map [_, _, _] 0
  | enc3 last pd b0 b1 b2 => exact symbolsThenPads_map [_, _, _, _] 0
  | decEnd | dec1 | dec2 | dec3 | dec4 => cases hi

/-- Settles O13: the response of a processed command, its text, and its N; the number of `=` is `padCount` command by
command. -/
theorem paddingStandsOnlyAtTheEndOfPartialGroups : Obligations.PaddingStandsOnlyAtTheEndOfPartialGroups := by
  intro i s hi hs pd pads
  obtain ⟨hpads, hcount⟩ : pads = padCount i ∧
      (if i.count = 0 then 0 else i.count + 1 + pads) = symbolCount i + padCount i := by
    cases i with
    | encEnd | enc1 | enc2 | enc3 => exact ⟨rfl, rfl⟩
    | decEnd | dec1 | dec2 | dec3 | dec4 => cases hi
  have htext := encRspOf_text hi
  obtain ⟨body, hbody, hsymbols⟩ := htext.split
  refine ⟨_, encRspWord (encRspOf i), body, exec_enc_processed hi hs, rfl, ?_, hsymbols, ?_, ?_⟩
  · rw [encText_singleton, hbody, hpads]
  · rw [encRspCount_encRspWord, encRspOf_n hi, hcount]
  · rw [encText_singleton, encRspCount_encRspWord, encRspOf_n hi, htext.length_eq]

end Sys2Proof.Machine
end

