-- ==== Sys2Proof/Proofs/EncodeBuffer.lean ====
section
/-! A whole ENCODE (30_encoding.md R76, 41_encode.md R130): the answers to its words are the responses of its commands one
for one, a run of the encoder alone gives exactly these answers, and the text is read off the recursion of the expansion. -/

namespace Sys2Proof.Machine

open Sys2Proof.Claims

/-! ## The answers to the words of a list of commands -/

/-- The halt bit after the encoder has answered a sequence of command words. -/
def encHaltAfter (halt : Bool) (ws : List EncWord) : Bool := ws.foldl (fun h w => (encAnswer h w).2) halt

theorem encAnswers_length (halt : Bool) (ws : List EncWord) : (encAnswers halt ws).length = ws.length := by
  induction ws generalizing halt with
  | nil => rfl
  | cons w ws ih => simp only [encAnswers, List.length_cons, ih]

/-- The word of an encoder command decodes to the command. -/
theorem encode_enc_decodes {i : Instr} (hi : i.agent = .enc) : ∃ w, encode i = .enc w ∧ decodeEnc w = .ok i := by
  cases i with
  | encEnd | enc1 | enc2 | enc3 => exact ⟨_, rfl, by simp [decodeEnc, encFields_encWordOf]⟩
  | decEnd | dec1 | dec2 | dec3 | dec4 => cases hi

/-- An encoder command after which a unit that was not halted is still not halted. -/
def KeepsEncRunning (i : Instr) : Prop := i.agent = .enc ∧ haltAfter i.last (endsEncData i) = false

/-- Commands that keep the unit running are all processed: each answers with its own response. -/
theorem encAnswers_encWords {is : List Instr} (h : ∀ i ∈ is, KeepsEncRunning i) :
    encAnswers false (encWords is) = (is.map encRspOf).map encRspWord ∧ encHaltAfter false (encWords is) = false := by
  induction is with
  | nil => exact ⟨rfl, rfl⟩
  | cons i is ih =>
    obtain ⟨⟨hi, hrun⟩, his⟩ := List.forall_mem_cons.1 h
    obtain ⟨w, hw, hdecode⟩ := encode_enc_decodes hi
    obtain ⟨ihanswers, ihhalt⟩ := ih his
    have hwords : encWords (i :: is) = w :: encWords is := by simp [encWords, hw]
    have hanswer : encAnswer false w = (encRspWord (encRspOf i), false) := hrun ▸ encAnswer_of_decodeEnc hdecode
    refine ⟨?_, ?_⟩
    · simp only [hwords, encAnswers, hanswer, ihanswers, List.map_cons]
    · rw [hwords, encHaltAfter, List.foldl_cons, hanswer]
      exact ihhalt

/-! ## A run of the encoder alone -/

/-- With nothing to do for the host and the decoder, the encoder moves and answers its oldest word. -/
theorem step_encoder_alone {s : State} {w : EncWord} {rest : List EncWord} (hhost : s.hostMoves = [])
    (hdec : s.decCmdQ = []) (hq : s.encCmdQ = w :: rest) (hroom : s.encRspQ.length < s.cfg.encDepth) :
    step s = .next (encNext { passTurn s with encCmdQ := rest } (encAnswer s.encHalt w).1 (encAnswer s.encHalt w).2) := by
  have hready : readyAgents s = [.enc] := by
    simp [readyAgents, agentReady, hostReady, hhost, decReady, hdec, encReady_iff, hq, hroom]
  rw [step_of_nextAgent (nextAgent_of_only hready)]
  exact stepEnc_eq_encNext (s := passTurn s) hq

/-- The encoder alone, with room for every response, answers every word that waits. -/
theorem run_encoder_alone {s : State} (hhost : s.hostMoves = []) (hdec : s.decCmdQ = [])
    (hroom : s.encRspQ.length + s.encCmdQ.length ≤ s.cfg.encDepth) :
    ∃ t, core.run s.encCmdQ.length s = .next t ∧ t.encCmdQ = [] ∧ t.encHalt = encHaltAfter s.encHalt s.encCmdQ ∧
      t.encRspQ = s.encRspQ ++ encAnswers s.encHalt s.encCmdQ := by
  induction hq : s.encCmdQ generalizing s with
  | nil => exact ⟨s, run_zero s, hq, rfl, (List.append_nil _).symm⟩
  | cons w rest ih =>
    rw [hq, List.length_cons] at hroom
    have hrest (r : RspWord) : (s.encRspQ ++ [r]).length + rest.length ≤ s.cfg.encDepth := by
      rw [List.length_append, List.length_singleton]
      omega
    obtain ⟨t, hrun, hempty, hhalt, hrsp⟩ :=
      ih (s := encNext { passTurn s with encCmdQ := rest } (encAnswer s.encHalt w).1 (encAnswer s.encHalt w).2)
        hhost hdec (hrest _) rfl
    refine ⟨t, ?_, hempty, hhalt, ?_⟩
    · rw [List.length_cons, run_succ _ (step_encoder_alone hhost hdec hq (by omega)), hrun]
    · simpa [encNext, encAnswers] using hrsp

/-! ## The commands of ENCODE -/

/-- Only the final command of ENCODE may be a partial group, and it has LAST = 1. -/
theorem expandEncode_keepsEncRunning (np : Bool) (buf : List Byte) : ∀ i ∈ expandEncode np buf, KeepsEncRunning i := by
  fun_induction expandEncode np buf with
  | case1 | case2 | case3 | case4 => exact List.forall_mem_singleton.2 ⟨rfl, rfl⟩
  | case5 b0 b1 b2 b3 rest ih => exact List.forall_mem_cons.2 ⟨⟨rfl, rfl⟩, ih⟩

/-- The alphabet codes in the text of an n-byte buffer (41_encode.md R130). -/
def encodedSymbols (n : Nat) : Nat := 4 * (n / 3) + if n % 3 = 0 then 0 else n % 3 + 1

/-- The trailing `=` in the text of an n-byte buffer (41_encode.md R130). -/
def encodedPads (np : Bool) (n : Nat) : Nat := if np then 0 else (3 - n % 3) % 3

theorem encodedSymbols_add_three (n : Nat) : encodedSymbols (n + 3) = 4 + encodedSymbols n := by
  rw [encodedSymbols, encodedSymbols, Nat.add_mod_right]
  omega

theorem encodedPads_add_three (np : Bool) (n : Nat) : encodedPads np (n + 3) = encodedPads np n := by
  rw [encodedPads, encodedPads, Nat.add_mod_right]

theorem encodedSymbols_add_encodedPads (np : Bool) (n : Nat) : encodedSymbols n + encodedPads np n =
    if np then 4 * (n / 3) + (if n % 3 = 0 then 0 else n % 3 + 1) else 4 * ((n + 2) / 3) := by
  cases np with
  | true => rfl
  | false =>
    simp only [encodedSymbols, encodedPads, Bool.false_eq_true, if_false]
    split_ifs <;> omega

/-- The text of ENCODE where it is one command. -/
theorem encRspOf_text_singleton {i : Instr} {k p : Nat} (hi : i.agent = .enc) (hk : symbolCount i = k)
    (hp : padCount i = p) : SymbolsThenPads (([i].map encRspOf).flatMap EncRsp.text) k p := by
  subst hk hp
  simpa using encRspOf_text hi

/-- The text of ENCODE: its symbols, then its padding (41_encode.md R130). -/
theorem expandEncode_text (np : Bool) (buf : List Byte) :
    SymbolsThenPads (((expandEncode np buf).map encRspOf).flatMap EncRsp.text) (encodedSymbols buf.length)
      (encodedPads np buf.length) := by
  fun_induction expandEncode np buf with
  | case1 | case2 | case3 | case4 =>
    exact encRspOf_text_singleton rfl
      (by simp [symbolCount, Instr.count, encodedSymbols]) (by simp [padCount, encodedPads])
  | case5 b0 b1 b2 b3 rest ih =>
    have hlen : (b0 :: b1 :: b2 :: b3 :: rest).length = (b3 :: rest).length + 3 := rfl
    rw [hlen, encodedSymbols_add_three, encodedPads_add_three]
    exact (encRspOf_text (i := .enc3 false false b0 b1 b2) rfl).append ih

/-- Settles O49: a run of the encoder alone leaves the answers to the words of ENCODE, whose text is that of its commands. -/
theorem encodeBufferLaws : Obligations.EncodeBufferLaws := by
  intro np buf s h
  obtain ⟨t, hrun, hempty, hhalt, hrsp⟩ := run_encoder_alone h.hostIdle h.decIdle (by simpa [h.noResponse] using h.room)
  obtain ⟨hanswers, hnotHalted⟩ := encAnswers_encWords (expandEncode_keepsEncRunning np buf)
  have htext := expandEncode_text np buf
  rw [h.noResponse, h.notHalted, h.commands, List.nil_append] at hrsp
  rw [h.notHalted, h.commands, hnotHalted] at hhalt
  refine ⟨t, hrun, hempty, hhalt, ?_, ?_, ?_, ?_⟩
  · rw [hrsp, encAnswers_length, h.commands]
  · rw [hrsp, hanswers, List.forall_mem_map, List.forall_mem_map]
    exact fun i _ => encRspOf_noError i
  · rw [hrsp, hanswers, encText_map_encRspWord, htext.length_eq, encodedSymbols_add_encodedPads]
  · rw [hrsp, hanswers, encText_map_encRspWord]
    exact htext.split

end Sys2Proof.Machine
end

