-- ==== Sys2Proof/Proofs/DecoderCommands.lean ====
section
/-! The decoder's commands, said once (42_decode.md R151, R154, R155, R163): the result of each, the one equation for a
command that is processed and the one for a command that is discarded, and the pseudocode's answer to the word of each. -/

namespace Sys2Proof.Machine

open Sys2Proof.Claims

/-! ## What a command answers -/

/-- The result of a processed decoder command: that of its group (42_decode.md R154), and DEC.END's, which emits no byte
and ends nothing (R155). -/
def decResultOf (cfg : RunConfig) (i : Instr) : GroupResult :=
  if i.count = 0 then { ends := false } else decodeGroup cfg i.lanes

theorem decResultOf_decEnd (cfg : RunConfig) : decResultOf cfg .decEnd = { ends := false } := if_pos rfl

theorem decResultOf_of_group {i : Instr} (hc : i.count ≠ 0) (cfg : RunConfig) :
    decResultOf cfg i = decodeGroup cfg i.lanes := if_neg hc

/-- A decoder command carries as many symbols as its CNT says. -/
theorem dec_lanes_length {i : Instr} (hi : i.agent = .dec) : i.lanes.length = i.count := by
  cases i with
  | decEnd | dec1 | dec2 | dec3 | dec4 => rfl
  | encEnd | enc1 | enc2 | enc3 => cases hi

theorem dec_count_le {i : Instr} (hi : i.agent = .dec) : i.count ≤ 4 := by
  cases i with
  | decEnd | dec1 | dec2 | dec3 | dec4 => simp [Instr.count]
  | encEnd | enc1 | enc2 | enc3 => cases hi

theorem exec_group_eq_processGroup {i : Instr} (hi : i.agent = .dec) (hc : i.count ≠ 0) (s : State) :
    exec i s = .next (processGroup i.last i.lanes s) := by
  cases i with
  | dec1 | dec2 | dec3 | dec4 => rfl
  | decEnd => exact absurd rfl hc
  | encEnd | enc1 | enc2 | enc3 => cases hi

theorem decEnd_of_count_zero {i : Instr} (hi : i.agent = .dec) (hc : i.count = 0) : i = .decEnd := by
  cases i with
  | decEnd => rfl
  | dec1 | dec2 | dec3 | dec4 => cases hc
  | encEnd | enc1 | enc2 | enc3 => cases hi

/-- A processed decoder command sends the response of its result and writes the halt bit of R163; nothing else changes. -/
theorem exec_dec_processed {i : Instr} {s : State} (hi : i.agent = .dec) (hs : s.decHalt = false) :
    exec i s = .next (decNext s (decRspWord (groupRsp i.last (decResultOf s.cfg i)))
      (haltAfter i.last (decResultOf s.cfg i).ends)) := by
  by_cases hc : i.count = 0
  · obtain rfl := decEnd_of_count_zero hi hc
    simp [exec, execDecEnd, hs, sendDecRsp, decNext, decResultOf_decEnd, groupRsp, rspDecEnd, haltAfter, Instr.last]
  · simp [exec_group_eq_processGroup hi hc, processGroup_eq, hs, decNext, decResultOf_of_group hc, haltAfter]

/-- A discarded decoder command sends DISC with LAST echoed, and LAST = 1 clears the halt bit; nothing else changes. -/
theorem exec_dec_discarded {i : Instr} {s : State} (hi : i.agent = .dec) (hs : s.decHalt = true) :
    exec i s = .next (decNext s (decRspWord { disc := true, last := i.last }) (!i.last)) := by
  by_cases hc : i.count = 0
  · obtain rfl := decEnd_of_count_zero hi hc
    simp [exec, execDecEnd, hs, discardDec, answerDec_eq, decNext, Instr.last]
  · simp [exec_group_eq_processGroup hi hc, processGroup_eq, hs, decNext]

/-- Commands with the same LAST and the same result do the same on every state, whether processed or discarded. -/
theorem exec_dec_congr {i j : Instr} {s : State} (hi : i.agent = .dec) (hj : j.agent = .dec) (hlast : i.last = j.last)
    (hresult : decResultOf s.cfg i = decResultOf s.cfg j) : exec i s = exec j s := by
  cases hs : s.decHalt with
  | false => rw [exec_dec_processed hi hs, exec_dec_processed hj hs, hlast, hresult]
  | true => rw [exec_dec_discarded hi hs, exec_dec_discarded hj hs, hlast]

/-- The pseudocode's answer to the word of a command that is processed. -/
theorem decAnswer_of_decodeDec {w : DecWord} {i : Instr} (h : decodeDec w = .ok i) (cfg : RunConfig) :
    decAnswer cfg false w =
      (decRspWord (groupRsp i.last (decResultOf cfg i)), haltAfter i.last (decResultOf cfg i).ends) := by
  rcases decodeDec_cases w with
      ⟨-, e, hd⟩ | ⟨hm, ⟨hc, hl, hd⟩ | ⟨hc, hd⟩ | ⟨hc, hd⟩ | ⟨hc, hd⟩ | ⟨hc, hd⟩⟩ <;>
    cases hd.symm.trans h <;>
    simp [decAnswer, hm, hc, decResultOf, Instr.count, Instr.last, Instr.lanes, groupRsp, haltAfter]

/-! ## The statements on DEC.END and on the step -/

theorem decodeDec_of_cnt_zero {w : DecWord} (hr : w.extractLsb' 36 4 = 0) (hc : w.extractLsb' 32 3 = 0)
    (hl : w[35] = true) : decodeDec w = .ok .decEnd := by
  simp [decodeDec, decFields, hr, hc, hl]

/-- Settles O17: DEC.END's case of the decoder, and of the two equations for a command. -/
theorem decEndClosesTheStream : Obligations.DecEndClosesTheStream := by
  refine ⟨fun _ => decodeDec_of_cnt_zero, fun s hs => ?_, fun s hs => ?_⟩
  · rw [exec_dec_processed rfl hs, decResultOf_decEnd]
    rfl
  · rw [exec_dec_discarded rfl hs]
    rfl

theorem decReady_iff (s : State) : decReady s = true ↔ (s.decCmdQ ≠ [] ∧ s.decRspQ.length < s.cfg.decDepth) := by
  simp [decReady, roomIn_iff]

/-- Settles O27: the enabling condition, and the step as the pseudocode's answer to the oldest word. -/
theorem decoderStepIsItsPseudocode : Obligations.DecoderStepIsItsPseudocode :=
  ⟨decReady_iff, fun _ _ _ => stepDec_eq_decNext⟩

end Sys2Proof.Machine
end

