-- ==== Sys2Proof/Proofs/DecoderScan.lean ====
section
/-! The decoder's scan (42_decode.md R153). VALID symbols are the images of their values under symbolOf, so every list of
symbols reads as such images, followed by nothing or by the symbol at which the scan stops. -/

namespace Sys2Proof.Machine

open Sys2Proof.Claims

/-! ## Effective classes -/

theorem effectiveClass_eq_valid_iff {compat : Bool} {j : Nat} {c : Byte} {v : Sextet} :
    effectiveClass compat j c = .valid v ↔ symbolOf v = c := by
  rw [← lookup_eq_valid_iff]
  cases hc : lookup c <;> simp [effectiveClass, hc]
  split <;> simp

theorem effectiveClass_eq_pad_iff {compat : Bool} {k : Nat} {c : Byte} :
    effectiveClass compat (k + 1) c = .pad ↔ (lookup c = .pad ∨ (lookup c = .invalid ∧ compat = true ∧ 2 ≤ k)) := by
  cases hc : lookup c <;> simp [effectiveClass, hc, Nat.succ_le_iff]

theorem effectiveClass_eq_invalid_iff {compat : Bool} {k : Nat} {c : Byte} :
    effectiveClass compat (k + 1) c = .invalid ↔ (lookup c = .invalid ∧ (compat = false ∨ k < 2)) := by
  cases hc : lookup c <;> cases compat <;> simp [effectiveClass, hc]

/-! ## Lists of symbols by the values of their first VALID symbols -/

theorem map_lookup_map_symbolOf (vs : List Sextet) : (vs.map symbolOf).map lookup = vs.map .valid := by
  simp [Function.comp_def]

theorem validBelow_iff {lanes : List Byte} {n : Nat} :
    ValidBelow lanes n ↔ ∃ (vs : List Sextet) (rest : List Byte), lanes = vs.map symbolOf ++ rest ∧ vs.length = n := by
  constructor
  · intro h
    induction n generalizing lanes with
    | zero => exact ⟨[], lanes, rfl, rfl⟩
    | succ n ih =>
      obtain ⟨c, v, hc, hv⟩ := h 0 n.succ_pos
      cases lanes with
      | nil => cases hc
      | cons d lanes =>
        obtain ⟨vs, rest, rfl, rfl⟩ := ih (lanes := lanes) fun j hj => h (j + 1) (Nat.succ_lt_succ hj)
        obtain rfl : d = c := Option.some.inj hc
        exact ⟨v :: vs, rest, by simp [lookup_eq_valid_iff.1 hv], rfl⟩
  · rintro ⟨vs, rest, rfl, rfl⟩ j hj
    exact ⟨symbolOf vs[j], vs[j], by rw [List.getElem?_append_left (by simpa using hj)]; simp [hj], lookup_symbolOf _⟩

theorem validBelow_length_iff {lanes : List Byte} :
    ValidBelow lanes lanes.length ↔ ∃ vs : List Sextet, lanes = vs.map symbolOf := by
  rw [validBelow_iff]
  constructor
  · rintro ⟨vs, rest, h, hlen⟩
    obtain rfl : rest = [] := by simpa [hlen] using congrArg List.length h
    exact ⟨vs, by rw [h, List.append_nil]⟩
  · rintro ⟨vs, rfl⟩
    exact ⟨vs, [], (List.append_nil _).symm, (List.length_map _).symm⟩

/-- After the symbols of the values vs stands one of the effective class cls. -/
def StopsAfter (compat : Bool) (lanes : List Byte) (vs : List Sextet) (cls : SymClass) : Prop :=
  ∃ c rest, lanes = vs.map symbolOf ++ c :: rest ∧ effectiveClass compat (vs.length + 1) c = cls

theorem stopsAfter_iff {compat : Bool} {lanes : List Byte} {k : Nat} {cls : SymClass} :
    (ValidBelow lanes k ∧ ∃ c, lanes[k]? = some c ∧ effectiveClass compat (k + 1) c = cls) ↔
      ∃ vs, vs.length = k ∧ StopsAfter compat lanes vs cls := by
  rw [validBelow_iff]
  constructor
  · rintro ⟨⟨vs, rest, rfl, rfl⟩, c, hc, hcls⟩
    cases rest with
    | nil => simp at hc
    | cons d rest =>
      obtain rfl : d = c := by simpa using hc
      exact ⟨vs, rfl, d, rest, rfl, hcls⟩
  · rintro ⟨vs, rfl, c, rest, rfl, hcls⟩
    exact ⟨⟨vs, c :: rest, rfl, rfl⟩, c, by simp, hcls⟩

theorem padStopsAt_iff {compat : Bool} {lanes : List Byte} {k : Nat} :
    PadStopsAt compat lanes k ↔ ∃ vs, vs.length = k ∧ StopsAfter compat lanes vs .pad := by
  simp only [PadStopsAt, ← stopsAfter_iff, effectiveClass_eq_pad_iff]

theorem invalidStopsAt_iff {compat : Bool} {lanes : List Byte} {k : Nat} :
    InvalidStopsAt compat lanes k ↔ ∃ vs, vs.length = k ∧ StopsAfter compat lanes vs .invalid := by
  simp only [InvalidStopsAt, ← stopsAfter_iff, effectiveClass_eq_invalid_iff]

/-- Every list of symbols is all VALID, or has a first symbol that is not. -/
theorem lanes_cases (compat : Bool) (lanes : List Byte) : (∃ vs : List Sextet, lanes = vs.map symbolOf) ∨
    (∃ vs, StopsAfter compat lanes vs .pad) ∨ (∃ vs, StopsAfter compat lanes vs .invalid) := by
  have hsplit : (∃ vs : List Sextet, lanes = vs.map symbolOf) ∨
      ∃ (vs : List Sextet) (c : Byte) (rest : List Byte), lanes = vs.map symbolOf ++ c :: rest ∧ ∀ v, symbolOf v ≠ c := by
    induction lanes with
    | nil => exact .inl ⟨[], rfl⟩
    | cons c lanes ih =>
      by_cases hc : ∃ v, symbolOf v = c
      · obtain ⟨v, rfl⟩ := hc
        rcases ih with ⟨vs, rfl⟩ | ⟨vs, d, rest, rfl, hd⟩
        · exact .inl ⟨v :: vs, rfl⟩
        · exact .inr ⟨v :: vs, d, rest, rfl, hd⟩
      · exact .inr ⟨[], c, lanes, rfl, not_exists.1 hc⟩
  refine hsplit.imp_right ?_
  rintro ⟨vs, c, rest, hlanes, hc⟩
  cases hcls : effectiveClass compat (vs.length + 1) c with
  | valid v => exact absurd (effectiveClass_eq_valid_iff.1 hcls) (hc v)
  | pad => exact .inl ⟨vs, c, rest, hlanes, hcls⟩
  | invalid => exact .inr ⟨vs, c, rest, hlanes, hcls⟩

/-! ## The scan -/

/-- The scan passes over VALID symbols and collects their values. -/
theorem scanFrom_append (compat : Bool) (j : Nat) (vs : List Sextet) (rest : List Byte) :
    scanFrom compat j (vs.map symbolOf ++ rest) = vs.foldr Scan.cons (scanFrom compat (j + vs.length) rest) := by
  induction vs generalizing j with
  | nil => rfl
  | cons v vs ih =>
    rw [List.map_cons, List.cons_append, scanFrom, effectiveClass_eq_valid_iff.2 rfl]
    simp only [ih, List.foldr_cons, List.length_cons, Nat.add_assoc, Nat.add_comm 1]

/-- Values put in front of an outcome of any one kind are values of that outcome. -/
theorem foldr_scanCons {outcome : List Sextet → Scan} (h : ∀ v vs, (outcome vs).cons v = outcome (v :: vs))
    (vs : List Sextet) : vs.foldr Scan.cons (outcome []) = outcome vs := by
  induction vs with
  | nil => rfl
  | cons v vs ih => rw [List.foldr_cons, ih, h]

theorem scan_of_valid (compat : Bool) (vs : List Sextet) : scan compat (vs.map symbolOf) = .allValid vs := by
  rw [scan, ← List.append_nil (vs.map symbolOf), scanFrom_append, scanFrom]
  exact foldr_scanCons (fun _ _ => rfl) vs

theorem scan_of_pad {compat : Bool} {lanes : List Byte} {vs : List Sextet} (h : StopsAfter compat lanes vs .pad) :
    scan compat lanes = .padAt (vs.length + 1) vs := by
  obtain ⟨c, rest, rfl, hcls⟩ := h
  simp only [scan, scanFrom_append, Nat.add_comm 1, scanFrom, hcls]
  exact foldr_scanCons (outcome := .padAt (vs.length + 1)) (fun _ _ => rfl) vs

theorem scan_of_invalid {compat : Bool} {lanes : List Byte} {vs : List Sextet}
    (h : StopsAfter compat lanes vs .invalid) : scan compat lanes = .invalidAt (vs.length + 1) vs := by
  obtain ⟨c, rest, rfl, hcls⟩ := h
  simp only [scan, scanFrom_append, Nat.add_comm 1, scanFrom, hcls]
  exact foldr_scanCons (outcome := .invalidAt (vs.length + 1)) (fun _ _ => rfl) vs

theorem scan_eq_allValid_iff {compat : Bool} {lanes : List Byte} {vs : List Sextet} :
    scan compat lanes = .allValid vs ↔ lanes = vs.map symbolOf := by
  constructor
  · intro h
    rcases lanes_cases compat lanes with ⟨ws, rfl⟩ | ⟨ws, hstop⟩ | ⟨ws, hstop⟩
    · cases (scan_of_valid compat ws).symm.trans h
      rfl
    · cases (scan_of_pad hstop).symm.trans h
    · cases (scan_of_invalid hstop).symm.trans h
  · rintro rfl
    exact scan_of_valid compat vs

theorem scan_eq_padAt_iff {compat : Bool} {lanes : List Byte} {k : Nat} {vs : List Sextet} :
    scan compat lanes = .padAt (k + 1) vs ↔ vs.length = k ∧ StopsAfter compat lanes vs .pad := by
  constructor
  · intro h
    rcases lanes_cases compat lanes with ⟨ws, rfl⟩ | ⟨ws, hstop⟩ | ⟨ws, hstop⟩
    · cases (scan_of_valid compat ws).symm.trans h
    · cases (scan_of_pad hstop).symm.trans h
      exact ⟨rfl, hstop⟩
    · cases (scan_of_invalid hstop).symm.trans h
  · rintro ⟨rfl, hstop⟩
    exact scan_of_pad hstop

theorem scan_eq_invalidAt_iff {compat : Bool} {lanes : List Byte} {k : Nat} {vs : List Sextet} :
    scan compat lanes = .invalidAt (k + 1) vs ↔ vs.length = k ∧ StopsAfter compat lanes vs .invalid := by
  constructor
  · intro h
    rcases lanes_cases compat lanes with ⟨ws, rfl⟩ | ⟨ws, hstop⟩ | ⟨ws, hstop⟩
    · cases (scan_of_valid compat ws).symm.trans h
    · cases (scan_of_pad hstop).symm.trans h
    · cases (scan_of_invalid hstop).symm.trans h
      exact ⟨rfl, hstop⟩
  · rintro ⟨rfl, hstop⟩
    exact scan_of_invalid hstop

/-- What stands after the stop does not matter: the stop is fixed by the symbols up to it. -/
theorem StopsAfter.of_take {compat : Bool} {lanes lanes' : List Byte} {vs : List Sextet} {cls : SymClass}
    (h : StopsAfter compat lanes vs cls) (htake : lanes.take (vs.length + 1) = lanes'.take (vs.length + 1)) :
    StopsAfter compat lanes' vs cls := by
  obtain ⟨c, rest, rfl, hcls⟩ := h
  refine ⟨c, lanes'.drop (vs.length + 1), ?_, hcls⟩
  have hhead : (vs.map symbolOf ++ c :: rest).take (vs.length + 1) = vs.map symbolOf ++ [c] := by
    simp [List.take_append, List.take_of_length_le]
  rw [hhead] at htake
  calc lanes' = lanes'.take (vs.length + 1) ++ lanes'.drop (vs.length + 1) := (List.take_append_drop _ _).symm
    _ = vs.map symbolOf ++ c :: lanes'.drop (vs.length + 1) := by rw [← htake, List.append_assoc, List.singleton_append]

theorem StopsAfter.append {compat : Bool} {lanes : List Byte} {vs : List Sextet} {cls : SymClass}
    (h : StopsAfter compat lanes vs cls) (more : List Byte) : StopsAfter compat (lanes ++ more) vs cls := by
  obtain ⟨c, rest, rfl, hcls⟩ := h
  exact ⟨c, rest ++ more, by rw [List.append_assoc, List.cons_append], hcls⟩

/-- A list with a symbol that is not VALID is not all VALID. -/
theorem StopsAfter.not_validBelow_length {compat : Bool} {lanes : List Byte} {vs : List Sextet} {cls : SymClass}
    (h : StopsAfter compat lanes vs cls) (hcls : ∀ v, cls ≠ .valid v) : ¬ ValidBelow lanes lanes.length := by
  obtain ⟨c, rest, rfl, rfl⟩ := h
  intro hvalid
  obtain ⟨d, v, hd, hv⟩ := hvalid vs.length (by simp)
  obtain rfl : c = d := by simpa using hd
  exact hcls v (effectiveClass_eq_valid_iff.2 (lookup_eq_valid_iff.1 hv))

/-- The symbols before the stop have the values the scan reports. -/
theorem StopsAfter.map_lookup_take {compat : Bool} {lanes : List Byte} {vs : List Sextet} {cls : SymClass}
    (h : StopsAfter compat lanes vs cls) : (lanes.take vs.length).map lookup = vs.map .valid := by
  obtain ⟨c, rest, rfl, -⟩ := h
  rw [← List.length_map (as := vs) symbolOf, List.take_left, map_lookup_map_symbolOf]

/-- Settles O19: each outcome of the scan as the shape of the list, and the values read off that shape. -/
theorem scanStopsAtTheFirstNonValidSymbol : Obligations.ScanStopsAtTheFirstNonValidSymbol := by
  intro compat syms
  refine ⟨?_, fun k => ?_, fun k => ?_, fun vs h => ?_, fun k vs h => ?_, fun k vs h => ?_⟩
  · simp only [scan_eq_allValid_iff, validBelow_length_iff]
  · simp only [scan_eq_padAt_iff, padStopsAt_iff]
  · simp only [scan_eq_invalidAt_iff, invalidStopsAt_iff]
  · rw [scan_eq_allValid_iff.1 h, map_lookup_map_symbolOf]
  · obtain ⟨rfl, hstop⟩ := scan_eq_padAt_iff.1 h
    exact hstop.map_lookup_take
  · obtain ⟨rfl, hstop⟩ := scan_eq_invalidAt_iff.1 h
    exact hstop.map_lookup_take

end Sys2Proof.Machine
end

