-- ==== Sys2Proof/Proofs/DecoderGroups.lean ====
section
/-! decode_group and the tail policies (42_decode.md R152, R154, R160 to R163, R166, R167): the result of a group by the
shape of its symbols, and from it what each command answers. -/

namespace Sys2Proof.Machine

open Sys2Proof.Claims

/-! ## The packed bytes in arithmetic -/

theorem pack_eq_packed (v1 v2 v3 v4 : Sextet) : pack v1 v2 v3 v4 =
    (packed0 v1.toNat v2.toNat, packed1 v2.toNat v3.toNat, packed2 v3.toNat v4.toNat) := by
  obtain ⟨h0, h1, h2⟩ := pack_toNat v1 v2 v3 v4
  have hv1 := v1.isLt
  have hv2 := v2.isLt
  have hv3 := v3.isLt
  have hv4 := v4.isLt
  refine Prod.ext ?_ (Prod.ext ?_ ?_) <;> apply BitVec.eq_of_toNat_eq
  · rw [h0, packed0, BitVec.toNat_ofNat]
    omega
  · rw [h1, packed1, BitVec.toNat_ofNat]
    omega
  · rw [h2, packed2, BitVec.toNat_ofNat]
    omega

/-- 42_decode.md R152: pack is the inverse of the encoder's slicing. -/
theorem pack_slices (g : BitVec 24) :
    pack (g.extractLsb' 18 6) (g.extractLsb' 12 6) (g.extractLsb' 6 6) (g.extractLsb' 0 6) =
      (g.extractLsb' 16 8, g.extractLsb' 8 8, g.extractLsb' 0 8) := by
  obtain ⟨h0, h1, h2⟩ := pack_toNat (g.extractLsb' 18 6) (g.extractLsb' 12 6) (g.extractLsb' 6 6) (g.extractLsb' 0 6)
  simp only [slice_toNat] at h0 h1 h2
  refine Prod.ext ?_ (Prod.ext ?_ ?_) <;> apply BitVec.eq_of_toNat_eq
  · rw [h0, slice_toNat]
    omega
  · rw [h1, slice_toNat]
    omega
  · rw [h2, slice_toNat]
    omega

/-- Settles O18: both parts compare the numbers of the three bytes. -/
theorem packIsTheSourceFormulas : Obligations.PackIsTheSourceFormulas := ⟨pack_eq_packed, pack_slices⟩

/-! ## The values of the lanes -/

/-- Before the stop, and after the last lane, the value of a lane is the one scanned. -/
theorem laneValue_eq_valueAt {vs : List Sextet} {rest : List Byte} {k : Nat} (h : k < vs.length ∨ rest = []) :
    laneValue (vs.map symbolOf ++ rest) k = (valueAt vs k).toNat := by
  by_cases hk : k < vs.length
  · have hlane : (vs.map symbolOf ++ rest)[k]? = some (symbolOf vs[k]) := by
      rw [List.getElem?_append_left (by simpa using hk)]
      simp [hk]
    simp [laneValue, hlane, valueAt, hk]
  · obtain rfl := h.resolve_left hk
    simp [laneValue, valueAt, hk]

theorem laneValue_map_symbolOf (vs : List Sextet) (k : Nat) :
    laneValue (vs.map symbolOf) k = (valueAt vs k).toNat := by
  rw [← laneValue_eq_valueAt (rest := []) (.inr rfl), List.append_nil]

theorem StopsAfter.laneValue {compat : Bool} {lanes : List Byte} {vs : List Sextet} {cls : SymClass}
    (h : StopsAfter compat lanes vs cls) {k : Nat} (hk : k < vs.length) :
    laneValue lanes k = (valueAt vs k).toNat := by
  obtain ⟨c, rest, rfl, -⟩ := h
  exact laneValue_eq_valueAt (.inl hk)

/-! ## The result of a group by the shape of its symbols -/

theorem decodeGroup_of_four (cfg : RunConfig) (v1 v2 v3 v4 : Sextet) :
    decodeGroup cfg ([v1, v2, v3, v4].map symbolOf) =
      { n := 3, d0 := packed0 v1.toNat v2.toNat, d1 := packed1 v2.toNat v3.toNat, d2 := packed2 v3.toNat v4.toNat,
        ends := false } := by
  simp [decodeGroup, scan_of_valid, pack_eq_packed, valueAt, -List.map_cons]

theorem decodeGroup_of_tail (cfg : RunConfig) {vs : List Sextet} (h : vs.length ≠ 4) :
    decodeGroup cfg (vs.map symbolOf) = tailGroup cfg.tailPolicy vs.length vs := by
  simp only [decodeGroup, scan_of_valid, List.length_map, h, if_false]

section Stops

variable {cfg : RunConfig} {lanes : List Byte} {vs : List Sextet}

theorem decodeGroup_of_pad (h : StopsAfter cfg.compatInvalid lanes vs .pad) :
    decodeGroup cfg lanes = padStop (vs.length + 1) vs := by
  simp only [decodeGroup, scan_of_pad h]

theorem decodeGroup_of_invalid (h : StopsAfter cfg.compatInvalid lanes vs .invalid) :
    decodeGroup cfg lanes = { errInv := true, epos := BitVec.ofNat 2 vs.length, ends := true } := by
  simp only [decodeGroup, scan_of_invalid h, Nat.add_sub_cancel]

end Stops

/-- A tail ends the stream's data under every policy (42_decode.md R163). -/
theorem tailGroup_ends (policy : TailPolicy) (cnt : Nat) (vs : List Sextet) :
    (tailGroup policy cnt vs).ends = true := by
  cases policy with
  | exactTail =>
    simp only [tailGroup, tailExact]
    split_ifs <;> rfl
  | strictTail => rfl
  | referenceTail => rfl

theorem tailExact_one (vs : List Sextet) : tailExact 1 vs = { errLen := true, epos := 1, ends := true } := rfl

theorem tailExact_two (vs : List Sextet) : tailExact 2 vs =
    { n := 1, d0 := packed0 (valueAt vs 0).toNat (valueAt vs 1).toNat, ends := true } := by
  simp [tailExact, pack_eq_packed]

theorem tailExact_three (vs : List Sextet) : tailExact 3 vs =
    { n := 2, d0 := packed0 (valueAt vs 0).toNat (valueAt vs 1).toNat,
      d1 := packed1 (valueAt vs 1).toNat (valueAt vs 2).toNat, ends := true } := by
  simp [tailExact, pack_eq_packed]

theorem padStop_ends (p : Nat) (vs : List Sextet) : (padStop p vs).ends = true := by
  simp only [padStop]
  split_ifs <;> rfl

theorem padStop_of_lt {p : Nat} (h : p < 2) (vs : List Sextet) :
    padStop (p + 1) vs = { errPad := true, epos := BitVec.ofNat 2 p, ends := true } := by
  simp only [padStop, Nat.add_sub_cancel, if_pos (Nat.succ_le_of_lt h)]

theorem padStop_three (vs : List Sextet) : padStop 3 vs =
    { n := 1, d0 := packed0 (valueAt vs 0).toNat (valueAt vs 1).toNat, term := true, ends := true } := by
  simp [padStop, pack_eq_packed]

theorem padStop_four (vs : List Sextet) : padStop 4 vs =
    { n := 2, d0 := packed0 (valueAt vs 0).toNat (valueAt vs 1).toNat,
      d1 := packed1 (valueAt vs 1).toNat (valueAt vs 2).toNat, term := true, ends := true } := by
  simp [padStop, pack_eq_packed]

/-- 42_decode.md R163: a group of at most 4 symbols goes on exactly when it is 4 VALID symbols. -/
theorem decodeGroup_ends_iff (cfg : RunConfig) {lanes : List Byte} (hlen : lanes.length ≤ 4) :
    (decodeGroup cfg lanes).ends = true ↔ lanes.length < 4 ∨ ¬ ValidBelow lanes lanes.length := by
  rcases lanes_cases cfg.compatInvalid lanes with ⟨vs, rfl⟩ | ⟨vs, hstop⟩ | ⟨vs, hstop⟩
  · have hvalid := validBelow_length_iff.2 ⟨vs, rfl⟩
    rw [List.length_map] at hlen
    by_cases hfour : vs.length = 4
    · obtain ⟨v1, v2, v3, v4, rfl⟩ := List.length_eq_four.1 hfour
      rw [decodeGroup_of_four, eq_true hvalid]
      simp
    · rw [decodeGroup_of_tail cfg hfour, tailGroup_ends, List.length_map]
      exact iff_of_true rfl (.inl (by omega))
  · simp [decodeGroup_of_pad hstop, padStop_ends, hstop.not_validBelow_length nofun]
  · simp [decodeGroup_of_invalid hstop, hstop.not_validBelow_length nofun]

/-! ## Commands of VALID symbols -/

/-- A command whose symbols are all VALID carries the images of their values. -/
theorem lanes_of_validBelow {i : Instr} (hi : i.agent = .dec) (h : ValidBelow i.lanes i.count) :
    ∃ vs : List Sextet, i.lanes = vs.map symbolOf ∧ vs.length = i.count := by
  rw [← dec_lanes_length hi] at h ⊢
  obtain ⟨vs, hvs⟩ := validBelow_length_iff.1 h
  exact ⟨vs, hvs, by rw [hvs, List.length_map]⟩

/-- A group whose data end answers its fields and halts the unit exactly when LAST = 0. -/
theorem exec_group_of_ends {i : Instr} {s : State} {r : GroupResult} {rsp : DecRsp} (hi : i.agent = .dec)
    (hc : i.count ≠ 0) (hs : s.decHalt = false) (hr : decodeGroup s.cfg i.lanes = r) (hends : r.ends = true)
    (hrsp : groupRsp i.last r = rsp) : exec i s = .next (decNext s (decRspWord rsp) (!i.last)) := by
  rw [exec_dec_processed hi hs, decResultOf_of_group hc, hr, hends, hrsp, haltAfter, Bool.and_true]

theorem exec_tail {i : Instr} {s : State} {vs : List Sextet} (hi : i.agent = .dec) (hc : i.count ≠ 0)
    (hc' : i.count < 4) (hs : s.decHalt = false) (hlanes : i.lanes = vs.map symbolOf) (hlen : vs.length = i.count) :
    exec i s = .next (decNext s (decRspWord (groupRsp i.last (tailGroup s.cfg.tailPolicy i.count vs))) (!i.last)) := by
  refine exec_group_of_ends hi hc hs ?_ (tailGroup_ends _ _ _) rfl
  rw [hlanes, decodeGroup_of_tail _ (by omega), hlen]

/-- Settles O20: in each arm the shape of the symbols gives the result of the group. -/
theorem decoderGroupArms : Obligations.DecoderGroupArms := by
  intro i s hi hc hs v
  refine ⟨fun hcount hvalid => ?_, fun hcount hvalid => ?_, fun k hstop => ?_, fun k hk hstop => ?_, fun hstop => ?_,
    fun hstop => ?_⟩
  · rw [← hcount] at hvalid
    obtain ⟨vs, hlanes, hlen⟩ := lanes_of_validBelow hi hvalid
    rw [hcount] at hlen
    obtain ⟨v1, v2, v3, v4, rfl⟩ := List.length_eq_four.1 hlen
    rw [exec_dec_processed hi hs, decResultOf_of_group hc]
    simp only [v, hlanes, laneValue_map_symbolOf, decodeGroup_of_four]
    simp [haltAfter, groupRsp, valueAt]
  · obtain ⟨vs, hlanes, hlen⟩ := lanes_of_validBelow hi hvalid
    rw [exec_tail hi hc hcount hs hlanes hlen, hlanes]
    simp [Function.comp_def]
  · obtain ⟨vs, rfl, hafter⟩ := invalidStopsAt_iff.1 hstop
    exact exec_group_of_ends hi hc hs (decodeGroup_of_invalid hafter) rfl rfl
  · obtain ⟨vs, rfl, hafter⟩ := padStopsAt_iff.1 hstop
    exact exec_group_of_ends hi hc hs ((decodeGroup_of_pad hafter).trans (padStop_of_lt hk vs)) rfl rfl
  · obtain ⟨vs, hlen, hafter⟩ := padStopsAt_iff.1 hstop
    simp only [v, hafter.laneValue (k := 0) (by omega), hafter.laneValue (k := 1) (by omega)]
    exact exec_group_of_ends hi hc hs (by rw [decodeGroup_of_pad hafter, hlen, padStop_three]) rfl rfl
  · obtain ⟨vs, hlen, hafter⟩ := padStopsAt_iff.1 hstop
    simp only [v, hafter.laneValue (k := 0) (by omega), hafter.laneValue (k := 1) (by omega),
      hafter.laneValue (k := 2) (by omega)]
    exact exec_group_of_ends hi hc hs (by rw [decodeGroup_of_pad hafter, hlen, padStop_four]) rfl rfl

/-! ## The tail policies -/

/-- Settles O21: a tail command by command under EXACT. -/
theorem exactTailEmitsDeterminedBytes : Obligations.ExactTailEmitsDeterminedBytes := by
  intro s last s1 s2 s3 v1 v2 v3 hs hpolicy h1 h2 h3
  obtain rfl := lookup_eq_valid_iff.1 h1
  obtain rfl := lookup_eq_valid_iff.1 h2
  obtain rfl := lookup_eq_valid_iff.1 h3
  have htail (vs : List Sextet) (hlen : vs.length ≠ 4) :
      decodeGroup s.cfg (vs.map symbolOf) = tailExact vs.length vs := by
    rw [decodeGroup_of_tail s.cfg hlen, hpolicy, tailGroup]
  refine ⟨?_, ?_, ?_⟩
  · exact exec_group_of_ends rfl (Nat.succ_ne_zero _) hs ((htail [v1] (by simp)).trans (tailExact_one _)) rfl rfl
  · exact exec_group_of_ends rfl (Nat.succ_ne_zero _) hs ((htail [v1, v2] (by simp)).trans (tailExact_two _)) rfl rfl
  · exact exec_group_of_ends rfl (Nat.succ_ne_zero _) hs ((htail [v1, v2, v3] (by simp)).trans (tailExact_three _)) rfl
      rfl

/-- Settles O22: the tail of a command under STRICT. -/
theorem strictTailIsALengthError : Obligations.StrictTailIsALengthError := by
  intro i s hi hpos hle hs hpolicy hvalid
  obtain ⟨vs, hlanes, hlen⟩ := lanes_of_validBelow hi hvalid
  rw [exec_tail hi (by omega) (by omega) hs hlanes hlen, hpolicy]
  rfl

/-- Settles O23: the tail of a command under REFERENCE; the value of a missing lane is 0 on both sides. -/
theorem referenceTailZeroExtends : Obligations.ReferenceTailZeroExtends := by
  intro i s hi hpos hle hs hpolicy hvalid v
  obtain ⟨vs, hlanes, hlen⟩ := lanes_of_validBelow hi hvalid
  rw [exec_tail hi (by omega) (by omega) hs hlanes hlen, hpolicy]
  simp [v, hlanes, laneValue_map_symbolOf, tailGroup, tailReference, groupRsp, pack_eq_packed]

/-! ## The halt bit -/

/-- Settles O24: the two equations for a command, and when a group ends the stream's data. -/
theorem endedDataHaltsTheDecoder : Obligations.EndedDataHaltsTheDecoder := by
  refine fun i s hi => ⟨fun hs hc => ⟨_, _, exec_dec_processed hi hs, ?_⟩, fun hs => ?_⟩
  · rw [decResultOf_of_group hc, haltAfter, Bool.and_eq_true, Bool.not_eq_true',
      decodeGroup_ends_iff _ (dec_lanes_length hi ▸ dec_count_le hi), dec_lanes_length hi]
  · rw [exec_dec_discarded hi hs]
    cases i.last <;> rfl

/-! ## What is not checked, and what is ignored -/

/-- 42_decode.md R167: groups that agree up to the symbol at which the scan stops have the same result. -/
theorem decodeGroup_eq_of_take {cfg : RunConfig} {lanes lanes' : List Byte} {k : Nat}
    (hstop : PadStopsAt cfg.compatInvalid lanes k ∨ InvalidStopsAt cfg.compatInvalid lanes k)
    (htake : lanes.take (k + 1) = lanes'.take (k + 1)) : decodeGroup cfg lanes = decodeGroup cfg lanes' := by
  rcases hstop with hstop | hstop
  · obtain ⟨vs, rfl, hafter⟩ := padStopsAt_iff.1 hstop
    rw [decodeGroup_of_pad hafter, decodeGroup_of_pad (hafter.of_take htake)]
  · obtain ⟨vs, rfl, hafter⟩ := invalidStopsAt_iff.1 hstop
    rw [decodeGroup_of_invalid hafter, decodeGroup_of_invalid (hafter.of_take htake)]

/-- A command at whose symbols the scan stops is a group. -/
theorem count_ne_zero_of_stop {i : Instr} {compat : Bool} {k : Nat} (hi : i.agent = .dec)
    (hstop : PadStopsAt compat i.lanes k ∨ InvalidStopsAt compat i.lanes k) : i.count ≠ 0 := by
  rw [← dec_lanes_length hi]
  rcases hstop with ⟨-, c, hc, -⟩ | ⟨-, c, hc, -⟩ <;>
    exact Nat.ne_zero_of_lt (List.getElem?_eq_some_iff.1 hc).1

theorem exec_dec4_of_third_pad {s : State} {s1 s2 s3 : Byte} {v1 v2 : Sextet} (hs : s.decHalt = false)
    (h1 : lookup s1 = .valid v1) (h2 : lookup s2 = .valid v2) (h3 : lookup s3 = .pad) (last : Bool) (s4 : Byte) :
    exec (.dec4 last s1 s2 s3 s4) s = .next (decNext s (decRspWord {
      last := last, n := 1, d0 := packed0 v1.toNat v2.toNat, term := true }) (!last)) := by
  obtain rfl := lookup_eq_valid_iff.1 h1
  obtain rfl := lookup_eq_valid_iff.1 h2
  have hstop : StopsAfter s.cfg.compatInvalid [symbolOf v1, symbolOf v2, s3, s4] [v1, v2] .pad :=
    ⟨s3, [s4], rfl, effectiveClass_eq_pad_iff.2 (.inl h3)⟩
  have hr := (decodeGroup_of_pad hstop).trans (padStop_three [v1, v2])
  exact exec_group_of_ends (i := .dec4 last _ _ s3 s4) rfl (Nat.succ_ne_zero _) hs hr rfl rfl

/-- Settles O26: equal results on both commands; and padding as symbol 3 stops the scan before symbol 4. -/
theorem symbolsAfterTheStopAreIgnored : Obligations.SymbolsAfterTheStopAreIgnored := by
  refine ⟨fun i j s k hi hj hcount hlast hstop htake => ?_, fun s last s1 s2 s3 s4 v1 v2 hs h1 h2 h3 => ?_⟩
  · have hc := count_ne_zero_of_stop hi hstop
    refine exec_dec_congr hi hj hlast ?_
    rw [decResultOf_of_group hc, decResultOf_of_group (hcount ▸ hc), decodeGroup_eq_of_take hstop htake]
  · exact exec_dec4_of_third_pad hs h1 h2 h3 last s4

/-- To compare two groups with the same first symbols, these may be taken as VALID: the scan stops at any other. -/
theorem decodeGroup_append_congr {cfg : RunConfig} {pre rest rest' : List Byte}
    (h : ∀ vs : List Sextet, vs.map symbolOf = pre → decodeGroup cfg (pre ++ rest) = decodeGroup cfg (pre ++ rest')) :
    decodeGroup cfg (pre ++ rest) = decodeGroup cfg (pre ++ rest') := by
  rcases lanes_cases cfg.compatInvalid pre with ⟨vs, rfl⟩ | ⟨vs, hstop⟩ | ⟨vs, hstop⟩
  · exact h vs rfl
  · rw [decodeGroup_of_pad (hstop.append rest), decodeGroup_of_pad (hstop.append rest')]
  · rw [decodeGroup_of_invalid (hstop.append rest), decodeGroup_of_invalid (hstop.append rest')]

section Dropped

variable {cfg : RunConfig} {v v' : Sextet}

/-- Padding at position 3 drops the 4 low bits of value 2 (42_decode.md R166). -/
theorem decodeGroup_third_pad_congr {p : Byte} (h : v.extractLsb' 4 2 = v'.extractLsb' 4 2) (hp : lookup p = .pad)
    (a : Byte) (rest : List Byte) :
    decodeGroup cfg (a :: symbolOf v :: p :: rest) = decodeGroup cfg (a :: symbolOf v' :: p :: rest) := by
  refine decodeGroup_append_congr (pre := [a]) fun vs hvs => ?_
  obtain ⟨va, rfl, rfl⟩ := List.map_eq_singleton_iff.1 hvs
  have hstop (w : Sextet) : StopsAfter cfg.compatInvalid ([symbolOf va] ++ symbolOf w :: p :: rest) [va, w] .pad :=
    ⟨p, rest, rfl, effectiveClass_eq_pad_iff.2 (.inl hp)⟩
  rw [decodeGroup_of_pad (hstop v), decodeGroup_of_pad (hstop v')]
  simp [padStop, pack, valueAt, h]

/-- An EXACT tail of 2 symbols drops the 4 low bits of value 2 (42_decode.md R166). -/
theorem decodeGroup_two_congr (h : v.extractLsb' 4 2 = v'.extractLsb' 4 2) (hpolicy : cfg.tailPolicy = .exactTail)
    (a : Byte) : decodeGroup cfg [a, symbolOf v] = decodeGroup cfg [a, symbolOf v'] := by
  refine decodeGroup_append_congr (pre := [a]) fun vs hvs => ?_
  obtain ⟨va, rfl, rfl⟩ := List.map_eq_singleton_iff.1 hvs
  have htail (w : Sextet) := decodeGroup_of_tail cfg (vs := [va, w]) (by simp)
  refine (htail v).trans (Eq.trans ?_ (htail v').symm)
  simp [hpolicy, tailGroup, tailExact, pack, valueAt, h]

/-- Padding at position 4 drops the 2 low bits of value 3 (42_decode.md R166). -/
theorem decodeGroup_fourth_pad_congr {p : Byte} (h : v.extractLsb' 2 4 = v'.extractLsb' 2 4) (hp : lookup p = .pad)
    (a b : Byte) : decodeGroup cfg [a, b, symbolOf v, p] = decodeGroup cfg [a, b, symbolOf v', p] := by
  refine decodeGroup_append_congr (pre := [a, b]) fun vs hvs => ?_
  obtain ⟨va, ws, rfl, rfl, hws⟩ := List.map_eq_cons_iff.1 hvs
  obtain ⟨vb, rfl, rfl⟩ := List.map_eq_singleton_iff.1 hws
  have hstop (w : Sextet) :
      StopsAfter cfg.compatInvalid ([symbolOf va, symbolOf vb] ++ [symbolOf w, p]) [va, vb, w] .pad :=
    ⟨p, [], rfl, effectiveClass_eq_pad_iff.2 (.inl hp)⟩
  rw [decodeGroup_of_pad (hstop v), decodeGroup_of_pad (hstop v')]
  simp [padStop, pack, valueAt, h]

/-- An EXACT tail of 3 symbols drops the 2 low bits of value 3 (42_decode.md R166). -/
theorem decodeGroup_three_congr (h : v.extractLsb' 2 4 = v'.extractLsb' 2 4) (hpolicy : cfg.tailPolicy = .exactTail)
    (a b : Byte) : decodeGroup cfg [a, b, symbolOf v] = decodeGroup cfg [a, b, symbolOf v'] := by
  refine decodeGroup_append_congr (pre := [a, b]) fun vs hvs => ?_
  obtain ⟨va, ws, rfl, rfl, hws⟩ := List.map_eq_cons_iff.1 hvs
  obtain ⟨vb, rfl, rfl⟩ := List.map_eq_singleton_iff.1 hws
  have htail (w : Sextet) := decodeGroup_of_tail cfg (vs := [va, vb, w]) (by simp)
  refine (htail v).trans (Eq.trans ?_ (htail v').symm)
  simp [hpolicy, tailGroup, tailExact, pack, valueAt, h]

end Dropped

/-- Settles O25: the groups that differ in dropped bits only have the same result; `TR==` is computed. -/
theorem droppedBitsAreNotChecked : Obligations.DroppedBitsAreNotChecked := by
  refine ⟨fun s last a b b' p d v v' hb hb' hv hp => ?_, fun s last a b c c' p v v' hc hc' hv hp => ?_, fun s hs => ?_⟩
  · obtain rfl := lookup_eq_valid_iff.1 hb
    obtain rfl := lookup_eq_valid_iff.1 hb'
    exact ⟨exec_dec_congr rfl rfl rfl (decodeGroup_third_pad_congr hv hp a [d]),
      exec_dec_congr rfl rfl rfl (decodeGroup_third_pad_congr hv hp a []),
      fun hpolicy => exec_dec_congr rfl rfl rfl (decodeGroup_two_congr hv hpolicy a)⟩
  · obtain rfl := lookup_eq_valid_iff.1 hc
    obtain rfl := lookup_eq_valid_iff.1 hc'
    exact ⟨exec_dec_congr rfl rfl rfl (decodeGroup_fourth_pad_congr hv hp a b),
      fun hpolicy => exec_dec_congr rfl rfl rfl (decodeGroup_three_congr hv hpolicy a b)⟩
  · exact exec_dec4_of_third_pad (v1 := 19) (v2 := 17) hs (lookup_eq_valid_iff.2 rfl) (lookup_eq_valid_iff.2 rfl)
      lookup_padc true 0x3D

end Sys2Proof.Machine
end

