-- ==== Sys2Proof/Proofs/DecodeBuffer.lean ====
section
/-! A whole DECODE (30_encoding.md R76, 42_decode.md R170): a run of the decoder alone gives the answers to its words, the
answers to commands that keep the unit running are their responses one for one, and the size of the result is that of the
full groups and the final group of the text. -/

namespace Sys2Proof.Machine

open Sys2Proof.Claims

/-! ## The answers to the words of a list of commands -/

/-- The halt bit after the decoder has answered a sequence of command words. -/
def decHaltAfter (cfg : RunConfig) (halt : Bool) (ws : List DecWord) : Bool :=
  ws.foldl (fun h w => (decAnswer cfg h w).2) halt

/-- The response of a processed decoder command. -/
def decRspOf (cfg : RunConfig) (i : Instr) : DecRsp := groupRsp i.last (decResultOf cfg i)

/-- The word of a decoder command decodes to the command. -/
theorem encode_dec_decodes {i : Instr} (hi : i.agent = .dec) : ∃ w, encode i = .dec w ∧ decodeDec w = .ok i := by
  cases i with
  | decEnd | dec1 | dec2 | dec3 | dec4 => exact ⟨_, rfl, by simp [decodeDec, decFields_decWordOf]⟩
  | encEnd | enc1 | enc2 | enc3 => cases hi

/-- A decoder command after which a unit that was not halted is still not halted. -/
def KeepsDecRunning (cfg : RunConfig) (i : Instr) : Prop :=
  i.agent = .dec ∧ haltAfter i.last (decResultOf cfg i).ends = false

/-- Commands that keep the unit running are all processed: each answers with its own response. -/
theorem decAnswers_decWords {cfg : RunConfig} {is : List Instr} (h : ∀ i ∈ is, KeepsDecRunning cfg i) :
    decAnswers cfg false (decWords is) = (is.map (decRspOf cfg)).map decRspWord ∧
      decHaltAfter cfg false (decWords is) = false := by
  induction is with
  | nil => exact ⟨rfl, rfl⟩
  | cons i is ih =>
    obtain ⟨⟨hi, hrun⟩, his⟩ := List.forall_mem_cons.1 h
    obtain ⟨w, hw, hdecode⟩ := encode_dec_decodes hi
    obtain ⟨ihanswers, ihhalt⟩ := ih his
    have hwords : decWords (i :: is) = w :: decWords is := by simp [decWords, hw]
    have hanswer : decAnswer cfg false w = (decRspWord (decRspOf cfg i), false) := hrun ▸ decAnswer_of_decodeDec hdecode cfg
    refine ⟨?_, ?_⟩
    · simp only [hwords, decAnswers, hanswer, ihanswers, List.map_cons]
    · rw [hwords, decHaltAfter, List.foldl_cons, hanswer]
      exact ihhalt

theorem decRspCount_decRspWord (r : DecRsp) : decRspCount (decRspWord r) = r.n.toNat := by
  obtain ⟨-, -, -, -, -, -, -, -, -, hcount, -⟩ := decRspWord_fields r
  exact hcount

theorem resultSize_append (rs rs' : List RspWord) : resultSize (rs ++ rs') = resultSize rs + resultSize rs' := by
  simp [resultSize]

theorem resultSize_singleton (r : DecRsp) : resultSize [decRspWord r] = r.n.toNat := by
  simp [resultSize, decRspCount_decRspWord]

/-! ## A run of the decoder alone -/

/-- With nothing to do for the host and the encoder, the decoder moves and answers its oldest word. -/
theorem step_decoder_alone {s : State} {w : DecWord} {rest : List DecWord} (hhost : s.hostMoves = [])
    (henc : s.encCmdQ = []) (hq : s.decCmdQ = w :: rest) (hroom : s.decRspQ.length < s.cfg.decDepth) :
    step s = .next (decNext { passTurn s with decCmdQ := rest } (decAnswer s.cfg s.decHalt w).1
      (decAnswer s.cfg s.decHalt w).2) := by
  have hready : readyAgents s = [.dec] := by
    simp [readyAgents, agentReady, hostReady, hhost, encReady, henc, decReady_iff, hq, hroom]
  rw [step_of_nextAgent (nextAgent_of_only hready)]
  exact stepDec_eq_decNext (s := passTurn s) hq

/-- The decoder alone, with room for every response, answers every word that waits. -/
theorem run_decoder_alone {s : State} (hhost : s.hostMoves = []) (henc : s.encCmdQ = [])
    (hroom : s.decRspQ.length + s.decCmdQ.length ≤ s.cfg.decDepth) :
    ∃ t, core.run s.decCmdQ.length s = .next t ∧ t.decCmdQ = [] ∧ t.decHalt = decHaltAfter s.cfg s.decHalt s.decCmdQ ∧
      t.decRspQ = s.decRspQ ++ decAnswers s.cfg s.decHalt s.decCmdQ := by
  induction hq : s.decCmdQ generalizing s with
  | nil => exact ⟨s, run_zero s, hq, rfl, (List.append_nil _).symm⟩
  | cons w rest ih =>
    rw [hq, List.length_cons] at hroom
    have hrest (r : RspWord) : (s.decRspQ ++ [r]).length + rest.length ≤ s.cfg.decDepth := by
      rw [List.length_append, List.length_singleton]
      omega
    obtain ⟨t, hrun, hempty, hhalt, hrsp⟩ :=
      ih (s := decNext { passTurn s with decCmdQ := rest } (decAnswer s.cfg s.decHalt w).1
        (decAnswer s.cfg s.decHalt w).2) hhost henc (hrest _) rfl
    refine ⟨t, ?_, hempty, hhalt, ?_⟩
    · rw [List.length_cons, run_succ _ (step_decoder_alone hhost henc hq (by omega)), hrun]
    · simpa [decNext, decAnswers] using hrsp

/-- A run over the words of DECODE leaves their answers. -/
theorem run_decodeBench {txt : List Byte} {u : State} (h : DecodeBench txt u) :
    ∃ v, core.run u.decCmdQ.length u = .next v ∧ v.decCmdQ = [] ∧
      v.decHalt = decHaltAfter u.cfg false (decWords (expandDecode txt)) ∧
      v.decRspQ = decAnswers u.cfg false (decWords (expandDecode txt)) := by
  obtain ⟨v, hrun, hempty, hhalt, hrsp⟩ := run_decoder_alone h.hostIdle h.encIdle (by simpa [h.noResponse] using h.room)
  refine ⟨v, hrun, hempty, ?_, ?_⟩
  · rw [hhalt, h.notHalted, h.commands]
  · rw [hrsp, h.noResponse, h.notHalted, h.commands, List.nil_append]

/-! ## The commands of DECODE -/

/-- The final command of DECODE is a group of the symbols that are left. -/
theorem FinalDecode.isGroup {left : List Byte} {final : Instr} (h : FinalDecode left final) :
    final.agent = .dec ∧ final.last = true ∧ final.count ≠ 0 ∧ final.lanes = left := by
  rcases h with ⟨a, rfl, rfl⟩ | ⟨a, b, rfl, rfl⟩ | ⟨a, b, c, rfl, rfl⟩ | ⟨a, b, c, d, rfl, rfl⟩ <;>
    exact ⟨rfl, rfl, Nat.succ_ne_zero _, rfl⟩

/-- A command with LAST = 1 leaves the unit not halted whatever its group. -/
theorem keepsDecRunning_of_last {i : Instr} (hi : i.agent = .dec) (hlast : i.last = true) (cfg : RunConfig) :
    KeepsDecRunning cfg i := ⟨hi, by rw [hlast]; rfl⟩

/-- Where the symbols of the full groups are VALID, each full group emits 3 bytes and goes on. -/
theorem DecodeSplit.full_result {txt : List Byte} {full : List Instr} {final : Instr} (h : DecodeSplit txt full final)
    (hvalid : ValidBelow txt (4 * full.length)) (cfg : RunConfig) {i : Instr} (hi : i ∈ full) :
    i.agent = .dec ∧ (decResultOf cfg i).n = 3 ∧ (decResultOf cfg i).ends = false := by
  obtain ⟨k, hk, hik⟩ := List.mem_iff_getElem.1 hi
  have hlanes : i.lanes = (txt.drop (4 * k)).take 4 := by simpa [hk, hik] using h.carried k hk
  obtain ⟨ws, rest, rfl, hlen⟩ := validBelow_iff.1 hvalid
  have hgroup : i.lanes = ((ws.drop (4 * k)).take 4).map symbolOf := by
    rw [hlanes, List.drop_append_of_le_length (by rw [List.length_map]; omega),
      List.take_append_of_le_length (by rw [List.length_drop, List.length_map]; omega), List.map_take, List.map_drop]
  have hfour : ((ws.drop (4 * k)).take 4).length = 4 := by
    rw [List.length_take, List.length_drop]
    omega
  obtain ⟨v1, v2, v3, v4, hvs⟩ := List.length_eq_four.1 hfour
  obtain ⟨a, b, c, d, rfl⟩ := h.isFull i hi
  have hcount : (Instr.dec4 false a b c d).count ≠ 0 := Nat.succ_ne_zero _
  rw [decResultOf_of_group hcount, hgroup, hvs, decodeGroup_of_four]
  exact ⟨rfl, rfl, rfl⟩

/-- The number of full groups of a text: DECODE keeps 1 to 4 symbols for its final command (30_encoding.md R76). -/
def fullGroups (m : Nat) : Nat := (m - 1) / 4

/-- Where the symbols of the full groups are VALID, DECODE is processed to its end: the unit is not halted after it, and its
responses are those of the full groups, of 3 bytes each, and then that of the final group. -/
theorem decode_answers {txt : List Byte} (cfg : RunConfig) (hne : txt ≠ [])
    (hvalid : ValidBelow txt (4 * fullGroups txt.length)) :
    decHaltAfter cfg false (decWords (expandDecode txt)) = false ∧
    ∃ rs, decAnswers cfg false (decWords (expandDecode txt)) =
        rs ++ [decRspWord (groupRsp true (decodeGroup cfg (txt.drop (4 * fullGroups txt.length))))] ∧
      resultSize rs = 3 * fullGroups txt.length := by
  obtain ⟨full, final, heq, hsplit⟩ := expandDecode_split txt hne
  have hcount : full.length = fullGroups txt.length := hsplit.count
  obtain ⟨hagent, hlast, hgroup, hlanes⟩ := hsplit.rest.isGroup
  rw [← hcount] at hvalid ⊢
  have hfull := fun i hi => hsplit.full_result hvalid cfg (i := i) hi
  have hrun : ∀ i ∈ full ++ [final], KeepsDecRunning cfg i := by
    intro i hi
    rcases List.mem_append.1 hi with hi | hi
    · obtain ⟨hdec, -, hends⟩ := hfull i hi
      exact ⟨hdec, by rw [hends, haltAfter, Bool.and_false]⟩
    · exact List.mem_singleton.1 hi ▸ keepsDecRunning_of_last hagent hlast cfg
  obtain ⟨hanswers, hhalt⟩ := decAnswers_decWords hrun
  rw [heq]
  refine ⟨hhalt, (full.map (decRspOf cfg)).map decRspWord, ?_, ?_⟩
  · simp only [hanswers, List.map_append, List.map_cons, List.map_nil, decRspOf, hlast, decResultOf_of_group hgroup, hlanes]
  · have hn : ∀ i ∈ full, (decRspOf cfg i).n.toNat = 3 := by
      intro i hi
      obtain ⟨-, hn, -⟩ := hfull i hi
      rw [decRspOf, groupRsp, hn]
      rfl
    simp only [resultSize, List.map_map, Function.comp_def, decRspCount_decRspWord]
    rw [List.map_congr_left hn, List.map_const', List.sum_replicate, smul_eq_mul, Nat.mul_comm]

/-! ## The size of the final group -/

section FinalGroup

variable {cfg : RunConfig} {vs : List Sextet}

theorem decodeGroup_n_of_reference (hpolicy : cfg.tailPolicy = .referenceTail) (hlen : vs.length ≤ 4) :
    (decodeGroup cfg (vs.map symbolOf)).n.toNat = min vs.length 3 := by
  by_cases hfour : vs.length = 4
  · obtain ⟨v1, v2, v3, v4, rfl⟩ := List.length_eq_four.1 hfour
    rw [decodeGroup_of_four]
    rfl
  · rw [decodeGroup_of_tail cfg hfour, hpolicy, tailGroup, tailReference, BitVec.toNat_ofNat]
    omega

/-- Under EXACT a final group of 2 to 4 VALID symbols emits one byte less than it has symbols. -/
theorem decodeGroup_n_of_exact (hpolicy : cfg.tailPolicy = .exactTail) (hlen : 2 ≤ vs.length) (hlen' : vs.length ≤ 4) :
    (decodeGroup cfg (vs.map symbolOf)).n.toNat = vs.length - 1 := by
  obtain hfour | hthree | htwo : vs.length = 4 ∨ vs.length = 3 ∨ vs.length = 2 := by omega
  · obtain ⟨v1, v2, v3, v4, rfl⟩ := List.length_eq_four.1 hfour
    rw [decodeGroup_of_four]
    rfl
  · rw [decodeGroup_of_tail cfg (by omega), hpolicy, tailGroup, hthree, tailExact_three]
    rfl
  · rw [decodeGroup_of_tail cfg (by omega), hpolicy, tailGroup, htwo, tailExact_two]
    rfl

theorem decodeGroup_errLen_of_exact (hpolicy : cfg.tailPolicy = .exactTail) (hlen : vs.length = 1) :
    (decodeGroup cfg (vs.map symbolOf)).errLen = true := by
  rw [decodeGroup_of_tail cfg (by omega), hpolicy, tailGroup, hlen, tailExact_one]

theorem stopsAfter_padc (compat : Bool) (vs : List Sextet) (rest : List Byte) :
    StopsAfter compat (vs.map symbolOf ++ padc :: rest) vs .pad :=
  ⟨padc, rest, rfl, effectiveClass_eq_pad_iff.2 (.inl lookup_padc)⟩

theorem decodeGroup_n_of_two_pads (hlen : vs.length = 2) :
    (decodeGroup cfg (vs.map symbolOf ++ [padc, padc])).n.toNat = 1 := by
  rw [decodeGroup_of_pad (stopsAfter_padc _ vs _), hlen, padStop_three]
  rfl

theorem decodeGroup_n_of_one_pad (hlen : vs.length = 3) :
    (decodeGroup cfg (vs.map symbolOf ++ [padc])).n.toNat = 2 := by
  rw [decodeGroup_of_pad (stopsAfter_padc _ vs _), hlen, padStop_four]
  rfl

end FinalGroup

/-! ## The size law -/

/-- 42_decode.md R170 as a law of the responses to a text of m symbols with the given number of final `=`. -/
def ObeysSizeLaw (cfg : RunConfig) (pads m : Nat) (rs : List RspWord) : Prop :=
  (pads = 0 → cfg.tailPolicy = .referenceTail → resultSize rs = 3 * (m / 4) + m % 4 ∧ resultSize rs = (3 * m + 3) / 4) ∧
  (pads = 0 → cfg.tailPolicy = .exactTail → m % 4 ≠ 1 →
    resultSize rs = 3 * (m / 4) + (if m % 4 = 0 then 0 else m % 4 - 1)) ∧
  (pads = 0 → cfg.tailPolicy = .exactTail → m % 4 = 1 → ∃ r, rs.getLast? = some r ∧ r[31] = true) ∧
  (pads = 2 → m % 4 = 0 → resultSize rs = 3 * (m / 4) - 2) ∧
  (pads = 1 → m % 4 = 0 → resultSize rs = 3 * (m / 4) - 1)

theorem exists_map_symbolOf {body : List Byte} (h : ∀ c ∈ body, ∃ v, lookup c = .valid v) :
    ∃ ws : List Sextet, body = ws.map symbolOf := by
  refine validBelow_length_iff.1 fun j hj => ?_
  obtain ⟨v, hv⟩ := h body[j] (List.getElem_mem hj)
  exact ⟨body[j], v, List.getElem?_eq_getElem hj, hv⟩

/-- A text of VALID symbols and then padding, where the padding stands in the final group: the size of the result, and the
last response. -/
theorem decode_size_of_text (cfg : RunConfig) {ws : List Sextet} {pads : Nat} (hpos : 0 < ws.length + pads)
    (hfinal : 4 * fullGroups (ws.length + pads) ≤ ws.length) :
    resultSize (decAnswers cfg false (decWords (expandDecode (ws.map symbolOf ++ List.replicate pads padc)))) =
        3 * fullGroups (ws.length + pads) + (decodeGroup cfg
          ((ws.drop (4 * fullGroups (ws.length + pads))).map symbolOf ++ List.replicate pads padc)).n.toNat ∧
      (decAnswers cfg false (decWords (expandDecode (ws.map symbolOf ++ List.replicate pads padc)))).getLast? =
        some (decRspWord (groupRsp true (decodeGroup cfg
          ((ws.drop (4 * fullGroups (ws.length + pads))).map symbolOf ++ List.replicate pads padc)))) := by
  have hlen : (ws.map symbolOf ++ List.replicate pads padc).length = ws.length + pads := by simp
  have hne : ws.map symbolOf ++ List.replicate pads padc ≠ [] := List.ne_nil_of_length_pos (hlen ▸ hpos)
  have hvalid : ValidBelow (ws.map symbolOf ++ List.replicate pads padc) (4 * fullGroups (ws.length + pads)) :=
    fun j hj => validBelow_iff.2 ⟨ws, _, rfl, rfl⟩ j (Nat.lt_of_lt_of_le hj hfinal)
  obtain ⟨-, rs, hanswers, hsize⟩ := decode_answers cfg hne (by rwa [hlen])
  rw [hlen, List.drop_append_of_le_length (by rwa [List.length_map]), ← List.map_drop] at hanswers
  rw [hlen] at hsize
  refine ⟨?_, ?_⟩
  · rw [hanswers, resultSize_append, resultSize_singleton, hsize]
    rfl
  · rw [hanswers, List.getLast?_concat]

theorem resultSize_of_empty_text (cfg : RunConfig) :
    resultSize (decAnswers cfg false (decWords (expandDecode []))) = 0 := by
  have hrun : ∀ i ∈ expandDecode [], KeepsDecRunning cfg i :=
    List.forall_mem_singleton.2 (keepsDecRunning_of_last rfl rfl cfg)
  obtain ⟨hanswers, -⟩ := decAnswers_decWords hrun
  rw [hanswers]
  exact (resultSize_singleton _).trans (by rw [decRspOf, decResultOf_decEnd]; rfl)

theorem decAnswers_obeysSizeLaw (cfg : RunConfig) {body : List Byte} (pads : Nat)
    (hbody : ∀ c ∈ body, ∃ v, lookup c = .valid v) :
    ObeysSizeLaw cfg pads (body.length + pads)
      (decAnswers cfg false (decWords (expandDecode (body ++ List.replicate pads padc)))) := by
  obtain ⟨ws, rfl⟩ := exists_map_symbolOf hbody
  rw [List.length_map]
  by_cases hm : ws.length + pads = 0
  · obtain ⟨hws, rfl⟩ := Nat.add_eq_zero_iff.1 hm
    obtain rfl := List.length_eq_zero_iff.1 hws
    simp [ObeysSizeLaw, resultSize_of_empty_text]
  have hpos : 0 < ws.length + pads := Nat.pos_of_ne_zero hm
  have htext := decode_size_of_text cfg hpos
  generalize decAnswers cfg false _ = rs at htext ⊢
  generalize hq : fullGroups (ws.length + pads) = q at htext
  rw [fullGroups] at hq
  have hrest : (ws.drop (4 * q)).length = ws.length - 4 * q := List.length_drop
  refine ⟨fun hpads hpolicy => ?_, fun hpads hpolicy hlone => ?_, fun hpads hpolicy hlone => ?_, fun hpads hfour => ?_,
    fun hpads hfour => ?_⟩ <;> obtain ⟨hsize, hlast⟩ := htext (by omega) <;> subst hpads
  · rw [List.replicate_zero, List.append_nil, decodeGroup_n_of_reference hpolicy (by omega)] at hsize
    omega
  · rw [List.replicate_zero, List.append_nil, decodeGroup_n_of_exact hpolicy (by omega) (by omega)] at hsize
    split_ifs <;> omega
  · obtain ⟨-, -, -, herrLen, -⟩ := decRspWord_fields (groupRsp true (decodeGroup cfg ((ws.drop (4 * q)).map symbolOf)))
    rw [List.replicate_zero, List.append_nil] at hlast
    exact ⟨_, hlast, herrLen.trans (decodeGroup_errLen_of_exact hpolicy (by omega))⟩
  · have hn : (decodeGroup cfg ((ws.drop (4 * q)).map symbolOf ++ List.replicate 2 padc)).n.toNat = 1 :=
      decodeGroup_n_of_two_pads (by omega)
    omega
  · have hn : (decodeGroup cfg ((ws.drop (4 * q)).map symbolOf ++ List.replicate 1 padc)).n.toNat = 2 :=
      decodeGroup_n_of_one_pad (by omega)
    omega

/-- Settles O52: a run of the decoder alone leaves the answers to the words of DECODE, which obey the size law. -/
theorem decodedSizeLaw : Obligations.DecodedSizeLaw := by
  intro body pads u hbody hbench m
  obtain ⟨v, hrun, -, -, hrsp⟩ := run_decodeBench hbench
  exact ⟨v, hrun, hrsp ▸ decAnswers_obeysSizeLaw u.cfg pads hbody⟩

end Sys2Proof.Machine
end

