-- ==== Sys2Proof/Proofs/Reencoding.lean ====
section
/-! The round trip between commands and words (30_encoding.md section 2): a command comes back from its word, and a legal
word comes back from its command but for its ignored bits, field by field. -/

namespace Sys2Proof.Machine

/-- Settles O2: the commands of each unit decode from their own words. -/
theorem decodeOfEncodeIsIdentity : Obligations.DecodeOfEncodeIsIdentity := by
  intro i _
  cases hi : i.agent with
  | host => cases i <;> cases hi
  | enc =>
    obtain ⟨w, hw, hdecode⟩ := encode_enc_decodes hi
    rw [hw]
    exact hdecode
  | dec =>
    obtain ⟨w, hw, hdecode⟩ := encode_dec_decodes hi
    rw [hw]
    exact hdecode

/-! ## The fields of a masked word -/

theorem encFields_and (w m : EncWord) : encFields (w &&& m) =
    { rsvd := (encFields w).rsvd &&& (encFields m).rsvd
      last := (encFields w).last && (encFields m).last
      pd := (encFields w).pd && (encFields m).pd
      cnt := (encFields w).cnt &&& (encFields m).cnt
      b0 := (encFields w).b0 &&& (encFields m).b0
      b1 := (encFields w).b1 &&& (encFields m).b1
      b2 := (encFields w).b2 &&& (encFields m).b2 } := by
  simp only [encFields, BitVec.extractLsb'_and, BitVec.getElem_and]

theorem decFields_and (w m : DecWord) : decFields (w &&& m) =
    { rsvd := (decFields w).rsvd &&& (decFields m).rsvd
      last := (decFields w).last && (decFields m).last
      cnt := (decFields w).cnt &&& (decFields m).cnt
      s1 := (decFields w).s1 &&& (decFields m).s1
      s2 := (decFields w).s2 &&& (decFields m).s2
      s3 := (decFields w).s3 &&& (decFields m).s3
      s4 := (decFields w).s4 &&& (decFields m).s4 } := by
  simp only [decFields, BitVec.extractLsb'_and, BitVec.getElem_and]

/-- A mask byte of ones keeps the lane. -/
theorem byte_and_ones (b : Byte) : b &&& 255#8 = b := BitVec.and_allOnes

theorem encWordOf_eq_and {c : EncCmd} {w m : EncWord} (h : encFields (w &&& m) = c) : encWordOf c = w &&& m := by
  rw [← h, encWordOf_encFields]

theorem decWordOf_eq_and {c : DecCmd} {w m : DecWord} (h : decFields (w &&& m) = c) : decWordOf c = w &&& m := by
  rw [← h, decWordOf_decFields]

theorem rsvd_of_legalEnc {w : EncWord} (hm : malformedEnc w = false) : w.extractLsb' 28 4 = 0#4 := by
  by_contra h
  simp [malformedEnc, h] at hm

theorem rsvd_of_legalDec {w : DecWord} (hm : malformedDec w = false) : w.extractLsb' 36 4 = 0#4 := by
  by_contra h
  simp [malformedDec, h] at hm

/-- Command by command, the fields of the masked word are the fields that the command's encoding writes. -/
theorem encode_of_decodeEnc {w : EncWord} {i : Instr} (h : decodeEnc w = .ok i) : encode i =
    .enc (w &&& (match i.count with | 0 => 0xFB000000 | 1 => 0xFFFF0000 | 2 => 0xFFFFFF00 | _ => 0xFFFFFFFF)) := by
  rcases decodeEnc_cases w with ⟨-, e, hd⟩ | ⟨hm, ⟨hc, hl, hd⟩ | ⟨hc, hd⟩ | ⟨hc, hd⟩ | ⟨hc, hd⟩⟩ <;>
    cases hd.symm.trans h <;>
    refine congrArg CmdWord.enc (encWordOf_eq_and ?_) <;>
    rw [encFields_and] <;>
    simp [encFields, rsvd_of_legalEnc hm, hc, Instr.count, byte_and_ones]
  exact hl

/-- Command by command, the fields of the masked word are the fields that the command's encoding writes. -/
theorem encode_of_decodeDec {w : DecWord} {i : Instr} (h : decodeDec w = .ok i) : encode i =
    .dec (w &&& (match i.count with
      | 0 => 0xFF00000000 | 1 => 0xFFFF000000 | 2 => 0xFFFFFF0000 | 3 => 0xFFFFFFFF00 | _ => 0xFFFFFFFFFF)) := by
  rcases decodeDec_cases w with
      ⟨-, e, hd⟩ | ⟨hm, ⟨hc, hl, hd⟩ | ⟨hc, hd⟩ | ⟨hc, hd⟩ | ⟨hc, hd⟩ | ⟨hc, hd⟩⟩ <;>
    cases hd.symm.trans h <;>
    refine congrArg CmdWord.dec (decWordOf_eq_and ?_) <;>
    rw [decFields_and] <;>
    simp [decFields, rsvd_of_legalDec hm, hc, Instr.count, byte_and_ones]
  exact hl

/-- Settles O3: the masks keep RSVD, LAST, CNT and the operands of each command, and clear the rest of its word. -/
theorem reencodingClearsOnlyIgnoredBits : Obligations.ReencodingClearsOnlyIgnoredBits :=
  ⟨fun _ _ => encode_of_decodeEnc, fun _ _ => encode_of_decodeDec⟩

end Sys2Proof.Machine
end

