-- ==== Sys2Proof/Proofs/DecoderResponseFormat.lean ====
section
/-! The format of the decoder's responses (30_encoding.md R67, 60_exceptions.md R204): what every group result keeps to, and
with it the check of the response word, whether the command was malformed, discarded or processed. -/

namespace Sys2Proof.Machine

open Sys2Proof.Safety

/-! ## Group results -/

/-- How many of ERR_LEN, ERR_PAD and ERR_INV a group result has set. -/
def GroupResult.errCount (r : GroupResult) : Nat := r.errLen.toNat + r.errPad.toNat + r.errInv.toNat

/-- What the response format asks of a group result: at most one error, no byte and no TERM with it, EPOS only with it, TERM
only after 1 or 2 bytes, and 0x00 in the lanes at N and above. -/
structure GroupResult.FormatOk (r : GroupResult) : Prop where
  oneError : r.errCount ≤ 1
  errorEmpty : r.errCount = 1 → r.n.toNat = 0
  termBytes : r.term = true → r.errCount = 0 ∧ (r.n.toNat = 1 ∨ r.n.toNat = 2)
  eposOfError : r.errLen = true ∨ r.errPad = true ∨ r.errInv = true ∨ r.epos = 0
  lanesEmpty : ([r.d0, r.d1, r.d2].drop r.n.toNat).all (fun c => c == 0) = true

/-- The results with an ERR bit: that bit, EPOS, and nothing else. -/
theorem formatOk_of_error {errLen errPad errInv : Bool} (h : errLen.toNat + errPad.toNat + errInv.toNat = 1)
    (epos : BitVec 2) (ends : Bool) : GroupResult.FormatOk { errLen, errPad, errInv, epos, ends } where
  oneError := h.le
  errorEmpty _ := rfl
  termBytes := nofun
  eposOfError := by
    cases errLen <;> cases errPad <;> cases errInv <;> simp at h ⊢
  lanesEmpty := rfl

/-- The results without an ERR bit and without TERM: bytes alone. -/
theorem formatOk_of_bytes {n : BitVec 2} {d0 d1 d2 : Byte}
    (h : ([d0, d1, d2].drop n.toNat).all (fun c => c == 0) = true) (ends : Bool) :
    GroupResult.FormatOk { n, d0, d1, d2, ends } where
  oneError := Nat.zero_le 1
  errorEmpty := nofun
  termBytes := nofun
  eposOfError := .inr (.inr (.inr rfl))
  lanesEmpty := h

theorem lengthError_formatOk (cnt : Nat) : (lengthError cnt).FormatOk :=
  formatOk_of_error (errLen := true) (errPad := false) (errInv := false) rfl _ _

theorem tailExact_formatOk (cnt : Nat) (vs : List Sextet) : (tailExact cnt vs).FormatOk := by
  simp only [tailExact]
  split_ifs
  · exact lengthError_formatOk 1
  · exact formatOk_of_bytes rfl true
  · exact formatOk_of_bytes rfl true

/-- The last two bytes of a REFERENCE tail are emitted only where its CNT reaches them. -/
theorem tailReference_formatOk {cnt : Nat} (hpos : cnt ≠ 0) (hlt : cnt < 4) (vs : List Sextet) :
    (tailReference cnt vs).FormatOk := by
  refine formatOk_of_bytes ?_ true
  obtain rfl | rfl | rfl : cnt = 1 ∨ cnt = 2 ∨ cnt = 3 := by omega
  all_goals rfl

theorem tailGroup_formatOk (policy : TailPolicy) {cnt : Nat} (hpos : cnt ≠ 0) (hlt : cnt < 4) (vs : List Sextet) :
    (tailGroup policy cnt vs).FormatOk := by
  cases policy with
  | exactTail => exact tailExact_formatOk cnt vs
  | strictTail => exact lengthError_formatOk cnt
  | referenceTail => exact tailReference_formatOk hpos hlt vs

theorem padStop_formatOk (p : Nat) (vs : List Sextet) : (padStop p vs).FormatOk := by
  simp only [padStop]
  split_ifs
  · exact formatOk_of_error (errLen := false) (errPad := true) (errInv := false) rfl _ _
  · exact ⟨Nat.zero_le 1, nofun, fun _ => ⟨rfl, .inl rfl⟩, .inr (.inr (.inr rfl)), rfl⟩
  · exact ⟨Nat.zero_le 1, nofun, fun _ => ⟨rfl, .inr rfl⟩, .inr (.inr (.inr rfl)), rfl⟩

theorem decodeGroup_formatOk (cfg : RunConfig) {lanes : List Byte} (hpos : lanes.length ≠ 0) (hle : lanes.length ≤ 4) :
    (decodeGroup cfg lanes).FormatOk := by
  rcases lanes_cases cfg.compatInvalid lanes with ⟨vs, rfl⟩ | ⟨vs, hstop⟩ | ⟨vs, hstop⟩
  · rw [List.length_map] at hpos hle
    by_cases hfour : vs.length = 4
    · obtain ⟨v1, v2, v3, v4, rfl⟩ := List.length_eq_four.1 hfour
      rw [decodeGroup_of_four]
      exact formatOk_of_bytes rfl false
    · rw [decodeGroup_of_tail cfg hfour]
      exact tailGroup_formatOk _ hpos (by omega) vs
  · rw [decodeGroup_of_pad hstop]
    exact padStop_formatOk _ vs
  · rw [decodeGroup_of_invalid hstop]
    exact formatOk_of_error (errLen := false) (errPad := false) (errInv := true) rfl _ _

theorem decResultOf_formatOk (cfg : RunConfig) {i : Instr} (hi : i.agent = .dec) : (decResultOf cfg i).FormatOk := by
  by_cases hc : i.count = 0
  · rw [decResultOf, if_pos hc]
    exact formatOk_of_bytes rfl false
  · rw [decResultOf_of_group hc]
    rw [← dec_lanes_length hi] at hc
    exact decodeGroup_formatOk cfg hc (dec_lanes_length hi ▸ dec_count_le hi)

/-! ## Response words -/

theorem decErrCount_groupRsp (last : Bool) (r : GroupResult) : decErrCount (decRspWord (groupRsp last r)) = r.errCount := by
  obtain ⟨-, hcmd, -, hlen, hpad, hinv, -⟩ := decRspWord_fields (groupRsp last r)
  rw [decErrCount, hcmd, hlen, hpad, hinv]
  simp [groupRsp, GroupResult.errCount]

/-- The check of a DEC_RSP word, clause by clause. -/
structure DecRspFormat (w : RspWord) : Prop where
  topBits : w.extractLsb' 35 5 = 0
  errCmdAlone : w[34] = true → w = 0x0400000000
  oneError : decErrCount w ≤ 1
  noBytes : decErrCount w = 1 ∨ w[28] = true → decRspCount w = 0
  discNoError : w[28] = true → decErrCount w = 0 ∧ ¬ w[27] = true
  termBytes : w[27] = true → decErrCount w = 0 ∧ (decRspCount w = 1 ∨ decRspCount w = 2)
  eposOfError : w[31] = true ∨ w[30] = true ∨ w[29] = true ∨ w.extractLsb' 32 2 = 0
  lanesEmpty : ((decRspLanes w).drop (decRspCount w)).all (fun c => c == 0) = true

theorem decRspOk_iff (w : RspWord) : decRspOk w = true ↔ DecRspFormat w := by
  simp only [decRspOk, Bool.and_eq_true, Bool.or_eq_true, Bool.not_eq_true', beq_iff_eq, decide_eq_true_eq, and_assoc,
    or_assoc, ← Bool.not_eq_true, ← imp_iff_not_or]
  exact ⟨fun ⟨htop, hcmd, hone, hbytes, hdisc, hterm, hepos, hlanes⟩ =>
      ⟨htop, hcmd, hone, hbytes, hdisc, hterm, hepos, hlanes⟩,
    fun h => ⟨h.topBits, h.errCmdAlone, h.oneError, h.noBytes, h.discNoError, h.termBytes, h.eposOfError, h.lanesEmpty⟩⟩

theorem decRspFormat_groupRsp {r : GroupResult} (h : r.FormatOk) (last : Bool) :
    DecRspFormat (decRspWord (groupRsp last r)) := by
  have herr := decErrCount_groupRsp last r
  obtain ⟨htop, hcmd, hepos, hlen, hpad, hinv, hdisc, hterm, -, hcount, hlanes⟩ := decRspWord_fields (groupRsp last r)
  constructor
  case topBits => exact htop
  case errCmdAlone => rw [hcmd]; nofun
  case oneError => rw [herr]; exact h.oneError
  case noBytes => rw [herr, hdisc, hcount]; exact fun hor => h.errorEmpty (hor.resolve_right nofun)
  case discNoError => rw [hdisc]; nofun
  case termBytes => rw [herr, hterm, hcount]; exact h.termBytes
  case eposOfError => rw [hlen, hpad, hinv, hepos]; exact h.eposOfError
  case lanesEmpty => rw [hlanes, hcount]; exact h.lanesEmpty

theorem decAnswer_of_halted {w : DecWord} (hm : malformedDec w = false) (cfg : RunConfig) :
    decAnswer cfg true w = (decRspWord { disc := true, last := w[35] }, !w[35]) := by
  simp [decAnswer, hm]

/-- A word that is not malformed decodes to a command of its LAST. -/
theorem decodeDec_of_legal {w : DecWord} (hm : malformedDec w = false) :
    ∃ i, decodeDec w = .ok i ∧ i.agent = .dec ∧ i.last = w[35] := by
  rcases decodeDec_cases w with ⟨hm', -⟩ | ⟨-, ⟨-, hl, hd⟩ | ⟨-, hd⟩ | ⟨-, hd⟩ | ⟨-, hd⟩ | ⟨-, hd⟩⟩
  · exact absurd hm' (by simp [hm])
  · exact ⟨_, hd, rfl, hl.symm⟩
  all_goals exact ⟨_, hd, rfl, rfl⟩

/-- The status fields and the format of every answer: malformed, discarded or processed. -/
theorem decAnswer_fields (cfg : RunConfig) (halt : Bool) (w : DecWord) :
    ∃ r : DecRsp, (decAnswer cfg halt w).1 = decRspWord r ∧ r.errCmd = malformedDec w ∧
      r.disc = (!malformedDec w && halt) ∧ (malformedDec w = false → r.last = w[35]) ∧ DecRspFormat (decRspWord r) := by
  cases hm : malformedDec w with
  | true =>
    rw [decAnswer_of_malformed hm]
    exact ⟨_, rfl, rfl, rfl, nofun, (decRspOk_iff _).1 (by decide)⟩
  | false =>
    cases halt with
    | true =>
      rw [decAnswer_of_halted hm]
      refine ⟨_, rfl, rfl, rfl, fun _ => rfl, (decRspOk_iff _).1 ?_⟩
      cases w[35] <;> decide
    | false =>
      obtain ⟨i, hd, hi, hlast⟩ := decodeDec_of_legal hm
      rw [decAnswer_of_decodeDec hd]
      exact ⟨_, rfl, rfl, rfl, fun _ => hlast, decRspFormat_groupRsp (decResultOf_formatOk cfg hi) _⟩

/-- In lanes that are 0x00 from N on, lane k is 0x00 where N ≤ k. -/
theorem lane_eq_zero_of_drop {n k : Nat} {lanes : List Byte} {c : Byte}
    (h : (lanes.drop n).all (fun c => c == 0) = true) (hk : lanes[k]? = some c) (hle : n ≤ k) : c = 0 := by
  simp only [List.all_eq_true, beq_iff_eq] at h
  refine h c (List.mem_of_getElem? (i := k - n) ?_)
  rw [List.getElem?_drop, Nat.add_sub_cancel' hle, hk]

/-- Settles O28: the response is the pseudocode's answer, whose status bits are its fields and whose format is checked. -/
theorem decoderResponsesHaveTheirFormat : Obligations.DecoderResponsesHaveTheirFormat := by
  intro s w rest hq
  obtain ⟨r, hr, herr, hdisc, hlast, hformat⟩ := decAnswer_fields s.cfg s.decHalt w
  obtain ⟨-, fcmd, -, -, -, -, fdisc, -, flast, -⟩ := decRspWord_fields r
  refine ⟨_, decRspWord r, stepDec_eq_decNext hq, by rw [← hr]; rfl, hformat.topBits, ?_, hformat.errCmdAlone, ?_, ?_,
    hformat.oneError, hformat.noBytes, ?_, ?_, ?_⟩
  · rw [fcmd, herr]
  · rw [fdisc, hdisc, Bool.and_eq_true, Bool.not_eq_true']
  · intro h
    rw [flast, hlast h]
  · intro h
    exact (hformat.termBytes h).1
  · intro hlen hpad hinv
    simpa only [hlen, hpad, hinv, Bool.false_eq_true, false_or] using hformat.eposOfError
  · intro k c hk hle
    exact lane_eq_zero_of_drop hformat.lanesEmpty hk hle

end Sys2Proof.Machine
end

