-- ==== Sys2Proof/Proofs/Invariant.lean ====
section
/-! What every step keeps: the histories of the responses (20_memory.md section 4), the channels within their depths
(10_state.md R33) and responses of the formats of 30_encoding.md R65 and R67. -/

namespace Sys2Proof.Machine

open Sys2Proof.Safety

/-- Settles O45: a run without reset keeps both histories. -/
theorem responseHistoryIsInvariant : Obligations.ResponseHistoryIsInvariant := by
  intro n s t hs hrun
  have h := run_sameHistory hs hrun
  exact ⟨h.enc, h.dec⟩

/-! ## The answers are legal words -/

/-- A response that is no ERR_CMD, names no symbol with DISC, and has legal lanes. -/
theorem encRspOk_encRspWord {r : EncRsp} (herr : r.errCmd = false) (hdisc : r.disc = true → r.n.toNat = 0)
    (hlanes : r.LanesOk) : encRspOk (encRspWord r) = true := by
  obtain ⟨ftop, ferr, fdisc, -, fcount, flanes⟩ := encRspWord_fields r
  obtain ⟨hn, hsymbols⟩ := hlanes
  simp only [encRspOk, ftop, ferr, fdisc, fcount, flanes, herr, hn, hsymbols]
  cases hd : r.disc with
  | false => rfl
  | true => simp [hdisc hd]

theorem encAnswer_ok (halt : Bool) (w : EncWord) : encRspOk (encAnswer halt w).1 = true := by
  cases hm : malformedEnc w with
  | true =>
    rw [encAnswer_of_malformed hm]
    exact (by decide : encRspOk (encRspWord { errCmd := true }) = true)
  | false =>
    cases halt with
    | true =>
      rw [encAnswer_of_halted hm]
      exact encRspOk_encRspWord rfl (fun _ => rfl) (lanesOk_of_empty _ _ _)
    | false =>
      obtain ⟨r, hr, herr, hdisc, -, hlanes⟩ := encAnswer_processed hm
      rw [hr]
      exact encRspOk_encRspWord herr (by rw [hdisc]; nofun) hlanes

theorem decAnswer_ok (cfg : RunConfig) (halt : Bool) (w : DecWord) : decRspOk (decAnswer cfg halt w).1 = true := by
  obtain ⟨r, hr, -, -, -, hformat⟩ := decAnswer_fields cfg halt w
  rw [hr]
  exact (decRspOk_iff _).2 hformat

/-! ## The invariant, move by move -/

/-- The invariant does not speak of the moves the host has still to make, nor of the turns. -/
theorem inv_frame {s : State} (h : Inv s) (ms : List HostMove) (turns : List Agent) (n : Nat) :
    Inv { s with hostMoves := ms, turns := turns, moves := n } := by
  obtain ⟨⟨encPos, decPos, encCmd, encRsp, decCmd, decRsp⟩, ⟨encWaiting, encTaken, decWaiting, decTaken⟩⟩ := h
  exact ⟨⟨encPos, decPos, encCmd, encRsp, decCmd, decRsp⟩, ⟨encWaiting, encTaken, decWaiting, decTaken⟩⟩

theorem passTurn_inv {s : State} (h : Inv s) : Inv (passTurn s) := inv_frame h _ _ _

/-- Nor does it matter to whether a move can be made which moves follow it, or whose turn it is. -/
theorem moveReady_frame (m : HostMove) (s : State) (ms : List HostMove) (turns : List Agent) (n : Nat) :
    moveReady m { s with hostMoves := ms, turns := turns, moves := n } = moveReady m s := by
  cases m <;> rfl

theorem forall_mem_concat {α : Type} {p : α → Prop} {l : List α} {a : α} (hl : ∀ x ∈ l, p x) (ha : p a) :
    ∀ x ∈ l ++ [a], p x := List.forall_mem_append.2 ⟨hl, List.forall_mem_singleton.2 ha⟩

theorem length_concat_le {α : Type} {l : List α} {d : Nat} (h : l.length < d) (a : α) : (l ++ [a]).length ≤ d := by
  rwa [List.length_append]

/-- With room for its response, the encoder takes a word and sends a legal one. -/
theorem stepEnc_inv {s t : State} (h : Inv s) (hready : encReady s = true) (hstep : stepEnc s = .next t) : Inv t := by
  obtain ⟨hne, hroom⟩ := (encReady_iff s).1 hready
  obtain ⟨w, rest, hq⟩ := List.exists_cons_of_ne_nil hne
  rw [stepEnc_eq_encNext hq, Host.Outcome.next.injEq] at hstep
  subst hstep
  obtain ⟨⟨encPos, decPos, encCmd, encRsp, decCmd, decRsp⟩, ⟨encWaiting, encTaken, decWaiting, decTaken⟩⟩ := h
  rw [hq, List.length_cons] at encCmd
  exact ⟨⟨encPos, decPos, Nat.le_of_succ_le encCmd, length_concat_le hroom _, decCmd, decRsp⟩,
    ⟨forall_mem_concat encWaiting (encAnswer_ok _ _), encTaken, decWaiting, decTaken⟩⟩

/-- With room for its response, the decoder takes a word and sends a legal one. -/
theorem stepDec_inv {s t : State} (h : Inv s) (hready : decReady s = true) (hstep : stepDec s = .next t) : Inv t := by
  obtain ⟨hne, hroom⟩ := (decReady_iff s).1 hready
  obtain ⟨w, rest, hq⟩ := List.exists_cons_of_ne_nil hne
  rw [stepDec_eq_decNext hq, Host.Outcome.next.injEq] at hstep
  subst hstep
  obtain ⟨⟨encPos, decPos, encCmd, encRsp, decCmd, decRsp⟩, ⟨encWaiting, encTaken, decWaiting, decTaken⟩⟩ := h
  rw [hq, List.length_cons] at decCmd
  exact ⟨⟨encPos, decPos, encCmd, encRsp, Nat.le_of_succ_le decCmd, length_concat_le hroom _⟩,
    ⟨encWaiting, encTaken, forall_mem_concat decWaiting (decAnswer_ok _ _ _), decTaken⟩⟩

/-- A move of the host that can be made: a send finds room, a take moves a legal word, a reset empties the channels. -/
theorem hostMove_inv {m : HostMove} {s t : State} (h : Inv s) (hready : moveReady m s = true)
    (hmove : hostMoveEffect m s = .next t) : Inv t := by
  obtain ⟨⟨encPos, decPos, encCmd, encRsp, decCmd, decRsp⟩, ⟨encWaiting, encTaken, decWaiting, decTaken⟩⟩ := id h
  rcases hostMoveEffect_next hmove with ⟨w, rfl, rfl⟩ | ⟨w, rfl, rfl⟩ | ⟨rfl, ⟨hq, rfl⟩ | ⟨r, q, hq, rfl⟩⟩ |
    ⟨rfl, ⟨hq, rfl⟩ | ⟨r, q, hq, rfl⟩⟩ | ⟨c, b, p, rfl, hb, rfl⟩ | ⟨c, b, p, rfl, hb, hs, rfl⟩
  · exact ⟨⟨encPos, decPos, length_concat_le ((roomIn_iff _ _).1 hready) w, encRsp, decCmd, decRsp⟩,
      ⟨encWaiting, encTaken, decWaiting, decTaken⟩⟩
  · exact ⟨⟨encPos, decPos, encCmd, encRsp, length_concat_le ((roomIn_iff _ _).1 hready) w, decRsp⟩,
      ⟨encWaiting, encTaken, decWaiting, decTaken⟩⟩
  · exact h
  · rw [hq, List.length_cons] at encRsp
    rw [hq, List.forall_mem_cons] at encWaiting
    obtain ⟨hr, hwaiting⟩ := encWaiting
    exact ⟨⟨encPos, decPos, encCmd, Nat.le_of_succ_le encRsp, decCmd, decRsp⟩,
      ⟨hwaiting, forall_mem_concat encTaken hr, decWaiting, decTaken⟩⟩
  · exact h
  · rw [hq, List.length_cons] at decRsp
    rw [hq, List.forall_mem_cons] at decWaiting
    obtain ⟨hr, hwaiting⟩ := decWaiting
    exact ⟨⟨encPos, decPos, encCmd, encRsp, decCmd, Nat.le_of_succ_le decRsp⟩,
      ⟨encWaiting, encTaken, hwaiting, forall_mem_concat decTaken hr⟩⟩
  · exact ⟨⟨encPos, decPos, Nat.zero_le _, Nat.zero_le _, Nat.zero_le _, Nat.zero_le _⟩,
      ⟨List.forall_mem_nil _, encTaken, List.forall_mem_nil _, decTaken⟩⟩
  · exact h

/-- The host is the agent that moves only where its next move can be made. -/
theorem moveReady_of_nextAgent {s : State} {m : HostMove} {rest : List HostMove} (hn : nextAgent s = some .host)
    (hm : s.hostMoves = m :: rest) : moveReady m s = true := by
  have hready : hostReady s = true := nextAgent_ready hn
  simpa only [hostReady, hm] using hready

/-- Settles O46: the channels are empty, and each OPEN depth is a number plus 1. -/
theorem resetStateMeetsTheInvariant : Obligations.ResetStateMeetsTheInvariant :=
  ⟨⟨Nat.succ_pos _, Nat.succ_pos _, Nat.zero_le _, Nat.zero_le _, Nat.zero_le _, Nat.zero_le _⟩,
    ⟨List.forall_mem_nil _, List.forall_mem_nil _, List.forall_mem_nil _, List.forall_mem_nil _⟩⟩

/-- Settles O47: the move of each agent keeps the invariant where the agent is ready to move. -/
theorem everyStepKeepsTheInvariant : Obligations.EveryStepKeepsTheInvariant := by
  intro s t h hstep
  rcases step_cases hstep with ⟨-, rfl⟩ | ⟨hn, m, rest, hm, hmove⟩ | ⟨hn, henc⟩ | ⟨hn, hdec⟩
  · exact h
  · exact hostMove_inv (inv_frame h _ _ _) ((moveReady_frame m s _ _ _).trans (moveReady_of_nextAgent hn hm)) hmove
  · have hready : encReady s = true := nextAgent_ready hn
    exact stepEnc_inv (passTurn_inv h) hready henc
  · have hready : decReady s = true := nextAgent_ready hn
    exact stepDec_inv (passTurn_inv h) hready hdec

end Sys2Proof.Machine
end

