-- ==== Sys2Proof/Proofs/Turns.lean ====
section
/-! Which agent moves and what its step runs (10_state.md section 1, 41_encode.md R121, 42_decode.md R151): a settled turn
for an agent that can move makes it the one that moves, a unit's step runs the command its oldest word decodes to, and the
steps of the two units commute. -/

namespace Sys2Proof.Machine

open Sys2Proof.Claims

/-! ## The agent that moves -/

theorem nextAgent_of_turn {s : State} {a : Agent} (hready : agentReady a s = true) (hturn : turnOf s = a) :
    nextAgent s = some a := by
  have hmem := (mem_readyAgents a s).2 hready
  unfold nextAgent
  split
  case h_1 hnone => rw [hnone] at hmem; cases hmem
  case h_2 b hb => rw [hb, List.mem_singleton] at hmem; rw [hmem]
  case h_3 => rw [hturn, if_pos hready]

theorem nextAgent_eq_none_iff (s : State) : nextAgent s = none ↔ ∀ a, agentReady a s = false := by
  constructor
  · intro h a
    by_contra hready
    have hmem := (mem_readyAgents a s).2 ((Bool.not_eq_false _).mp hready)
    unfold nextAgent at h
    split at h
    case h_1 hnone => rw [hnone] at hmem; cases hmem
    case h_2 => cases h
    case h_3 => cases h
  · intro h
    cases hn : nextAgent s with
    | none => rfl
    | some a => exact absurd (nextAgent_ready hn) (by simp [h a])

/-- Whether an agent can move does not depend on whose turn it is. -/
theorem agentReady_turns (a : Agent) (s : State) (turns : List Agent) :
    agentReady a { s with turns := turns } = agentReady a s := by
  cases a <;> rfl

/-- A settled turn for an agent that can move makes that agent move. -/
theorem step_of_settled_turn {s : State} {a : Agent} (hready : agentReady a s = true) (rest : List Agent) :
    step { s with turns := a :: rest } = stepAgent a { s with turns := rest, moves := s.moves + 1 } :=
  step_of_nextAgent (nextAgent_of_turn ((agentReady_turns a s _).trans hready) rfl)

/-- Settles O34: the settled turn, and the agents that can move as those that may be the next. -/
theorem anyReadyAgentMayMoveNext : Obligations.AnyReadyAgentMayMoveNext :=
  ⟨fun _ _ rest hready => step_of_settled_turn hready rest, fun _ _ => nextAgent_ready, nextAgent_eq_none_iff⟩

/-- Settles O35: no agent can move. -/
theorem idleBlockHoldsItsState : Obligations.IdleBlockHoldsItsState := by
  intro s hhost henc hdec
  refine step_of_none ((nextAgent_eq_none_iff s).2 fun a => ?_)
  cases a with
  | host => simp only [agentReady, hostReady, hhost]
  | enc => simp only [agentReady, encReady, henc, List.isEmpty_nil, Bool.not_true, Bool.false_and]
  | dec => simp only [agentReady, decReady, hdec, List.isEmpty_nil, Bool.not_true, Bool.false_and]

/-! ## The command a step runs -/

theorem step_runs_enc {s : State} {w : EncWord} {rest : List EncWord} {i : Instr} (hn : nextAgent s = some .enc)
    (hq : s.encCmdQ = w :: rest) (hd : decodeEnc w = .ok i) :
    step s = exec i { s with encCmdQ := rest, turns := s.turns.tail, moves := s.moves + 1 } := by
  simp only [step_of_nextAgent hn, stepAgent, stepEnc, passTurn_encCmdQ, hq, hd]
  rfl

theorem step_runs_dec {s : State} {w : DecWord} {rest : List DecWord} {i : Instr} (hn : nextAgent s = some .dec)
    (hq : s.decCmdQ = w :: rest) (hd : decodeDec w = .ok i) :
    step s = exec i { s with decCmdQ := rest, turns := s.turns.tail, moves := s.moves + 1 } := by
  simp only [step_of_nextAgent hn, stepAgent, stepDec, passTurn_decCmdQ, hq, hd]
  rfl

/-- Settles O31: the step of the encoder, on a word that decodes. -/
theorem stepRunsTheDecodedEncoderCommand : Obligations.StepRunsTheDecodedEncoderCommand :=
  fun _ _ _ _ => step_runs_enc

/-- Settles O32: the step of the decoder, on a word that decodes. -/
theorem stepRunsTheDecodedDecoderCommand : Obligations.StepRunsTheDecodedDecoderCommand :=
  fun _ _ _ _ => step_runs_dec

/-- Settles O56: the step of the unit that moves, on a word that does not decode. -/
theorem stepAnswersAMalformedCommand : Obligations.StepAnswersAMalformedCommand := by
  refine ⟨fun s w rest e hn hq hd => ?_, fun s w rest e hn hq hd => ?_⟩
  · rw [step_of_nextAgent hn]
    exact stepEnc_of_error (s := passTurn s) hq hd
  · rw [step_of_nextAgent hn]
    exact stepDec_of_error (s := passTurn s) hq hd

/-! ## A word placed from the opcode table -/

theorem decodeTableWord_eq_some {n w : Nat} {i : Instr} (h : decodeTableWord n w = some i) :
    ∃ c, tableWord n w = some c ∧ decodeCmd c = .ok i := by
  unfold decodeTableWord at h
  split at h
  case h_1 c hc =>
    split at h
    case h_1 j hj => cases h; exact ⟨c, hc, hj⟩
    case h_2 => cases h
  case h_2 => cases h

/-- The placed word waits on its channel, its response finds room, and the next turn is the unit's. -/
theorem nextAgent_placeEnc (w : EncWord) {s : State} (hdepth : 1 ≤ s.cfg.encDepth) :
    nextAgent (placeEnc w s) = some .enc := by
  refine nextAgent_of_turn ((encReady_iff _).2 ⟨List.cons_ne_nil _ _, ?_⟩) rfl
  rw [placeEnc_encRspQ, placeEnc_cfg]
  split
  case isTrue hroom => exact (roomIn_iff _ _).1 hroom
  case isFalse => exact hdepth

theorem nextAgent_placeDec (w : DecWord) {s : State} (hdepth : 1 ≤ s.cfg.decDepth) :
    nextAgent (placeDec w s) = some .dec := by
  refine nextAgent_of_turn ((decReady_iff _).2 ⟨List.cons_ne_nil _ _, ?_⟩) rfl
  rw [placeDec_decRspQ, placeDec_cfg]
  split
  case isTrue hroom => exact (roomIn_iff _ _).1 hroom
  case isFalse => exact hdepth

/-- Settles O33: the unit of the placed word moves, and its step runs the command the word decodes to. -/
theorem placedWordIsTheNextOneRun : Obligations.PlacedWordIsTheNextOneRun := by
  intro s n w i henc hdec h
  obtain ⟨c, hc, hd⟩ := decodeTableWord_eq_some h
  simp only [State.withFetchWord, hc]
  cases c with
  | enc v => exact ⟨_, step_runs_enc (nextAgent_placeEnc v henc) rfl hd, rfl, rfl, rfl⟩
  | dec v => exact ⟨_, step_runs_dec (nextAgent_placeDec v hdec) rfl hd, rfl, rfl, rfl⟩

/-! ## The two units -/

/-- The state in which each unit has answered its oldest word, the rest of each channel left, after two moves. -/
def bothAnswered (s : State) (w : EncWord) (ws : List EncWord) (v : DecWord) (vs : List DecWord) (rest : List Agent) :
    State :=
  decNext (encNext { s with encCmdQ := ws, decCmdQ := vs, turns := rest, moves := s.moves + 2 }
    (encAnswer s.encHalt w).1 (encAnswer s.encHalt w).2) (decAnswer s.cfg s.decHalt v).1 (decAnswer s.cfg s.decHalt v).2

section BothReady

variable {s : State} {w : EncWord} {ws : List EncWord} {v : DecWord} {vs : List DecWord} (henc : encReady s = true)
  (hdec : decReady s = true) (hw : s.encCmdQ = w :: ws) (hv : s.decCmdQ = v :: vs)
include henc hdec hw hv

theorem run_enc_then_dec (rest : List Agent) :
    core.run 2 ({ s with turns := .enc :: .dec :: rest } : State) = .next (bothAnswered s w ws v vs rest) := by
  have hfirst := (step_of_settled_turn (a := .enc) henc (.dec :: rest)).trans (stepEnc_eq_encNext hw)
  have hsecond := step_of_settled_turn (s := encNext { s with encCmdQ := ws, moves := s.moves + 1 }
    (encAnswer s.encHalt w).1 (encAnswer s.encHalt w).2) (a := .dec) hdec rest
  rw [run_succ 1 hfirst]
  exact run_succ 0 (hsecond.trans (stepDec_eq_decNext hv))

theorem run_dec_then_enc (rest : List Agent) :
    core.run 2 ({ s with turns := .dec :: .enc :: rest } : State) = .next (bothAnswered s w ws v vs rest) := by
  have hfirst := (step_of_settled_turn (a := .dec) hdec (.enc :: rest)).trans (stepDec_eq_decNext hv)
  have hsecond := step_of_settled_turn (s := decNext { s with decCmdQ := vs, moves := s.moves + 1 }
    (decAnswer s.cfg s.decHalt v).1 (decAnswer s.cfg s.decHalt v).2) (a := .enc) henc rest
  rw [run_succ 1 hfirst]
  exact run_succ 0 (hsecond.trans (stepEnc_eq_encNext hw))

end BothReady

/-- Settles O43: in either order each unit answers its oldest word, since neither touches what the other reads. -/
theorem unitStepsCommute : Obligations.UnitStepsCommute := by
  intro s rest henc hdec
  obtain ⟨hencNe, -⟩ := (encReady_iff s).1 henc
  obtain ⟨hdecNe, -⟩ := (decReady_iff s).1 hdec
  obtain ⟨w, ws, hw⟩ := List.exists_cons_of_ne_nil hencNe
  obtain ⟨v, vs, hv⟩ := List.exists_cons_of_ne_nil hdecNe
  exact ⟨_, run_enc_then_dec henc hdec hw hv rest, run_dec_then_enc henc hdec hw hv rest⟩

end Sys2Proof.Machine
end

