-- ==== Sys2Proof/Proofs/HostMoves.lean ====
section
/-! The moves of the host (70_reset_and_hazards.md sections 1 and 3, 10_state.md R31, R33): what each does in a step, when a
full channel holds one back, and the only steps that are refused. -/

namespace Sys2Proof.Machine

open Sys2Proof.Safety

/-! ## Resets and straps -/

/-- The strap of each legal tail policy (10_state.md R31). -/
theorem tailPolicyOfBits_of_legal {tail : BitVec 2} {policy : TailPolicy}
    (h : (tail = 0 ∧ policy = .exactTail) ∨ (tail = 1 ∧ policy = .strictTail) ∨ (tail = 2 ∧ policy = .referenceTail)) :
    tailPolicyOfBits tail = some policy := by
  rcases h with ⟨rfl, rfl⟩ | ⟨rfl, rfl⟩ | ⟨rfl, rfl⟩ <;> rfl

theorem hostMoveEffect_reset_reserved (compat : Bool) (s : State) :
    hostMoveEffect (.reset compat 3) s = .refused .reservedTailPolicy := rfl

theorem hostMoveEffect_driveConfig_reserved (compat : Bool) (s : State) :
    hostMoveEffect (.driveConfig compat 3) s = .refused .reservedTailPolicy := rfl

theorem hostMoveEffect_driveConfig {tail : BitVec 2} {policy : TailPolicy} (h : tailPolicyOfBits tail = some policy)
    (compat : Bool) (s : State) : hostMoveEffect (.driveConfig compat tail) s =
      if compat = s.cfg.compatInvalid ∧ policy = s.cfg.tailPolicy then .next s else .refused .configChangedOutsideReset := by
  simp only [hostMoveEffect, h, sameConfig_iff]

/-- Settles O30: the reset move is the reset event under the policy its strap names. -/
theorem resetMoveClearsTheBlock : Obligations.ResetMoveClearsTheBlock := by
  refine fun s compat tail rest hn hm => ⟨?_, fun policy hpolicy => ?_⟩
  · rintro rfl
    rw [step_of_move hn hm, hostMoveEffect_reset_reserved]
  · rw [step_of_move hn hm, hostMoveEffect_reset (tailPolicyOfBits_of_legal hpolicy)]
    rfl

/-- Settles O38: a run without reset keeps the configuration, and a drive of the straps is refused but for present values. -/
theorem configurationIsFixedOutsideReset : Obligations.ConfigurationIsFixedOutsideReset := by
  refine ⟨fun n s t hs hrun => (run_sameHistory hs hrun).cfg, fun s compat tail rest hn hm => ⟨?_, ?_, ?_⟩⟩
  · intro policy hpolicy hchange
    rw [step_of_move hn hm, hostMoveEffect_driveConfig hpolicy]
    exact if_neg (not_and_or.2 hchange)
  · rintro rfl
    rw [step_of_move hn hm, hostMoveEffect_driveConfig_reserved]
  · intro hcompat hpolicy
    rw [step_of_move hn hm, hostMoveEffect_driveConfig hpolicy]
    exact if_pos ⟨hcompat, rfl⟩

/-- Settles O39: what a refused step is, move by move. -/
theorem onlyConfigurationMovesAreRefused : Obligations.OnlyConfigurationMovesAreRefused := by
  intro s
  cases hstep : step s with
  | next t => exact .inl ⟨t, rfl⟩
  | fault f => nomatch f
  | refused r =>
    obtain ⟨hn, m, rest, hm, hmove⟩ := step_refused hstep
    refine .inr ⟨hn, r, ?_⟩
    rcases hostMoveEffect_refused hmove with ⟨c, rfl, hr⟩ | ⟨c, rfl, hr⟩ | ⟨c, b, p, rfl, hp, hchange, hr⟩
    · exact ⟨c, 3, rest, rfl, .inl ⟨hm, rfl, hr⟩⟩
    · exact ⟨c, 3, rest, rfl, .inr (.inl ⟨hm, rfl, hr⟩)⟩
    · exact ⟨c, b, rest, rfl, .inr (.inr ⟨hm, hr, p, hp, not_and_or.1 hchange⟩)⟩

/-! ## Sends and takes -/

/-- Settles O37: the effect of each move on the state the move has left the host's list of. -/
theorem hostSendsAndTakesWholeWordsInOrder : Obligations.HostSendsAndTakesWholeWordsInOrder := by
  refine fun s rest hn => ⟨fun w hm => ?_, fun w hm => ?_, fun r q hm hq => ?_, fun r q hm hq => ?_⟩ <;>
    rw [step_of_move hn hm]
  · rfl
  · rfl
  · simp only [hostMoveEffect, passTurn_encRspQ, hq]
    rfl
  · simp only [hostMoveEffect, passTurn_decRspQ, hq]
    rfl

/-! ## Full channels -/

/-- A step in which the host does not move: the host's moves and the configuration stay, and a command channel loses its
oldest word exactly where its unit moves. -/
theorem step_without_host {s : State} (hn : nextAgent s ≠ some .host) : ∃ t, step s = .next t ∧
    t.hostMoves = s.hostMoves ∧ t.cfg = s.cfg ∧
    t.encCmdQ = (if nextAgent s = some .enc then s.encCmdQ.tail else s.encCmdQ) ∧
    t.decCmdQ = (if nextAgent s = some .dec then s.decCmdQ.tail else s.decCmdQ) := by
  cases ha : nextAgent s with
  | none => exact ⟨s, step_of_none ha, rfl, rfl, rfl, rfl⟩
  | some a =>
    rw [step_of_nextAgent ha]
    cases a with
    | host => exact absurd ha hn
    | enc =>
      rcases stepEnc_shape (passTurn s) with ⟨hq, he⟩ | ⟨w, rest, r, h, hq, he⟩ <;> rw [passTurn_encCmdQ] at hq
      · exact ⟨_, he, rfl, rfl, by simp [hq], rfl⟩
      · exact ⟨_, he, rfl, rfl, by simp [hq], rfl⟩
    | dec =>
      rcases stepDec_shape (passTurn s) with ⟨hq, he⟩ | ⟨w, rest, r, h, hq, he⟩ <;> rw [passTurn_decCmdQ] at hq
      · exact ⟨_, he, rfl, rfl, rfl, by simp [hq]⟩
      · exact ⟨_, he, rfl, rfl, rfl, by simp [hq]⟩

/-- The host does not move where its next move is a send to a full channel. -/
theorem host_waits {s : State} {m : HostMove} {rest : List HostMove} (hm : s.hostMoves = m :: rest)
    (hfull : ¬ moveReady m s = true) : nextAgent s ≠ some .host :=
  fun hn => hfull (moveReady_of_nextAgent hn hm)

/-- Settles O36: an agent that moves has room; and where the host waits, no channel gets a word from it. -/
theorem fullChannelStallsAndIsNoFault : Obligations.FullChannelStallsAndIsNoFault := by
  refine ⟨fun s hfull hn => ?_, fun s hfull hn => ?_, fun s w rest hm hfull => ?_, fun s w rest hm hfull => ?_⟩
  · obtain ⟨-, hroom⟩ := (encReady_iff s).1 (nextAgent_ready hn)
    omega
  · obtain ⟨-, hroom⟩ := (decReady_iff s).1 (nextAgent_ready hn)
    omega
  · have hn := host_waits hm fun hready => Nat.not_lt.2 hfull ((roomIn_iff _ _).1 hready)
    obtain ⟨t, hstep, hmoves, hcfg, hcmd, -⟩ := step_without_host hn
    exact ⟨hn, t, hstep, hmoves, hcfg, hcmd⟩
  · have hn := host_waits hm fun hready => Nat.not_lt.2 hfull ((roomIn_iff _ _).1 hready)
    obtain ⟨t, hstep, hmoves, hcfg, -, hcmd⟩ := step_without_host hn
    exact ⟨hn, t, hstep, hmoves, hcfg, hcmd⟩

end Sys2Proof.Machine
end

