-- ==== Sys2Proof/Proofs/HaltBits.lean ====
section
/-! Who writes the halt bits (10_state.md R24, R25; 60_exceptions.md section 2). -/

namespace Sys2Proof.Machine

open Sys2Proof.Claims

/-- The host makes a reset in this step. -/
def MakesReset (s : State) : Prop :=
  nextAgent s = some .host ∧ ∃ compat tail rest, s.hostMoves = .reset compat tail :: rest

/-- A step that makes a reset clears both halt bits. -/
theorem MakesReset.clears {s t : State} (h : MakesReset s) (hstep : step s = .next t) :
    t.encHalt = false ∧ t.decHalt = false := by
  obtain ⟨hn, compat, tail, rest, hm⟩ := h
  rw [step_of_move hn hm] at hstep
  cases hp : tailPolicyOfBits tail with
  | none =>
    rw [tailPolicyOfBits_eq_none] at hp
    subst hp
    rw [hostMoveEffect_reset_reserved] at hstep
    cases hstep
  | some p =>
    rw [hostMoveEffect_reset hp] at hstep
    cases hstep
    exact ⟨rfl, rfl⟩

/-- A step that is neither a reset nor a unit's leaves both halt bits as they were. -/
theorem step_halt_cases {s t : State} (h : step s = .next t) :
    MakesReset s ∨ (nextAgent s = some .enc ∧ stepEnc (passTurn s) = .next t) ∨
    (nextAgent s = some .dec ∧ stepDec (passTurn s) = .next t) ∨ (t.encHalt = s.encHalt ∧ t.decHalt = s.decHalt) := by
  rcases step_cases h with ⟨-, rfl⟩ | ⟨hn, m, rest, hm, hmove⟩ | henc | hdec
  · exact .inr (.inr (.inr ⟨rfl, rfl⟩))
  · rcases hostMoveEffect_halt hmove with ⟨c, b, rfl⟩ | hsame
    · exact .inl ⟨hn, c, b, rest, hm⟩
    · exact .inr (.inr (.inr hsame))
  · exact .inr (.inl henc)
  · exact .inr (.inr (.inl hdec))

theorem not_cleared_of_eq {b b' : Bool} (h : b' = b) {p : Prop} (h1 : b = true) (h0 : b' = false) : p :=
  absurd (h0.symm.trans (h.trans h1)) nofun

theorem not_set_of_eq {b b' : Bool} (h : b' = b) {p : Prop} (h0 : b = false) (h1 : b' = true) : p :=
  absurd (h1.symm.trans (h.trans h0)) nofun

/-- Settles O40: of the steps that write a halt bit, a unit's clears its own on LAST = 1 only. -/
theorem haltIsLeftOnlyByLastOrReset : Obligations.HaltIsLeftOnlyByLastOrReset := by
  intro s t h
  rcases step_halt_cases h with hreset | ⟨hn, henc⟩ | ⟨hn, hdec⟩ | ⟨he, hd⟩
  · exact ⟨fun _ _ => .inl hreset, fun _ _ => .inl hreset⟩
  · obtain ⟨hd, hleft, -⟩ := stepEnc_halt henc
    exact ⟨fun h1 h0 => .inr ⟨hn, hleft h1 h0⟩, not_cleared_of_eq hd⟩
  · obtain ⟨he, hleft, -⟩ := stepDec_halt hdec
    exact ⟨not_cleared_of_eq he, fun h1 h0 => .inr ⟨hn, hleft h1 h0⟩⟩
  · exact ⟨not_cleared_of_eq he, not_cleared_of_eq hd⟩

/-- Settles O41: a unit's step writes its own bit only, and sets it on LAST = 0 only; a reset clears both. -/
theorem haltBitsAreWrittenOnlyByTheirUnit : Obligations.HaltBitsAreWrittenOnlyByTheirUnit := by
  intro s t h
  rcases step_halt_cases h with hreset | ⟨hn, henc⟩ | ⟨hn, hdec⟩ | ⟨he, hd⟩
  · obtain ⟨he, hd⟩ := hreset.clears h
    exact ⟨fun _ => .inr hreset, fun _ => .inr hreset, fun _ h1 => absurd (he.symm.trans h1) nofun,
      fun _ h1 => absurd (hd.symm.trans h1) nofun⟩
  · obtain ⟨hd, -, hset⟩ := stepEnc_halt henc
    exact ⟨fun _ => .inl hn, fun hne => absurd hd hne, fun h0 h1 => ⟨hn, hset h0 h1⟩, not_set_of_eq hd⟩
  · obtain ⟨he, -, hset⟩ := stepDec_halt hdec
    exact ⟨fun hne => absurd he hne, fun _ => .inl hn, not_set_of_eq he, fun h0 h1 => ⟨hn, hset h0 h1⟩⟩
  · exact ⟨fun hne => absurd he hne, fun hne => absurd hd hne, not_set_of_eq he, not_set_of_eq hd⟩

/-! ## The end of a stream -/

theorem exec_enc_of_last {i : Instr} (hi : i.agent = .enc) (hlast : i.last = true) (s : State) :
    ∃ w, exec i s = .next (encNext s w false) := by
  cases hs : s.encHalt with
  | false => exact ⟨_, by rw [exec_enc_processed hi hs, hlast, haltAfter, Bool.not_true, Bool.false_and]⟩
  | true => exact ⟨_, by rw [exec_enc_discarded hi hs, hlast, Bool.not_true]⟩

theorem exec_dec_of_last {i : Instr} (hi : i.agent = .dec) (hlast : i.last = true) (s : State) :
    ∃ w, exec i s = .next (decNext s w false) := by
  cases hs : s.decHalt with
  | false => exact ⟨_, by rw [exec_dec_processed hi hs, hlast, haltAfter, Bool.not_true, Bool.false_and]⟩
  | true => exact ⟨_, by rw [exec_dec_discarded hi hs, hlast, Bool.not_true]⟩

/-- Settles O42: the unit's answer to a command with LAST = 1 clears its bit and keeps the other. -/
theorem lastCommandLeavesItsUnitNotHalted : Obligations.LastCommandLeavesItsUnitNotHalted := by
  intro i s hlast
  cases hi : i.agent with
  | host => cases i <;> cases hi
  | enc =>
    obtain ⟨w, he⟩ := exec_enc_of_last hi hlast s
    exact ⟨_, he, fun _ => ⟨rfl, rfl⟩, nofun⟩
  | dec =>
    obtain ⟨w, he⟩ := exec_dec_of_last hi hlast s
    exact ⟨_, he, nofun, fun _ => ⟨rfl, rfl⟩⟩

end Sys2Proof.Machine
end

