-- ==== Sys2Proof/Proofs/RoundTrip.lean ====
section
/-! The round trip (42_decode.md section 6): the text of ENCODE decodes group by group, each full group to its three bytes,
and the final group as padding and the tail policy say. -/

namespace Sys2Proof.Machine

open Sys2Proof.Safety Sys2Proof.Claims

/-! ## The bytes of a response -/

/-- The bytes a response emits: its first N lanes (30_encoding.md R67). -/
def DecRsp.bytes (r : DecRsp) : List Byte := [r.d0, r.d1, r.d2].take r.n.toNat

theorem decRspLanes_decRspWord (r : DecRsp) : decRspLanes (decRspWord r) = [r.d0, r.d1, r.d2] := by
  obtain ⟨-, -, -, -, -, -, -, -, -, -, hlanes⟩ := decRspWord_fields r
  exact hlanes

theorem decBytes_append (rs rs' : List RspWord) : decBytes (rs ++ rs') = decBytes rs ++ decBytes rs' :=
  List.flatMap_append

theorem decBytes_map_decRspWord (rs : List DecRsp) : decBytes (rs.map decRspWord) = rs.flatMap DecRsp.bytes := by
  simp only [decBytes, List.flatMap_map, decRspCount_decRspWord, decRspLanes_decRspWord]
  rfl

/-- N counts the bytes emitted, so resultSize is their number (30_encoding.md R68). -/
theorem resultSize_eq_length (rs : List RspWord) : resultSize rs = (decBytes rs).length := by
  have hcount (w : RspWord) : ((decRspLanes w).take (decRspCount w)).length = decRspCount w := by
    have hlt : decRspCount w < 4 := (w.extractLsb' 24 2).isLt
    rw [List.length_take, decRspLanes]
    simp only [List.length_cons, List.length_nil]
    omega
  simp only [resultSize, decBytes, List.length_flatMap, hcount]

/-! ## The symbols of a group -/

theorem group_slices (b0 b1 b2 : Byte) : (group b0 b1 b2).extractLsb' 16 8 = b0 ∧
    (group b0 b1 b2).extractLsb' 8 8 = b1 ∧ (group b0 b1 b2).extractLsb' 0 8 = b2 := by
  have h0 := b0.isLt
  have h1 := b1.isLt
  have h2 := b2.isLt
  simp only [← BitVec.toNat_inj, slice_toNat, group_toNat]
  omega

/-- Index 1 is the 6 high bits of byte 0 (30_encoding.md R69). -/
theorem first_index (b0 b1 b2 : Byte) : b0.extractLsb' 2 6 = (group b0 b1 b2).extractLsb' 18 6 := by
  obtain ⟨h0, -, -⟩ := group_slices b0 b1 b2
  rw [← slice_slice _ 16 8 2 6 (by decide), h0]

/-- The four indices of a group of three bytes (30_encoding.md R69). -/
def groupIndices (b0 b1 b2 : Byte) : List Sextet :=
  let g := group b0 b1 b2
  [g.extractLsb' 18 6, g.extractLsb' 12 6, g.extractLsb' 6 6, g.extractLsb' 0 6]

/-- The text of the ENCODE of a buffer. -/
def encodedText (np : Bool) (buf : List Byte) : List Byte := ((expandEncode np buf).map encRspOf).flatMap EncRsp.text

theorem encodedText_nil (np : Bool) : encodedText np [] = [] := rfl

theorem encodedText_three (np : Bool) (b0 b1 b2 : Byte) :
    encodedText np [b0, b1, b2] = (groupIndices b0 b1 b2).map symbolOf := rfl

theorem encodedText_group (np : Bool) (b0 b1 b2 b3 : Byte) (rest : List Byte) :
    encodedText np (b0 :: b1 :: b2 :: b3 :: rest) =
      (groupIndices b0 b1 b2).map symbolOf ++ encodedText np (b3 :: rest) := rfl

theorem encodedText_ne_nil (np : Bool) (b : Byte) (rest : List Byte) : encodedText np (b :: rest) ≠ [] := by
  refine List.ne_nil_of_length_pos ?_
  rw [encodedText, (expandEncode_text np _).length_eq, List.length_cons, encodedSymbols]
  split_ifs <;> omega

/-- Symbol 2 of a partial group is an index of the group with 0x00 for the missing bytes (41_encode.md R124, R125). -/
theorem encodedText_two (np : Bool) (b0 b1 : Byte) : encodedText np [b0, b1] =
    ((groupIndices b0 b1 0).take 3).map symbolOf ++ List.replicate (encodedPads np 2) padc := by
  have hg := group_toNat b0 b1 0
  have h1 := b1.isLt
  have i2 : b0.extractLsb' 0 2 ++ b1.extractLsb' 4 4 = (group b0 b1 0).extractLsb' 12 6 := by
    rw [← BitVec.toNat_inj, append_toNat, slice_toNat, slice_toNat, slice_toNat, hg, zero_toNat]
    omega
  have i3 : b1.extractLsb' 0 4 ++ (0 : BitVec 2) = (group b0 b1 0).extractLsb' 6 6 := by
    rw [← BitVec.toNat_inj, append_toNat, slice_toNat, slice_toNat, hg, zero_toNat, zero_toNat]
    omega
  have htext : encodedText np [b0, b1] = (rspEnc2 true np b0 b1).text := List.append_nil _
  rw [htext, rspEnc2, first_index b0 b1 0, i2, i3]
  cases np <;> rfl

theorem encodedText_one (np : Bool) (b0 : Byte) : encodedText np [b0] =
    ((groupIndices b0 0 0).take 2).map symbolOf ++ List.replicate (encodedPads np 1) padc := by
  have hg := group_toNat b0 0 0
  have i2 : b0.extractLsb' 0 2 ++ (0 : BitVec 4) = (group b0 0 0).extractLsb' 12 6 := by
    rw [← BitVec.toNat_inj, append_toNat, slice_toNat, slice_toNat, hg, zero_toNat, zero_toNat]
    omega
  have htext : encodedText np [b0] = (rspEnc1 true np b0).text := List.append_nil _
  rw [htext, rspEnc1, first_index b0 0 0, i2]
  cases np <;> rfl

/-! ## The bytes of a group -/

/-- The three bytes of a group of which at most three values are given, the others 0. -/
def tailBytes (vs : List Sextet) : List Byte :=
  let b := pack (valueAt vs 0) (valueAt vs 1) (valueAt vs 2) 0
  [b.1, b.2.1, b.2.2]

theorem pack_groupIndices (b0 b1 b2 : Byte) :
    pack ((group b0 b1 b2).extractLsb' 18 6) ((group b0 b1 b2).extractLsb' 12 6) ((group b0 b1 b2).extractLsb' 6 6)
      ((group b0 b1 b2).extractLsb' 0 6) = (b0, b1, b2) := by
  obtain ⟨h0, h1, h2⟩ := group_slices b0 b1 b2
  rw [pack_slices, h0, h1, h2]

theorem tailBytes_of_two (b0 b1 : Byte) : tailBytes ((groupIndices b0 b1 0).take 3) = [b0, b1, 0] := by
  have hlast : (group b0 b1 0).extractLsb' 0 6 = 0 := by
    rw [← BitVec.toNat_inj, slice_toNat, group_toNat, zero_toNat, zero_toNat]
    omega
  have hpack := pack_groupIndices b0 b1 0
  rw [hlast] at hpack
  exact congrArg (fun b => [b.1, b.2.1, b.2.2]) hpack

theorem tailBytes_of_one (b0 : Byte) : tailBytes ((groupIndices b0 0 0).take 2) = [b0, 0, 0] := by
  have hthird : (group b0 0 0).extractLsb' 6 6 = 0 := by
    rw [← BitVec.toNat_inj, slice_toNat, group_toNat, zero_toNat, zero_toNat]
    omega
  rw [← tailBytes_of_two b0 0]
  exact congrArg (fun v => tailBytes [_, _, v]) hthird.symm

/-! ## The final group -/

/-- 42_decode.md section 6 as a law of the responses to the text of a buffer: with padding the buffer comes back with no ERR
bit; without, under EXACT it comes back, under STRICT a partial group is ERR_LEN, under REFERENCE one byte 0x00 follows it. -/
def ObeysRoundTrip (np : Bool) (policy : TailPolicy) (buf : List Byte) (rs : List RspWord) : Prop :=
  (np = false → decBytes rs = buf ∧ ∀ r ∈ rs, decErrCount r = 0) ∧
  (np = true → policy = .exactTail → decBytes rs = buf) ∧
  (np = true → policy = .strictTail → buf.length % 3 ≠ 0 → ∃ r, rs.getLast? = some r ∧ r[31] = true) ∧
  (np = true → policy = .referenceTail → decBytes rs = buf ++ (if buf.length % 3 = 0 then [] else [0x00]))

theorem decBytes_singleton (r : DecRsp) : decBytes [decRspWord r] = r.bytes :=
  (decBytes_map_decRspWord [r]).trans (List.append_nil _)

/-- The law for one response is about the result behind it. -/
theorem obeysRoundTrip_singleton {np : Bool} {policy : TailPolicy} {buf : List Byte} {r : GroupResult} (last : Bool)
    (hpadded : np = false → (groupRsp last r).bytes = buf ∧ r.errCount = 0)
    (hexact : np = true → policy = .exactTail → (groupRsp last r).bytes = buf)
    (hstrict : np = true → policy = .strictTail → buf.length % 3 ≠ 0 → r.errLen = true)
    (hreference : np = true → policy = .referenceTail →
      (groupRsp last r).bytes = buf ++ (if buf.length % 3 = 0 then [] else [0x00])) :
    ObeysRoundTrip np policy buf [decRspWord (groupRsp last r)] := by
  obtain ⟨-, -, -, herrLen, -⟩ := decRspWord_fields (groupRsp last r)
  simp only [ObeysRoundTrip, decBytes_singleton, List.forall_mem_singleton, decErrCount_groupRsp]
  exact ⟨hpadded, hexact, fun hnp hpolicy hlen => ⟨_, rfl, herrLen.trans (hstrict hnp hpolicy hlen)⟩, hreference⟩

/-- A result that is the bytes of whole groups meets the law under every policy. -/
theorem obeysRoundTrip_of_bytes {buf : List Byte} {r : GroupResult} (np : Bool) (policy : TailPolicy) (last : Bool)
    (hlen : buf.length % 3 = 0) (hbytes : (groupRsp last r).bytes = buf) (herr : r.errCount = 0) :
    ObeysRoundTrip np policy buf [decRspWord (groupRsp last r)] :=
  obeysRoundTrip_singleton last (fun _ => ⟨hbytes, herr⟩) (fun _ _ => hbytes) (fun _ _ hne => absurd hlen hne)
    (fun _ _ => by rw [hbytes, if_pos hlen, List.append_nil])

theorem decodeGroup_three_bytes (cfg : RunConfig) (b0 b1 b2 : Byte) :
    decodeGroup cfg ((groupIndices b0 b1 b2).map symbolOf) = { n := 3, d0 := b0, d1 := b1, d2 := b2, ends := false } := by
  have hpack := pack_groupIndices b0 b1 b2
  rw [pack_eq_packed, Prod.mk.injEq, Prod.mk.injEq] at hpack
  obtain ⟨h0, h1, h2⟩ := hpack
  rw [groupIndices, decodeGroup_of_four, h0, h1, h2]

section PartialGroup

variable {k : Nat} (hk : k = 1 ∨ k = 2) (vs : List Sextet) (last : Bool)
include hk

theorem padStop_bytes : (groupRsp last (padStop (k + 2) vs)).bytes = (tailBytes vs).take k ∧
    (padStop (k + 2) vs).errCount = 0 := by
  rcases hk with rfl | rfl <;> exact ⟨rfl, rfl⟩

theorem tailExact_bytes : (groupRsp last (tailExact (k + 1) vs)).bytes = (tailBytes vs).take k := by
  rcases hk with rfl | rfl <;> rfl

theorem tailReference_bytes : (groupRsp last (tailReference (k + 1) vs)).bytes = (tailBytes vs).take (k + 1) := by
  rcases hk with rfl | rfl <;> rfl

end PartialGroup

/-- The final group of 1 or 2 bytes: their indices with padding stop the scan, without they are a tail. -/
theorem obeysRoundTrip_of_partial (cfg : RunConfig) (np : Bool) {vs : List Sextet} {left rest : List Byte}
    (hk : left.length = 1 ∨ left.length = 2) (hlen : vs.length = left.length + 1)
    (hbytes : tailBytes vs = left ++ 0 :: rest) :
    ObeysRoundTrip np cfg.tailPolicy left [decRspWord (groupRsp true (decodeGroup cfg
      (vs.map symbolOf ++ List.replicate (encodedPads np left.length) padc)))] := by
  have hleft : (tailBytes vs).take left.length = left := by rw [hbytes, List.take_left]
  have hzero : (tailBytes vs).take (left.length + 1) = left ++ [0] := by
    rw [hbytes, List.take_length_add_append, List.take_succ_cons, List.take_zero]
  have hpartial : left.length % 3 ≠ 0 := by omega
  cases np with
  | false =>
    obtain ⟨more, hpads⟩ : ∃ more, List.replicate (encodedPads false left.length) padc = padc :: more := by
      rcases hk with hk | hk <;> rw [hk] <;> exact ⟨_, rfl⟩
    rw [hpads, decodeGroup_of_pad (stopsAfter_padc _ vs more), hlen]
    obtain ⟨hpadded, herr⟩ := padStop_bytes hk vs true
    exact obeysRoundTrip_singleton true (fun _ => ⟨hpadded.trans hleft, herr⟩) nofun nofun nofun
  | true =>
    have hpads : List.replicate (encodedPads true left.length) padc = [] := rfl
    rw [hpads, List.append_nil, decodeGroup_of_tail cfg (by omega), hlen]
    refine obeysRoundTrip_singleton true nofun (fun _ hpolicy => ?_) (fun _ hpolicy _ => ?_) (fun _ hpolicy => ?_) <;>
      rw [hpolicy, tailGroup]
    · rw [tailExact_bytes hk, hleft]
    · rfl
    · rw [tailReference_bytes hk, hzero, if_neg hpartial]

/-! ## The text, group by group -/

theorem encodedText_length (np : Bool) (buf : List Byte) :
    (encodedText np buf).length = encodedSymbols buf.length + encodedPads np buf.length :=
  (expandEncode_text np buf).length_eq

/-- The answer to the text of one group, with LAST = 1. -/
theorem decode_lastGroup (cfg : RunConfig) {txt : List Byte} (hne : txt ≠ []) (hlen : txt.length ≤ 4) :
    decAnswers cfg false (decWords (expandDecode txt)) = [decRspWord (groupRsp true (decodeGroup cfg txt))] ∧
      decHaltAfter cfg false (decWords (expandDecode txt)) = false := by
  obtain ⟨full, final, heq, hsplit⟩ := expandDecode_split txt hne
  obtain rfl : full = [] := List.length_eq_zero_iff.1 (by rw [hsplit.count]; omega)
  obtain ⟨hagent, hlast, hgroup, hlanes⟩ := hsplit.rest.isGroup
  have hrun : ∀ i ∈ [final], KeepsDecRunning cfg i :=
    List.forall_mem_singleton.2 (keepsDecRunning_of_last hagent hlast cfg)
  obtain ⟨hanswers, hhalt⟩ := decAnswers_decWords hrun
  rw [heq, List.nil_append]
  refine ⟨?_, hhalt⟩
  rw [hanswers, List.map_singleton, List.map_singleton, decRspOf, hlast, decResultOf_of_group hgroup, hlanes]
  rfl

theorem decWords_cons {i : Instr} {w : DecWord} (h : encode i = .dec w) (is : List Instr) :
    decWords (i :: is) = w :: decWords is := by
  simp [decWords, h]

/-- One full group in front: its three bytes are answered first, and the rest as it was alone. -/
theorem decode_group_append (cfg : RunConfig) (b0 b1 b2 : Byte) {txt : List Byte} (hne : txt ≠ []) :
    decAnswers cfg false (decWords (expandDecode ((groupIndices b0 b1 b2).map symbolOf ++ txt))) =
      decRspWord (groupRsp false { n := 3, d0 := b0, d1 := b1, d2 := b2, ends := false }) ::
        decAnswers cfg false (decWords (expandDecode txt)) ∧
    decHaltAfter cfg false (decWords (expandDecode ((groupIndices b0 b1 b2).map symbolOf ++ txt))) =
      decHaltAfter cfg false (decWords (expandDecode txt)) := by
  obtain ⟨c, rest, rfl⟩ := List.exists_cons_of_ne_nil hne
  obtain ⟨i, hi, hlast, hcount, hlanes, hexpand⟩ : ∃ i : Instr, i.agent = .dec ∧ i.last = false ∧ i.count ≠ 0 ∧
      i.lanes = (groupIndices b0 b1 b2).map symbolOf ∧
      expandDecode ((groupIndices b0 b1 b2).map symbolOf ++ c :: rest) = i :: expandDecode (c :: rest) :=
    ⟨.dec4 false _ _ _ _, rfl, rfl, Nat.succ_ne_zero _, rfl, rfl⟩
  obtain ⟨w, hw, hdecode⟩ := encode_dec_decodes hi
  have hanswer := decAnswer_of_decodeDec hdecode cfg
  rw [decResultOf_of_group hcount, hlanes, decodeGroup_three_bytes, hlast] at hanswer
  rw [hexpand, decWords_cons hw, decAnswers, decHaltAfter, List.foldl_cons, hanswer]
  exact ⟨rfl, rfl⟩

theorem ObeysRoundTrip.cons {np : Bool} {policy : TailPolicy} {buf : List Byte} {rs : List RspWord}
    (h : ObeysRoundTrip np policy buf rs) (b0 b1 b2 : Byte) : ObeysRoundTrip np policy (b0 :: b1 :: b2 :: buf)
      (decRspWord (groupRsp false { n := 3, d0 := b0, d1 := b1, d2 := b2, ends := false }) :: rs) := by
  obtain ⟨hpadded, hexact, hstrict, hreference⟩ := h
  have hbytes (r : DecRsp) : decBytes (decRspWord r :: rs) = r.bytes ++ decBytes rs := by
    rw [← List.singleton_append, decBytes_append, decBytes_singleton]
  have hlen : (b0 :: b1 :: b2 :: buf).length % 3 = buf.length % 3 := Nat.add_mod_right _ 3
  simp only [ObeysRoundTrip, hbytes, hlen, List.forall_mem_cons, decErrCount_groupRsp]
  refine ⟨fun hnp => ?_, fun hnp hpolicy => ?_, fun hnp hpolicy hne => ?_, fun hnp hpolicy => ?_⟩
  · obtain ⟨hbuf, herr⟩ := hpadded hnp
    rw [hbuf]
    exact ⟨rfl, rfl, herr⟩
  · rw [hexact hnp hpolicy]
    rfl
  · obtain ⟨r, hr, herrLen⟩ := hstrict hnp hpolicy hne
    exact ⟨r, by rw [List.getLast?_cons, hr]; rfl, herrLen⟩
  · rw [hreference hnp hpolicy]
    rfl

/-- The DECODE of the text of an ENCODE leaves the unit not halted, and its answers obey the law. -/
def DecodesBack (cfg : RunConfig) (np : Bool) (buf : List Byte) : Prop :=
  decHaltAfter cfg false (decWords (expandDecode (encodedText np buf))) = false ∧
    ObeysRoundTrip np cfg.tailPolicy buf (decAnswers cfg false (decWords (expandDecode (encodedText np buf))))

theorem decodesBack_nil (cfg : RunConfig) (np : Bool) : DecodesBack cfg np [] := by
  obtain ⟨hanswers, hhalt⟩ := decAnswers_decWords (is := expandDecode [])
    (List.forall_mem_singleton.2 (keepsDecRunning_of_last (i := .decEnd) rfl rfl cfg))
  refine ⟨hhalt, ?_⟩
  rw [encodedText_nil, hanswers]
  exact obeysRoundTrip_of_bytes np cfg.tailPolicy true rfl rfl rfl

/-- A buffer of one group comes back where the result of that group obeys the law. -/
theorem decodesBack_of_lastGroup {cfg : RunConfig} {np : Bool} {b : Byte} {rest : List Byte}
    (hlen : (b :: rest).length ≤ 3) (h : ObeysRoundTrip np cfg.tailPolicy (b :: rest)
      [decRspWord (groupRsp true (decodeGroup cfg (encodedText np (b :: rest))))]) : DecodesBack cfg np (b :: rest) := by
  have hfour : (encodedText np (b :: rest)).length ≤ 4 := by
    rw [encodedText_length, encodedSymbols_add_encodedPads]
    split_ifs <;> omega
  obtain ⟨hanswers, hhalt⟩ := decode_lastGroup cfg (encodedText_ne_nil np b rest) hfour
  exact ⟨hhalt, hanswers ▸ h⟩

theorem DecodesBack.group {cfg : RunConfig} {np : Bool} {b3 : Byte} {rest : List Byte}
    (h : DecodesBack cfg np (b3 :: rest)) (b0 b1 b2 : Byte) : DecodesBack cfg np (b0 :: b1 :: b2 :: b3 :: rest) := by
  obtain ⟨hhalt, hlaw⟩ := h
  obtain ⟨hanswers, hhalt'⟩ := decode_group_append cfg b0 b1 b2 (encodedText_ne_nil np b3 rest)
  rw [DecodesBack, encodedText_group, hanswers, hhalt']
  exact ⟨hhalt, hlaw.cons b0 b1 b2⟩

/-- 42_decode.md section 6 for every buffer, by the recursion of ENCODE. -/
theorem decodesBack (cfg : RunConfig) (np : Bool) (buf : List Byte) : DecodesBack cfg np buf := by
  induction buf using expandEncode.induct with
  | case1 => exact decodesBack_nil cfg np
  | case2 b0 =>
    refine decodesBack_of_lastGroup (by simp) ?_
    rw [encodedText_one]
    exact obeysRoundTrip_of_partial cfg np (.inl rfl) rfl (tailBytes_of_one b0)
  | case3 b0 b1 =>
    refine decodesBack_of_lastGroup (by simp) ?_
    rw [encodedText_two]
    exact obeysRoundTrip_of_partial cfg np (.inr rfl) rfl (tailBytes_of_two b0 b1)
  | case4 b0 b1 b2 =>
    refine decodesBack_of_lastGroup (by simp) ?_
    rw [encodedText_three, decodeGroup_three_bytes]
    exact obeysRoundTrip_of_bytes np cfg.tailPolicy true (Nat.mod_self 3) rfl rfl
  | case5 b0 b1 b2 b3 rest ih => exact ih.group b0 b1 b2

/-! ## The runs -/

/-- The text of ENCODE buf is what a run of the encoder over its words leaves. -/
theorem encodesTo_text_eq {np : Bool} {buf txt : List Byte} (h : EncodesTo np buf txt) : txt = encodedText np buf := by
  obtain ⟨s, t, hbench, hrun, rfl⟩ := h
  obtain ⟨t', hrun', -, -, hrsp⟩ :=
    run_encoder_alone hbench.hostIdle hbench.decIdle (by simpa [hbench.noResponse] using hbench.room)
  obtain rfl : t' = t := Host.Outcome.next.inj (hrun'.symm.trans hrun)
  obtain ⟨hanswers, -⟩ := encAnswers_encWords (expandEncode_keepsEncRunning np buf)
  rw [hrsp, hbench.noResponse, hbench.notHalted, hbench.commands, List.nil_append, hanswers, encText_map_encRspWord]
  rfl

/-- A run of the decoder over the DECODE of such a text obeys the law. -/
theorem run_roundTrip {np : Bool} {buf txt : List Byte} {u : State} (htxt : EncodesTo np buf txt)
    (hbench : DecodeBench txt u) : ∃ v, core.run u.decCmdQ.length u = .next v ∧ v.decCmdQ = [] ∧ v.decHalt = false ∧
      ObeysRoundTrip np u.cfg.tailPolicy buf v.decRspQ := by
  obtain rfl := encodesTo_text_eq htxt
  obtain ⟨v, hrun, hempty, hhalt, hrsp⟩ := run_decodeBench hbench
  obtain ⟨hnotHalted, hlaw⟩ := decodesBack u.cfg np buf
  exact ⟨v, hrun, hempty, hhalt.trans hnotHalted, hrsp ▸ hlaw⟩

/-- Settles O50: the padded clause of the law, under every configuration. -/
theorem paddedRoundTripReturnsTheBuffer : Obligations.PaddedRoundTripReturnsTheBuffer := by
  intro buf txt u htxt hbench
  obtain ⟨v, hrun, hempty, hhalt, hpadded, -⟩ := run_roundTrip htxt hbench
  obtain ⟨hbytes, herr⟩ := hpadded rfl
  exact ⟨v, hrun, hbytes, by rw [resultSize_eq_length, hbytes], herr, hempty, hhalt⟩

/-- Settles O51: the three unpadded clauses of the law. -/
theorem unpaddedRoundTripByTailPolicy : Obligations.UnpaddedRoundTripByTailPolicy := by
  intro buf txt u htxt hbench
  obtain ⟨v, hrun, hempty, hhalt, -, hexact, hstrict, hreference⟩ := run_roundTrip htxt hbench
  exact ⟨v, hrun, hempty, hhalt, hexact rfl, hstrict rfl, hreference rfl⟩

end Sys2Proof.Machine
end

