-- ==== Sys2Proof/Proofs/AnyPace.lean ====
section
/-! Streams at any pace of the host, on channels of any depth (20_memory.md section 4): in a run without reset each unit's
responses are a beginning of the answers to what the host sends it, so once every command is answered they are all the
answers, no command is left, and the halt bit is the one after the last command. -/

namespace Sys2Proof.Machine

open Sys2Proof.Safety Sys2Proof.Claims

/-! ## The halt bits once all is answered -/

/-- The halt bit the encoder will have once it has answered every word that waits or that the host has still to send. -/
def encFinalHalt (s : State) : Bool := encHaltAfter s.encHalt (s.encCmdQ ++ encSends s.hostMoves)

/-- The halt bit the decoder will have once it has answered every word that waits or that the host has still to send. -/
def decFinalHalt (s : State) : Bool := decHaltAfter s.cfg s.decHalt (s.decCmdQ ++ decSends s.hostMoves)

/-- From s to t neither final halt bit changes. -/
structure SameFinalHalt (s t : State) : Prop where
  enc : encFinalHalt t = encFinalHalt s
  dec : decFinalHalt t = decFinalHalt s

theorem SameFinalHalt.refl (s : State) : SameFinalHalt s s := ⟨rfl, rfl⟩

theorem SameFinalHalt.trans {s t u : State} (h : SameFinalHalt s t) (h' : SameFinalHalt t u) : SameFinalHalt s u :=
  ⟨h'.enc.trans h.enc, h'.dec.trans h.dec⟩

theorem passTurn_sameFinalHalt (s : State) : SameFinalHalt s (passTurn s) := ⟨rfl, rfl⟩

theorem stepEnc_sameFinalHalt {s t : State} (h : stepEnc s = .next t) : SameFinalHalt s t := by
  cases hq : s.encCmdQ with
  | nil =>
    simp only [stepEnc, hq, Host.Outcome.next.injEq] at h
    exact h ▸ SameFinalHalt.refl s
  | cons w rest =>
    rw [stepEnc_eq_encNext hq, Host.Outcome.next.injEq] at h
    subst h
    exact ⟨by simp [encFinalHalt, encNext, hq, encHaltAfter], rfl⟩

theorem stepDec_sameFinalHalt {s t : State} (h : stepDec s = .next t) : SameFinalHalt s t := by
  cases hq : s.decCmdQ with
  | nil =>
    simp only [stepDec, hq, Host.Outcome.next.injEq] at h
    exact h ▸ SameFinalHalt.refl s
  | cons w rest =>
    rw [stepDec_eq_decNext hq, Host.Outcome.next.injEq] at h
    subst h
    exact ⟨rfl, by simp [decFinalHalt, decNext, hq, decHaltAfter]⟩

theorem hostMove_sameFinalHalt {s t : State} {m : HostMove} {rest : List HostMove} (hm : s.hostMoves = m :: rest)
    (hreset : ∀ compat tail, m ≠ .reset compat tail)
    (h : hostMoveEffect m { s with hostMoves := rest } = .next t) : SameFinalHalt s t := by
  rcases hostMoveEffect_next h with ⟨w, rfl, rfl⟩ | ⟨w, rfl, rfl⟩ | ⟨rfl, ⟨-, rfl⟩ | ⟨r, q, -, rfl⟩⟩ |
    ⟨rfl, ⟨-, rfl⟩ | ⟨r, q, -, rfl⟩⟩ | ⟨compat, tail, _, hc, _⟩ | ⟨compat, tail, _, rfl, _, _, rfl⟩
  case inr.inr.inr.inr.inl => exact absurd hc (hreset compat tail)
  all_goals exact ⟨by simp [encFinalHalt, encSends, hm], by simp [decFinalHalt, decSends, hm]⟩

theorem step_sameFinalHalt {s t : State} (hs : NoReset s) (h : step s = .next t) : SameFinalHalt s t := by
  rcases step_cases h with ⟨-, rfl⟩ | ⟨-, m, rest, hm, hmove⟩ | ⟨-, henc⟩ | ⟨-, hdec⟩
  · exact SameFinalHalt.refl t
  · have hreset : ∀ compat tail, m ≠ .reset compat tail :=
      fun compat tail hc => hs compat tail (hm ▸ hc ▸ List.mem_cons_self)
    exact (passTurn_sameFinalHalt s).trans (hostMove_sameFinalHalt hm hreset hmove)
  · exact (passTurn_sameFinalHalt s).trans (stepEnc_sameFinalHalt henc)
  · exact (passTurn_sameFinalHalt s).trans (stepDec_sameFinalHalt hdec)

theorem run_sameFinalHalt {n : Nat} {s t : State} (hs : NoReset s) (h : core.run n s = .next t) : SameFinalHalt s t := by
  have hkeep : ∀ u v, SameHistory s u ∧ SameFinalHalt s u → step u = .next v → SameHistory s v ∧ SameFinalHalt s v := by
    rintro u v ⟨hhistory, hhalt⟩ hstep
    have hu := hhistory.noReset hs
    exact ⟨hhistory.trans (step_sameHistory hu hstep), hhalt.trans (step_sameFinalHalt hu hstep)⟩
  obtain ⟨-, hhalt⟩ := run_induction hkeep n s t ⟨SameHistory.refl s, SameFinalHalt.refl s⟩ h
  exact hhalt

/-! ## All commands answered -/

theorem decAnswers_length (cfg : RunConfig) (halt : Bool) (ws : List DecWord) :
    (decAnswers cfg halt ws).length = ws.length := by
  induction ws generalizing halt with
  | nil => rfl
  | cons w ws ih => simp only [decAnswers, List.length_cons, ih]

end Sys2Proof.Machine

namespace Sys2Proof.Claims

open Sys2Proof.Machine

section Answered

variable {n : Nat} {s t : State} {rs : List RspWord} (h : FreshRun n s t)
include h

/-- The encoder has answered as many words as the host sends it: it has given all the answers. -/
theorem FreshRun.encoder_answered (hlen : rs.length = (encSends s.hostMoves).length)
    (hrs : rs = t.encTaken ++ t.encRspQ) : rs = encAnswers false (encSends s.hostMoves) ∧ t.encCmdQ = [] ∧
      t.encHalt = encHaltAfter false (encSends s.hostMoves) := by
  have hhistory : rs ++ encAnswers t.encHalt (t.encCmdQ ++ encSends t.hostMoves) =
      encAnswers false (encSends s.hostMoves) := hrs ▸ h.encHistory_eq
  have hnone : t.encCmdQ ++ encSends t.hostMoves = [] := by
    have := congrArg List.length hhistory
    rw [List.length_append, encAnswers_length, encAnswers_length] at this
    exact List.length_eq_zero_iff.1 (by omega)
  have hhalt := (run_sameFinalHalt h.noReset h.ran).enc
  rw [encFinalHalt, encFinalHalt, hnone, h.encNotHalted, h.encCmdEmpty] at hhalt
  rw [hnone, encAnswers, List.append_nil] at hhistory
  obtain ⟨hempty, -⟩ := List.append_eq_nil_iff.1 hnone
  exact ⟨hhistory, hempty, hhalt⟩

/-- The decoder has answered as many words as the host sends it: it has given all the answers. -/
theorem FreshRun.decoder_answered (hlen : rs.length = (decSends s.hostMoves).length)
    (hrs : rs = t.decTaken ++ t.decRspQ) : rs = decAnswers s.cfg false (decSends s.hostMoves) ∧
      t.decHalt = decHaltAfter s.cfg false (decSends s.hostMoves) := by
  have hhistory : rs ++ decAnswers t.cfg t.decHalt (t.decCmdQ ++ decSends t.hostMoves) =
      decAnswers s.cfg false (decSends s.hostMoves) := hrs ▸ h.decHistory_eq
  have hnone : t.decCmdQ ++ decSends t.hostMoves = [] := by
    have := congrArg List.length hhistory
    rw [List.length_append, decAnswers_length, decAnswers_length] at this
    exact List.length_eq_zero_iff.1 (by omega)
  have hhalt := (run_sameFinalHalt h.noReset h.ran).dec
  rw [decFinalHalt, decFinalHalt, hnone, h.decNotHalted, h.decCmdEmpty] at hhalt
  rw [hnone, decAnswers, List.append_nil] at hhistory
  exact ⟨hhistory, hhalt⟩

end Answered

theorem encWords_cons {i : Instr} {w : EncWord} (h : encode i = .enc w) (is : List Instr) :
    encWords (i :: is) = w :: encWords is := by
  simp [encWords, h]

theorem encWords_length {is : List Instr} (h : ∀ i ∈ is, i.agent = .enc) : (encWords is).length = is.length := by
  induction is with
  | nil => rfl
  | cons i is ih =>
    obtain ⟨hi, his⟩ := List.forall_mem_cons.1 h
    obtain ⟨w, hw, -⟩ := encode_enc_decodes hi
    rw [encWords_cons hw, List.length_cons, List.length_cons, ih his]

theorem decWords_length {is : List Instr} (h : ∀ i ∈ is, i.agent = .dec) : (decWords is).length = is.length := by
  induction is with
  | nil => rfl
  | cons i is ih =>
    obtain ⟨hi, his⟩ := List.forall_mem_cons.1 h
    obtain ⟨w, hw, -⟩ := encode_dec_decodes hi
    rw [decWords_cons hw, List.length_cons, List.length_cons, ih his]

theorem expandDecode_agent (txt : List Byte) : ∀ i ∈ expandDecode txt, i.agent = .dec := by
  fun_induction expandDecode txt with
  | case1 | case2 | case3 | case4 | case5 => exact List.forall_mem_singleton.2 rfl
  | case6 s1 s2 s3 s4 s5 rest ih => exact List.forall_mem_cons.2 ⟨rfl, ih⟩

/-! ## The laws at any pace -/

theorem EncodedAtAnyPace.answers {np : Bool} {buf : List Byte} {k : Nat} {s t : State} {rs : List RspWord}
    (h : EncodedAtAnyPace np buf k s t rs) : rs = ((expandEncode np buf).map encRspOf).map encRspWord ∧
      t.encCmdQ = [] ∧ t.encHalt = false := by
  have hrun := expandEncode_keepsEncRunning np buf
  have hlen : rs.length = (encSends s.hostMoves).length := by
    rw [h.answered, h.sends, encWords_length fun i hi => (hrun i hi).1]
  obtain ⟨hrs, hempty, hhalt⟩ := h.fresh.encoder_answered hlen h.responses
  obtain ⟨hanswers, hnotHalted⟩ := encAnswers_encWords hrun
  rw [h.sends] at hrs hhalt
  exact ⟨hrs.trans hanswers, hempty, hhalt.trans hnotHalted⟩

theorem DecodedAtAnyPace.answers {txt : List Byte} {k : Nat} {u v : State} {ds : List RspWord}
    (h : DecodedAtAnyPace txt k u v ds) : ds = decAnswers u.cfg false (decWords (expandDecode txt)) ∧
      v.decHalt = decHaltAfter u.cfg false (decWords (expandDecode txt)) := by
  have hlen : ds.length = (decSends u.hostMoves).length := by
    rw [h.answered, h.sends, decWords_length (expandDecode_agent txt)]
  have hanswered := h.fresh.decoder_answered hlen h.responses
  rwa [h.sends] at hanswered

/-- Settles O53: the answers are those to ENCODE, whose text is that of its commands. -/
theorem encodeBufferLawsAtAnyPace : Obligations.EncodeBufferLawsAtAnyPace := by
  intro np buf k s t rs h
  obtain ⟨rfl, hempty, hhalt⟩ := h.answers
  have htext := expandEncode_text np buf
  rw [encText_map_encRspWord]
  refine ⟨hhalt, hempty, ?_, ?_, htext.split⟩
  · rw [List.forall_mem_map, List.forall_mem_map]
    exact fun i _ => encRspOf_noError i
  · rw [htext.length_eq, encodedSymbols_add_encodedPads]

/-- Settles O54: the text is that of the commands of ENCODE, and the answers to its DECODE obey the round-trip law. -/
theorem roundTripAtAnyPace : Obligations.RoundTripAtAnyPace := by
  intro np buf k m s t u v rs ds henc hdec
  obtain ⟨rfl, -, -⟩ := henc.answers
  rw [encText_map_encRspWord] at hdec
  obtain ⟨rfl, hhalt⟩ := hdec.answers
  obtain ⟨hnotHalted, hpadded, hexact, hstrict, hreference⟩ := decodesBack u.cfg np buf
  refine ⟨hhalt.trans hnotHalted, fun hnp => ?_, hexact, hstrict, hreference⟩
  obtain ⟨hbytes, herr⟩ := hpadded hnp
  exact ⟨hbytes, (resultSize_eq_length _).trans (congrArg List.length hbytes), herr⟩

/-- Settles O55: the answers to DECODE obey the size law. -/
theorem decodedSizeLawAtAnyPace : Obligations.DecodedSizeLawAtAnyPace := by
  intro body pads k u v ds hbody h m
  obtain ⟨rfl, -⟩ := h.answers
  exact decAnswers_obeysSizeLaw u.cfg pads hbody

end Sys2Proof.Claims
end
